-- ==== Sys2Proof/Word.lean ====
section
/-! DEFINITION. The words of the machine: 32-bit registers and addresses, bytes, register numbers
and CSR addresses (00_scope.md R7, R9; 10_state.md R21, R40). Arithmetic on a `Word` is that of
`BitVec 32`, which is modulo 2^32, as R10 asks. -/

namespace Sys2Proof

/-- A register, the program counter, an address or an instruction word (R7). -/
abbrev Word := BitVec 32

/-- The smallest addressable unit (10_state.md R48). -/
abbrev Byte := BitVec 8

/-- The number of a general register, 0 to 31 (R21). -/
abbrev RegIdx := BitVec 5

/-- The address of a control and status register (R40). -/
abbrev CsrAddr := BitVec 12

end Sys2Proof
end

