-- ==== Sys2Proof/Syntax.lean ====
section
/-! DEFINITION. The instructions: one constructor for each row of spec/opcode_table.json
(30_encoding.md R130 to R137), with the operands in the order of the assembler syntax of R145
(stores: value, base, displacement). Immediates are the fields the encoding holds, except that a
branch or JAL offset is the byte offset of R126 and R128, whose bit 0 is 0 (`Instr.wf`). -/

namespace Sys2Proof

/-- The operation types of the decode table (30_encoding.md R123). -/
inductive OpType
  | R
  | I
  | S
  | B
  | U
  | J
  | System
  | Unknown
  deriving DecidableEq, Repr, Inhabited

/-- The 44 instructions. -/
inductive Instr
  | lui (rd : RegIdx) (imm20 : BitVec 20)
  | auipc (rd : RegIdx) (imm20 : BitVec 20)
  | addi (rd rs1 : RegIdx) (imm : BitVec 12)
  | slti (rd rs1 : RegIdx) (imm : BitVec 12)
  | sltiu (rd rs1 : RegIdx) (imm : BitVec 12)
  | xori (rd rs1 : RegIdx) (imm : BitVec 12)
  | ori (rd rs1 : RegIdx) (imm : BitVec 12)
  | andi (rd rs1 : RegIdx) (imm : BitVec 12)
  | slli (rd rs1 : RegIdx) (shamt : BitVec 5)
  | srli (rd rs1 : RegIdx) (shamt : BitVec 5)
  | srai (rd rs1 : RegIdx) (shamt : BitVec 5)
  | add (rd rs1 rs2 : RegIdx)
  | sub (rd rs1 rs2 : RegIdx)
  | sll (rd rs1 rs2 : RegIdx)
  | slt (rd rs1 rs2 : RegIdx)
  | sltu (rd rs1 rs2 : RegIdx)
  | xor (rd rs1 rs2 : RegIdx)
  | srl (rd rs1 rs2 : RegIdx)
  | sra (rd rs1 rs2 : RegIdx)
  | or (rd rs1 rs2 : RegIdx)
  | and (rd rs1 rs2 : RegIdx)
  | jal (rd : RegIdx) (offset : BitVec 21)
  | jalr (rd rs1 : RegIdx) (imm : BitVec 12)
  | beq (rs1 rs2 : RegIdx) (offset : BitVec 13)
  | bne (rs1 rs2 : RegIdx) (offset : BitVec 13)
  | blt (rs1 rs2 : RegIdx) (offset : BitVec 13)
  | bge (rs1 rs2 : RegIdx) (offset : BitVec 13)
  | bltu (rs1 rs2 : RegIdx) (offset : BitVec 13)
  | bgeu (rs1 rs2 : RegIdx) (offset : BitVec 13)
  | lb (rd rs1 : RegIdx) (imm : BitVec 12)
  | lh (rd rs1 : RegIdx) (imm : BitVec 12)
  | lw (rd rs1 : RegIdx) (imm : BitVec 12)
  | lbu (rd rs1 : RegIdx) (imm : BitVec 12)
  | lhu (rd rs1 : RegIdx) (imm : BitVec 12)
  | sb (rs2 rs1 : RegIdx) (imm : BitVec 12)
  | sh (rs2 rs1 : RegIdx) (imm : BitVec 12)
  | sw (rs2 rs1 : RegIdx) (imm : BitVec 12)
  | ecall
  | csrrw (rd : RegIdx) (csr : CsrAddr) (rs1 : RegIdx)
  | csrrs (rd : RegIdx) (csr : CsrAddr) (rs1 : RegIdx)
  | csrrc (rd : RegIdx) (csr : CsrAddr) (rs1 : RegIdx)
  | csrrwi (rd : RegIdx) (csr : CsrAddr) (uimm : BitVec 5)
  | csrrsi (rd : RegIdx) (csr : CsrAddr) (uimm : BitVec 5)
  | csrrci (rd : RegIdx) (csr : CsrAddr) (uimm : BitVec 5)
  deriving DecidableEq, Repr, Inhabited

/-- The pseudo-instructions of R146. Each is only a spelling; `Pseudo.expand` gives the real ones. -/
inductive Pseudo
  | nop
  | mv (rd rs : RegIdx)
  | li (rd : RegIdx) (imm : Word)
  | j (offset : BitVec 21)
  | jr (rs : RegIdx)
  | ret
  | call (offset : BitVec 21)
  | beqz (rs : RegIdx) (offset : BitVec 13)
  | bnez (rs : RegIdx) (offset : BitVec 13)
  | not (rd rs : RegIdx)
  | neg (rd rs : RegIdx)
  | seqz (rd rs : RegIdx)
  | snez (rd rs : RegIdx)
  | csrr (rd : RegIdx) (csr : CsrAddr)
  | csrw (csr : CsrAddr) (rs : RegIdx)
  deriving DecidableEq, Repr

end Sys2Proof
end

