-- ==== Sys2Proof/WellFormed.lean ====
section
/-! DEFINITION. Which instructions can be encoded. Every field has the width of its encoding, so
the one check is that a branch or JAL offset is even: the immediates of R126 and R128 have
"imm[0] = 0" (30_encoding.md). -/

namespace Sys2Proof

/-- A B-type offset is even (R126). -/
def branchOffsetOk (offset : BitVec 13) : Bool := !offset.getLsbD 0

/-- A J-type offset is even (R128). -/
def jumpOffsetOk (offset : BitVec 21) : Bool := !offset.getLsbD 0

/-- The instruction has an encoding. -/
def Instr.wf : Instr → Bool
  | .jal _ offset => jumpOffsetOk offset
  | .beq _ _ offset => branchOffsetOk offset
  | .bne _ _ offset => branchOffsetOk offset
  | .blt _ _ offset => branchOffsetOk offset
  | .bge _ _ offset => branchOffsetOk offset
  | .bltu _ _ offset => branchOffsetOk offset
  | .bgeu _ _ offset => branchOffsetOk offset
  | .lui _ _ | .auipc _ _ | .addi _ _ _ | .slti _ _ _ | .sltiu _ _ _ | .xori _ _ _ | .ori _ _ _
  | .andi _ _ _ | .slli _ _ _ | .srli _ _ _ | .srai _ _ _ | .add _ _ _ | .sub _ _ _ | .sll _ _ _
  | .slt _ _ _ | .sltu _ _ _ | .xor _ _ _ | .srl _ _ _ | .sra _ _ _ | .or _ _ _ | .and _ _ _
  | .jalr _ _ _ | .lb _ _ _ | .lh _ _ _ | .lw _ _ _ | .lbu _ _ _ | .lhu _ _ _ | .sb _ _ _
  | .sh _ _ _ | .sw _ _ _ | .ecall | .csrrw _ _ _ | .csrrs _ _ _ | .csrrc _ _ _ | .csrrwi _ _ _
  | .csrrsi _ _ _ | .csrrci _ _ _ => true

end Sys2Proof
end

