-- ==== Sys2Proof/Decode.lean ====
section
/-! DEFINITION. From words to instructions and back (30_encoding.md): the fields and immediates of
an instruction word, the 128-entry operation-type table, the decoder, the encoder, the rows of the
opcode table, the pseudo-instructions, and the byte order of a word. -/

namespace Sys2Proof

/-! ### Byte order (20_memory.md R100) -/

/-- The value whose little-endian bytes are `bs`, the first at the lowest address (R100). -/
def wordOfBytes : List Byte → Word
  | [] => 0
  | b :: bs => (wordOfBytes bs <<< 8) ||| b.setWidth 32

/-- The low `n` bytes of `v`, least significant first (R100). -/
def bytesOfWord : Nat → Word → List Byte
  | 0, _ => []
  | n + 1, v => v.setWidth 8 :: bytesOfWord n (v >>> 8)

/-! ### Fields (R121, R129) -/

/-- `ir[6:0]` -/
def opcodeOf (w : Word) : BitVec 7 := w.extractLsb' 0 7

/-- `ir[11:7]` -/
def rdOf (w : Word) : RegIdx := w.extractLsb' 7 5

/-- `ir[14:12]` -/
def funct3Of (w : Word) : BitVec 3 := w.extractLsb' 12 3

/-- `ir[19:15]`; also the `uimm` of the CSR immediate forms (R129). -/
def rs1Of (w : Word) : RegIdx := w.extractLsb' 15 5

/-- `ir[24:20]`; also the `shamt` of the immediate shifts (R129). -/
def rs2Of (w : Word) : RegIdx := w.extractLsb' 20 5

/-- `ir[31:25]` -/
def funct7Of (w : Word) : BitVec 7 := w.extractLsb' 25 7

/-- `ir[31:20]` as a CSR address (R129). -/
def csrOf (w : Word) : CsrAddr := w.extractLsb' 20 12

/-! ### Immediates (R124 to R128), before sign extension -/

/-- I-type, R124. -/
def immIOf (w : Word) : BitVec 12 := w.extractLsb' 20 12

/-- S-type, R125. -/
def immSOf (w : Word) : BitVec 12 := w.extractLsb' 25 7 ++ w.extractLsb' 7 5

/-- B-type, R126: the byte offset, bit 0 always 0. -/
def immBOf (w : Word) : BitVec 13 :=
  w.extractLsb' 31 1 ++ w.extractLsb' 7 1 ++ w.extractLsb' 25 6 ++ w.extractLsb' 8 4 ++ 0#1

/-- U-type, R127: the 20-bit field, unshifted. -/
def immUOf (w : Word) : BitVec 20 := w.extractLsb' 12 20

/-- J-type, R128: the byte offset, bit 0 always 0. -/
def immJOf (w : Word) : BitVec 21 :=
  w.extractLsb' 31 1 ++ w.extractLsb' 12 8 ++ w.extractLsb' 20 1 ++ w.extractLsb' 21 10 ++ 0#1

/-! ### Operation types and the decoder -/

/-- The lookup table of R123: ten mapped opcodes, every other one Unknown. -/
def typeTable (opcode : BitVec 7) : OpType :=
  if opcode = 0x37 then .U
  else if opcode = 0x17 then .U
  else if opcode = 0x6F then .J
  else if opcode = 0x67 then .I
  else if opcode = 0x63 then .B
  else if opcode = 0x03 then .I
  else if opcode = 0x23 then .S
  else if opcode = 0x13 then .I
  else if opcode = 0x33 then .R
  else if opcode = 0x73 then .System
  else .Unknown

/-- Why bytes are no instruction. -/
inductive DecodeReject
  /-- fewer than four bytes (every instruction is one 32-bit word, R120) -/
  | truncated
  /-- the opcode has type Unknown (R141): ILLEGAL_INSTRUCTION at DECODE -/
  | unknownOpcode
  /-- an unrecognised function code in a known opcode (R142): ILLEGAL_INSTRUCTION at EXECUTE -/
  | badFunctionCode
  deriving DecidableEq, Repr

/-- Opcode OP-IMM, R131. -/
def decodeOpImm (w : Word) : Except DecodeReject Instr :=
  let f3 := funct3Of w
  let f7 := funct7Of w
  if f3 = 0b000 then .ok (.addi (rdOf w) (rs1Of w) (immIOf w))
  else if f3 = 0b010 then .ok (.slti (rdOf w) (rs1Of w) (immIOf w))
  else if f3 = 0b011 then .ok (.sltiu (rdOf w) (rs1Of w) (immIOf w))
  else if f3 = 0b100 then .ok (.xori (rdOf w) (rs1Of w) (immIOf w))
  else if f3 = 0b110 then .ok (.ori (rdOf w) (rs1Of w) (immIOf w))
  else if f3 = 0b111 then .ok (.andi (rdOf w) (rs1Of w) (immIOf w))
  else if f3 = 0b001 ∧ f7 = 0b0000000 then .ok (.slli (rdOf w) (rs1Of w) (rs2Of w))
  else if f3 = 0b101 ∧ f7 = 0b0000000 then .ok (.srli (rdOf w) (rs1Of w) (rs2Of w))
  else if f3 = 0b101 ∧ f7 = 0b0100000 then .ok (.srai (rdOf w) (rs1Of w) (rs2Of w))
  else .error .badFunctionCode

/-- Opcode OP, R132. -/
def decodeOp (w : Word) : Except DecodeReject Instr :=
  let f3 := funct3Of w
  let f7 := funct7Of w
  if f7 = 0b0000000 ∧ f3 = 0b000 then .ok (.add (rdOf w) (rs1Of w) (rs2Of w))
  else if f7 = 0b0100000 ∧ f3 = 0b000 then .ok (.sub (rdOf w) (rs1Of w) (rs2Of w))
  else if f7 = 0b0000000 ∧ f3 = 0b001 then .ok (.sll (rdOf w) (rs1Of w) (rs2Of w))
  else if f7 = 0b0000000 ∧ f3 = 0b010 then .ok (.slt (rdOf w) (rs1Of w) (rs2Of w))
  else if f7 = 0b0000000 ∧ f3 = 0b011 then .ok (.sltu (rdOf w) (rs1Of w) (rs2Of w))
  else if f7 = 0b0000000 ∧ f3 = 0b100 then .ok (.xor (rdOf w) (rs1Of w) (rs2Of w))
  else if f7 = 0b0000000 ∧ f3 = 0b101 then .ok (.srl (rdOf w) (rs1Of w) (rs2Of w))
  else if f7 = 0b0100000 ∧ f3 = 0b101 then .ok (.sra (rdOf w) (rs1Of w) (rs2Of w))
  else if f7 = 0b0000000 ∧ f3 = 0b110 then .ok (.or (rdOf w) (rs1Of w) (rs2Of w))
  else if f7 = 0b0000000 ∧ f3 = 0b111 then .ok (.and (rdOf w) (rs1Of w) (rs2Of w))
  else .error .badFunctionCode

/-- Opcode JALR, R137. -/
def decodeJalr (w : Word) : Except DecodeReject Instr :=
  if funct3Of w = 0b000 then .ok (.jalr (rdOf w) (rs1Of w) (immIOf w))
  else .error .badFunctionCode

/-- Opcode BRANCH, R133. -/
def decodeBranch (w : Word) : Except DecodeReject Instr :=
  let f3 := funct3Of w
  if f3 = 0b000 then .ok (.beq (rs1Of w) (rs2Of w) (immBOf w))
  else if f3 = 0b001 then .ok (.bne (rs1Of w) (rs2Of w) (immBOf w))
  else if f3 = 0b100 then .ok (.blt (rs1Of w) (rs2Of w) (immBOf w))
  else if f3 = 0b101 then .ok (.bge (rs1Of w) (rs2Of w) (immBOf w))
  else if f3 = 0b110 then .ok (.bltu (rs1Of w) (rs2Of w) (immBOf w))
  else if f3 = 0b111 then .ok (.bgeu (rs1Of w) (rs2Of w) (immBOf w))
  else .error .badFunctionCode

/-- Opcode LOAD, R134. -/
def decodeLoad (w : Word) : Except DecodeReject Instr :=
  let f3 := funct3Of w
  if f3 = 0b000 then .ok (.lb (rdOf w) (rs1Of w) (immIOf w))
  else if f3 = 0b001 then .ok (.lh (rdOf w) (rs1Of w) (immIOf w))
  else if f3 = 0b010 then .ok (.lw (rdOf w) (rs1Of w) (immIOf w))
  else if f3 = 0b100 then .ok (.lbu (rdOf w) (rs1Of w) (immIOf w))
  else if f3 = 0b101 then .ok (.lhu (rdOf w) (rs1Of w) (immIOf w))
  else .error .badFunctionCode

/-- Opcode STORE, R135. -/
def decodeStore (w : Word) : Except DecodeReject Instr :=
  let f3 := funct3Of w
  if f3 = 0b000 then .ok (.sb (rs2Of w) (rs1Of w) (immSOf w))
  else if f3 = 0b001 then .ok (.sh (rs2Of w) (rs1Of w) (immSOf w))
  else if f3 = 0b010 then .ok (.sw (rs2Of w) (rs1Of w) (immSOf w))
  else .error .badFunctionCode

/-- Opcode SYSTEM, R136. -/
def decodeSystem (w : Word) : Except DecodeReject Instr :=
  let f3 := funct3Of w
  if w = 0x00000073 then .ok .ecall
  else if f3 = 0b001 then .ok (.csrrw (rdOf w) (csrOf w) (rs1Of w))
  else if f3 = 0b010 then .ok (.csrrs (rdOf w) (csrOf w) (rs1Of w))
  else if f3 = 0b011 then .ok (.csrrc (rdOf w) (csrOf w) (rs1Of w))
  else if f3 = 0b101 then .ok (.csrrwi (rdOf w) (csrOf w) (rs1Of w))
  else if f3 = 0b110 then .ok (.csrrsi (rdOf w) (csrOf w) (rs1Of w))
  else if f3 = 0b111 then .ok (.csrrci (rdOf w) (csrOf w) (rs1Of w))
  else .error .badFunctionCode

/-- The instruction a word selects, or why it selects none (R130 to R137, R140 to R142). -/
def decodeWord (w : Word) : Except DecodeReject Instr :=
  let op := opcodeOf w
  if op = 0x37 then .ok (.lui (rdOf w) (immUOf w))
  else if op = 0x17 then .ok (.auipc (rdOf w) (immUOf w))
  else if op = 0x6F then .ok (.jal (rdOf w) (immJOf w))
  else if op = 0x67 then decodeJalr w
  else if op = 0x63 then decodeBranch w
  else if op = 0x03 then decodeLoad w
  else if op = 0x23 then decodeStore w
  else if op = 0x13 then decodeOpImm w
  else if op = 0x33 then decodeOp w
  else if op = 0x73 then decodeSystem w
  else .error .unknownOpcode

/-- The instruction at the front of a list of bytes, and the bytes after it (R120: one 32-bit word,
read little-endian). -/
def decodeBytes : List Byte → Except DecodeReject (Instr × List Byte)
  | b0 :: b1 :: b2 :: b3 :: rest =>
    match decodeWord (wordOfBytes [b0, b1, b2, b3]) with
    | .ok i => .ok (i, rest)
    | .error e => .error e
  | _ => .error .truncated

/-! ### The encoder -/

/-- R-type (R122). -/
def encR (funct7 : BitVec 7) (rs2 rs1 : RegIdx) (funct3 : BitVec 3) (rd : RegIdx)
    (opcode : BitVec 7) : Word :=
  funct7 ++ rs2 ++ rs1 ++ funct3 ++ rd ++ opcode

/-- I-type and the CSR form of System (R122). -/
def encI (imm : BitVec 12) (rs1 : RegIdx) (funct3 : BitVec 3) (rd : RegIdx)
    (opcode : BitVec 7) : Word :=
  imm ++ rs1 ++ funct3 ++ rd ++ opcode

/-- S-type (R122, R125). -/
def encS (imm : BitVec 12) (rs2 rs1 : RegIdx) (funct3 : BitVec 3) (opcode : BitVec 7) : Word :=
  imm.extractLsb' 5 7 ++ rs2 ++ rs1 ++ funct3 ++ imm.extractLsb' 0 5 ++ opcode

/-- B-type (R122, R126). -/
def encB (offset : BitVec 13) (rs2 rs1 : RegIdx) (funct3 : BitVec 3) (opcode : BitVec 7) : Word :=
  offset.extractLsb' 12 1 ++ offset.extractLsb' 5 6 ++ rs2 ++ rs1 ++ funct3 ++
    offset.extractLsb' 1 4 ++ offset.extractLsb' 11 1 ++ opcode

/-- U-type (R122, R127). -/
def encU (imm : BitVec 20) (rd : RegIdx) (opcode : BitVec 7) : Word :=
  imm ++ rd ++ opcode

/-- J-type (R122, R128). -/
def encJ (offset : BitVec 21) (rd : RegIdx) (opcode : BitVec 7) : Word :=
  offset.extractLsb' 20 1 ++ offset.extractLsb' 1 10 ++ offset.extractLsb' 11 1 ++
    offset.extractLsb' 12 8 ++ rd ++ opcode

/-- The word of a well-formed instruction (R122, R130 to R137). -/
def encode : Instr → Word
  | .lui rd imm => encU imm rd 0x37
  | .auipc rd imm => encU imm rd 0x17
  | .addi rd rs1 imm => encI imm rs1 0b000 rd 0x13
  | .slti rd rs1 imm => encI imm rs1 0b010 rd 0x13
  | .sltiu rd rs1 imm => encI imm rs1 0b011 rd 0x13
  | .xori rd rs1 imm => encI imm rs1 0b100 rd 0x13
  | .ori rd rs1 imm => encI imm rs1 0b110 rd 0x13
  | .andi rd rs1 imm => encI imm rs1 0b111 rd 0x13
  | .slli rd rs1 shamt => encR 0b0000000 shamt rs1 0b001 rd 0x13
  | .srli rd rs1 shamt => encR 0b0000000 shamt rs1 0b101 rd 0x13
  | .srai rd rs1 shamt => encR 0b0100000 shamt rs1 0b101 rd 0x13
  | .add rd rs1 rs2 => encR 0b0000000 rs2 rs1 0b000 rd 0x33
  | .sub rd rs1 rs2 => encR 0b0100000 rs2 rs1 0b000 rd 0x33
  | .sll rd rs1 rs2 => encR 0b0000000 rs2 rs1 0b001 rd 0x33
  | .slt rd rs1 rs2 => encR 0b0000000 rs2 rs1 0b010 rd 0x33
  | .sltu rd rs1 rs2 => encR 0b0000000 rs2 rs1 0b011 rd 0x33
  | .xor rd rs1 rs2 => encR 0b0000000 rs2 rs1 0b100 rd 0x33
  | .srl rd rs1 rs2 => encR 0b0000000 rs2 rs1 0b101 rd 0x33
  | .sra rd rs1 rs2 => encR 0b0100000 rs2 rs1 0b101 rd 0x33
  | .or rd rs1 rs2 => encR 0b0000000 rs2 rs1 0b110 rd 0x33
  | .and rd rs1 rs2 => encR 0b0000000 rs2 rs1 0b111 rd 0x33
  | .jal rd offset => encJ offset rd 0x6F
  | .jalr rd rs1 imm => encI imm rs1 0b000 rd 0x67
  | .beq rs1 rs2 offset => encB offset rs2 rs1 0b000 0x63
  | .bne rs1 rs2 offset => encB offset rs2 rs1 0b001 0x63
  | .blt rs1 rs2 offset => encB offset rs2 rs1 0b100 0x63
  | .bge rs1 rs2 offset => encB offset rs2 rs1 0b101 0x63
  | .bltu rs1 rs2 offset => encB offset rs2 rs1 0b110 0x63
  | .bgeu rs1 rs2 offset => encB offset rs2 rs1 0b111 0x63
  | .lb rd rs1 imm => encI imm rs1 0b000 rd 0x03
  | .lh rd rs1 imm => encI imm rs1 0b001 rd 0x03
  | .lw rd rs1 imm => encI imm rs1 0b010 rd 0x03
  | .lbu rd rs1 imm => encI imm rs1 0b100 rd 0x03
  | .lhu rd rs1 imm => encI imm rs1 0b101 rd 0x03
  | .sb rs2 rs1 imm => encS imm rs2 rs1 0b000 0x23
  | .sh rs2 rs1 imm => encS imm rs2 rs1 0b001 0x23
  | .sw rs2 rs1 imm => encS imm rs2 rs1 0b010 0x23
  | .ecall => encI 0 0 0b000 0 0x73
  | .csrrw rd csr rs1 => encI csr rs1 0b001 rd 0x73
  | .csrrs rd csr rs1 => encI csr rs1 0b010 rd 0x73
  | .csrrc rd csr rs1 => encI csr rs1 0b011 rd 0x73
  | .csrrwi rd csr uimm => encI csr uimm 0b101 rd 0x73
  | .csrrsi rd csr uimm => encI csr uimm 0b110 rd 0x73
  | .csrrci rd csr uimm => encI csr uimm 0b111 rd 0x73

/-- The four bytes of an instruction, the lowest address first. -/
def encodeBytes (i : Instr) : List Byte := bytesOfWord 4 (encode i)

/-! ### The opcode table -/

/-- A row of spec/opcode_table.json: a word `w` is that instruction exactly when
`w & mask = match` (30_encoding.md section 3). -/
structure OpcodeRow where
  mnemonic : String
  pattern : Word
  mask : Word
  deriving DecidableEq, Repr

/-- The table's row for each instruction, copied from spec/opcode_table.json. -/
def Instr.row : Instr → OpcodeRow
  | .lui _ _ => ⟨"LUI", 0x00000037, 0x0000007F⟩
  | .auipc _ _ => ⟨"AUIPC", 0x00000017, 0x0000007F⟩
  | .addi _ _ _ => ⟨"ADDI", 0x00000013, 0x0000707F⟩
  | .slti _ _ _ => ⟨"SLTI", 0x00002013, 0x0000707F⟩
  | .sltiu _ _ _ => ⟨"SLTIU", 0x00003013, 0x0000707F⟩
  | .xori _ _ _ => ⟨"XORI", 0x00004013, 0x0000707F⟩
  | .ori _ _ _ => ⟨"ORI", 0x00006013, 0x0000707F⟩
  | .andi _ _ _ => ⟨"ANDI", 0x00007013, 0x0000707F⟩
  | .slli _ _ _ => ⟨"SLLI", 0x00001013, 0xFE00707F⟩
  | .srli _ _ _ => ⟨"SRLI", 0x00005013, 0xFE00707F⟩
  | .srai _ _ _ => ⟨"SRAI", 0x40005013, 0xFE00707F⟩
  | .add _ _ _ => ⟨"ADD", 0x00000033, 0xFE00707F⟩
  | .sub _ _ _ => ⟨"SUB", 0x40000033, 0xFE00707F⟩
  | .sll _ _ _ => ⟨"SLL", 0x00001033, 0xFE00707F⟩
  | .slt _ _ _ => ⟨"SLT", 0x00002033, 0xFE00707F⟩
  | .sltu _ _ _ => ⟨"SLTU", 0x00003033, 0xFE00707F⟩
  | .xor _ _ _ => ⟨"XOR", 0x00004033, 0xFE00707F⟩
  | .srl _ _ _ => ⟨"SRL", 0x00005033, 0xFE00707F⟩
  | .sra _ _ _ => ⟨"SRA", 0x40005033, 0xFE00707F⟩
  | .or _ _ _ => ⟨"OR", 0x00006033, 0xFE00707F⟩
  | .and _ _ _ => ⟨"AND", 0x00007033, 0xFE00707F⟩
  | .jal _ _ => ⟨"JAL", 0x0000006F, 0x0000007F⟩
  | .jalr _ _ _ => ⟨"JALR", 0x00000067, 0x0000707F⟩
  | .beq _ _ _ => ⟨"BEQ", 0x00000063, 0x0000707F⟩
  | .bne _ _ _ => ⟨"BNE", 0x00001063, 0x0000707F⟩
  | .blt _ _ _ => ⟨"BLT", 0x00004063, 0x0000707F⟩
  | .bge _ _ _ => ⟨"BGE", 0x00005063, 0x0000707F⟩
  | .bltu _ _ _ => ⟨"BLTU", 0x00006063, 0x0000707F⟩
  | .bgeu _ _ _ => ⟨"BGEU", 0x00007063, 0x0000707F⟩
  | .lb _ _ _ => ⟨"LB", 0x00000003, 0x0000707F⟩
  | .lh _ _ _ => ⟨"LH", 0x00001003, 0x0000707F⟩
  | .lw _ _ _ => ⟨"LW", 0x00002003, 0x0000707F⟩
  | .lbu _ _ _ => ⟨"LBU", 0x00004003, 0x0000707F⟩
  | .lhu _ _ _ => ⟨"LHU", 0x00005003, 0x0000707F⟩
  | .sb _ _ _ => ⟨"SB", 0x00000023, 0x0000707F⟩
  | .sh _ _ _ => ⟨"SH", 0x00001023, 0x0000707F⟩
  | .sw _ _ _ => ⟨"SW", 0x00002023, 0x0000707F⟩
  | .ecall => ⟨"ECALL", 0x00000073, 0xFFFFFFFF⟩
  | .csrrw _ _ _ => ⟨"CSRRW", 0x00001073, 0x0000707F⟩
  | .csrrs _ _ _ => ⟨"CSRRS", 0x00002073, 0x0000707F⟩
  | .csrrc _ _ _ => ⟨"CSRRC", 0x00003073, 0x0000707F⟩
  | .csrrwi _ _ _ => ⟨"CSRRWI", 0x00005073, 0x0000707F⟩
  | .csrrsi _ _ _ => ⟨"CSRRSI", 0x00006073, 0x0000707F⟩
  | .csrrci _ _ _ => ⟨"CSRRCI", 0x00007073, 0x0000707F⟩

/-! ### Assembler spelling (R24, R145, R146) -/

/-- The real instructions a pseudo-instruction stands for (R146). -/
def Pseudo.expand : Pseudo → List Instr
  | .nop => [.addi 0 0 0]
  | .mv rd rs => [.addi rd rs 0]
  | .li rd imm =>
    if (imm.setWidth 12).signExtend 32 = imm then [.addi rd 0 (imm.setWidth 12)]
    else [.lui rd ((imm + 0x800).extractLsb' 12 20), .addi rd rd (imm.setWidth 12)]
  | .j offset => [.jal 0 offset]
  | .jr rs => [.jalr 0 rs 0]
  | .ret => [.jalr 0 1 0]
  | .call offset => [.jal 1 offset]
  | .beqz rs offset => [.beq rs 0 offset]
  | .bnez rs offset => [.bne rs 0 offset]
  | .not rd rs => [.xori rd rs (-1)]
  | .neg rd rs => [.sub rd 0 rs]
  | .seqz rd rs => [.sltiu rd rs 1]
  | .snez rd rs => [.sltu rd 0 rs]
  | .csrr rd csr => [.csrrs rd csr 0]
  | .csrw csr rs => [.csrrw 0 csr rs]

/-- The ABI name of a register (R24). No rule of the hardware depends on it. -/
def abiName (r : RegIdx) : String :=
  ["zero", "ra", "sp", "gp", "tp", "t0", "t1", "t2", "s0", "s1", "a0", "a1", "a2", "a3", "a4",
   "a5", "a6", "a7", "s2", "s3", "s4", "s5", "s6", "s7", "s8", "s9", "s10", "s11", "t3", "t4",
   "t5", "t6"].getD r.toNat ""

/-- A register in assembler text (R145). -/
def asmReg (r : RegIdx) : String := "x" ++ toString r.toNat

/-- The operands of an instruction in assembler text, in the order of R145. -/
def Instr.asmOperands : Instr → List String
  | .lui rd imm | .auipc rd imm => [asmReg rd, toString imm.toNat]
  | .addi rd rs1 imm | .slti rd rs1 imm | .sltiu rd rs1 imm | .xori rd rs1 imm | .ori rd rs1 imm
  | .andi rd rs1 imm => [asmReg rd, asmReg rs1, toString imm.toInt]
  | .slli rd rs1 shamt | .srli rd rs1 shamt | .srai rd rs1 shamt =>
    [asmReg rd, asmReg rs1, toString shamt.toNat]
  | .add rd rs1 rs2 | .sub rd rs1 rs2 | .sll rd rs1 rs2 | .slt rd rs1 rs2 | .sltu rd rs1 rs2
  | .xor rd rs1 rs2 | .srl rd rs1 rs2 | .sra rd rs1 rs2 | .or rd rs1 rs2 | .and rd rs1 rs2 =>
    [asmReg rd, asmReg rs1, asmReg rs2]
  | .jal rd offset => [asmReg rd, toString offset.toInt]
  | .jalr rd rs1 imm | .lb rd rs1 imm | .lh rd rs1 imm | .lw rd rs1 imm | .lbu rd rs1 imm
  | .lhu rd rs1 imm | .sb rd rs1 imm | .sh rd rs1 imm | .sw rd rs1 imm =>
    [asmReg rd, toString imm.toInt ++ "(" ++ asmReg rs1 ++ ")"]
  | .beq rs1 rs2 offset | .bne rs1 rs2 offset | .blt rs1 rs2 offset | .bge rs1 rs2 offset
  | .bltu rs1 rs2 offset | .bgeu rs1 rs2 offset =>
    [asmReg rs1, asmReg rs2, toString offset.toInt]
  | .ecall => []
  | .csrrw rd csr rs1 | .csrrs rd csr rs1 | .csrrc rd csr rs1 =>
    [asmReg rd, toString csr.toNat, asmReg rs1]
  | .csrrwi rd csr uimm | .csrrsi rd csr uimm | .csrrci rd csr uimm =>
    [asmReg rd, toString csr.toNat, toString uimm.toNat]

/-- An instruction in the assembler syntax of R145. -/
def Instr.asm (i : Instr) : String :=
  i.row.mnemonic ++ " " ++ String.intercalate ", " i.asmOperands

/-! ### The host's question -/

/-- The instruction the decoder reads from the word `w` of the opcode table: the bits above `nbits`
are zero, and the word's bytes lie in memory little-endian, the lowest first. -/
def decodeTableWord (nbits w : Nat) : Option Instr :=
  match decodeBytes (bytesOfWord 4 (BitVec.ofNat 32 (w % 2 ^ nbits))) with
  | .ok (i, _) => some i
  | .error _ => none

end Sys2Proof
end

