-- ==== Sys2Proof/Config.lean ====
section
/-! DEFINITION. The parameters the spec leaves open (00_scope.md R8) and the free value of the
model. A `Config` is a field of `State` that no step changes, so a statement about every state is
a statement about every value of every parameter (log 2). -/

namespace Sys2Proof

/-- The kinds of device the source lists (20_memory.md R85). The first two are memory-backed. The
spec gives no rule for what the other two do. -/
inductive DeviceKind
  | ram
  | rom
  | csrMapped
  | video
  deriving DecidableEq, Repr, Inhabited

/-- Whether a device is backed by the MemoryUnit (R85). -/
def DeviceKind.memoryBacked : DeviceKind → Bool
  | .ram => true
  | .rom => true
  | .csrMapped => false
  | .video => false

/-- One memory-mapped region of the bus (10_state.md R51): it covers the addresses from `base` up
to but not including `base + size`, in the naturals. -/
structure Device where
  base : Nat
  size : Nat
  readFlag : Bool
  writeFlag : Bool
  execFlag : Bool
  kind : DeviceKind
  deriving DecidableEq, Repr, Inhabited

/-- The parameters of R8. `NCORES` is `1 + entryPcMore.length` and `PREFETCH_DEPTH` is
`1 + prefetchMore`, so both are at least 1; `PAGE_SIZE` is `2 ^ pageShift` (log 14). `TrapHandler`
is `State.handler`. -/
structure Config where
  /-- `ENTRY_PC[0]` -/
  entryPc : Word
  /-- `ENTRY_PC[1]`, `ENTRY_PC[2]`, ... -/
  entryPcMore : List Word
  /-- `PREFETCH_DEPTH - 1` -/
  prefetchMore : Nat
  /-- `TRAP_VECTOR` -/
  trapVector : Word
  /-- `DEVICE_MAP`, in routing order -/
  devices : List Device
  /-- `MEM_BASE` -/
  memBase : Nat
  /-- `MEM_SIZE` -/
  memSize : Nat
  /-- `MEM_LIMIT` -/
  memLimit : Nat
  /-- `ALLOC_START` -/
  allocStart : Nat
  /-- the base-2 logarithm of `PAGE_SIZE` -/
  pageShift : Nat
  /-- `CSR_SET`; `mepc` and `mcause` are implemented whether listed or not (log 13) -/
  csrSet : List CsrAddr
  /-- `FETCH_REQUIRES_EXEC` -/
  fetchRequiresExec : Bool
  /-- `CYCLE_WIDTH` -/
  cycleWidth : Nat
  deriving DecidableEq, Repr, Inhabited

/-- `NCORES` (R8). -/
def Config.nCores (cfg : Config) : Nat := 1 + cfg.entryPcMore.length

/-- `PREFETCH_DEPTH` (R8). -/
def Config.prefetchDepth (cfg : Config) : Nat := cfg.prefetchMore + 1

/-- `PAGE_SIZE` (R8). -/
def Config.pageSize (cfg : Config) : Nat := 2 ^ cfg.pageShift

/-- The parameters of the machine `State.reset` boots. Where R8 gives a default it is that one:
`NCORES` 1, one RAM device over the arena's whole window, `MEM_LIMIT` 2^32, `PAGE_SIZE` 4096,
`CSR_SET` with five addresses, `FETCH_REQUIRES_EXEC` true, `CYCLE_WIDTH` 64. DESIGN CHOICE for the
ones R8 leaves open (log 1): the platform of 95_test_vectors.md section 0. -/
def Config.platform : Config where
  entryPc := 0x1000
  entryPcMore := []
  prefetchMore := 0
  trapVector := 0
  devices := [{ base := 0x1000, size := 2 ^ 32 - 0x1000, readFlag := true, writeFlag := true,
                execFlag := true, kind := .ram }]
  memBase := 0x1000
  memSize := 0x3000
  memLimit := 2 ^ 32
  allocStart := 0x3000
  pageShift := 12
  csrSet := [0x300, 0x304, 0x341, 0x342, 0x344]
  fetchRequiresExec := true
  cycleWidth := 64

/-- The free value of the model: the content of the `k`-th byte that `add_memory` has added
(20_memory.md R63, "new content undefined"; 93_implementation_defined.md U1). It has no body, so
nothing can be proved of its value (log 8). -/
opaque Config.freeByte : Nat → Byte

end Sys2Proof
end

