-- ==== Sys2Proof/Machine/State.lean ====
section
/-! DEFINITION. The state of the machine as plain data (10_state.md): the cores, the MemoryUnit, the
host's trap handler, the parameters, and why a step can stop. -/

namespace Sys2Proof.Machine

/-! ### The MemoryUnit (10_state.md R52 to R54) -/

/-- A byte's permission: a set of four independent flags (R53). -/
structure Perm where
  read : Bool
  write : Bool
  exec : Bool
  raw : Bool
  deriving DecidableEq, Repr, Inhabited

/-- The permission of every byte after `init` (20_memory.md R62). -/
def Perm.afterInit : Perm := ⟨false, true, false, true⟩

/-- The empty permission set (20_memory.md R63). -/
def Perm.none : Perm := ⟨false, false, false, false⟩

/-- What an unlisted address of the arena holds: `init` zero-fills (20_memory.md R62). -/
def unlistedByte : Byte := 0x00

/-- The MemoryUnit (R52). `data`, `perm` and `dirty` are maps by address (by page), in the one
canonical form `Memory.wf`: keys strictly rising, and no entry equal to what an unlisted key reads
as (`unlistedByte`, `Perm.afterInit`, not dirty). -/
structure MemoryUnit where
  base : Nat
  size : Nat
  data : List Host.Cell
  perm : List (Nat × Perm)
  dirty : List Nat
  currVaddr : Nat
  /-- The model's own: how many free byte values `add_memory` has drawn (log 8). -/
  fresh : Nat
  deriving DecidableEq, Repr, Inhabited

/-- `init(base, size)` (20_memory.md R62). -/
def MemoryUnit.init (cfg : Config) : MemoryUnit where
  base := cfg.memBase
  size := cfg.memSize
  data := []
  perm := []
  dirty := []
  currVaddr := cfg.allocStart
  fresh := 0

/-! ### One core (10_state.md R20) -/

/-- The core's `state` (R27). -/
inductive Stage
  | fetch
  | decode
  | execute
  | memory
  | writeback
  | trap
  deriving DecidableEq, Repr, Inhabited

/-- The core's `trap_state` (R28). -/
inductive TrapState
  | none
  | enter
  | handle
  | exit
  deriving DecidableEq, Repr, Inhabited

/-- The eight trap causes (60_exceptions.md R300). -/
inductive Cause
  | instructionAddrMisalign
  | instructionAccessFault
  | illegalInstruction
  | loadAddrMisaligned
  | loadAccessFault
  | storeAddrMisaligned
  | storeAccessFault
  | envCallUmode
  deriving DecidableEq, Repr, Inhabited

/-- The width of a bus access (00_scope.md R7). -/
inductive Width
  | byte
  | halfword
  | word
  deriving DecidableEq, Repr, Inhabited

/-- The decoded-instruction record `d` (R30), one field for each row of its table. -/
structure Decoded where
  ir : Word
  opcode : BitVec 7
  opType : OpType
  rd : RegIdx
  rs1 : RegIdx
  rs2 : RegIdx
  rs1v : Word
  rs2v : Word
  funct3 : BitVec 3
  funct7 : BitVec 7
  immI : Word
  immS : Word
  immB : Word
  immU : Word
  immJ : Word
  csr : CsrAddr
  shamt : BitVec 5
  aluOut : Word
  memOffset : Word
  memWidth : Width
  memSigned : Bool
  jumpTarget : Word
  isJump : Bool
  writeRd : Bool
  readMem : Bool
  writeMem : Bool
  csrWrite : Bool
  csrNew : Word
  deriving DecidableEq, Repr

/-- `d` at reset: every field 0 or false (R56). `opType` and `memWidth` have no zero: they are the
first values R30 lists for them (DESIGN CHOICE, log 10), and both are written before they are
read (R31). -/
def Decoded.reset : Decoded where
  ir := 0
  opcode := 0
  opType := .R
  rd := 0
  rs1 := 0
  rs2 := 0
  rs1v := 0
  rs2v := 0
  funct3 := 0
  funct7 := 0
  immI := 0
  immS := 0
  immB := 0
  immU := 0
  immJ := 0
  csr := 0
  shamt := 0
  aluOut := 0
  memOffset := 0
  memWidth := .byte
  memSigned := false
  jumpTarget := 0
  isJump := false
  writeRd := false
  readMem := false
  writeMem := false
  csrWrite := false
  csrNew := 0

/-- The CSR file (R40 to R45): the five CSRs the source names, and the further addresses a
`CSR_SET` may list, by address; an unlisted one reads 0. -/
structure CsrFile where
  mstatus : Word
  mie : Word
  mepc : Word
  mcause : Word
  mip : Word
  extra : List (Nat × Word)
  deriving DecidableEq, Repr, Inhabited

/-- Every CSR is 0 at reset (R56). -/
def CsrFile.reset : CsrFile := ⟨0, 0, 0, 0, 0, []⟩

/-- The trap bookkeeping beside `trap_state` (R35). -/
structure TrapRecord where
  snapshot : Vector Word 32
  savedPc : Word
  cause : Cause
  deriving DecidableEq, Repr

/-- The trap bookkeeping at reset (R56). DEDUCED: the cause 0 is the one whose code is 0 (log 11). -/
def TrapRecord.reset : TrapRecord := ⟨Vector.replicate 32 0, 0, .instructionAddrMisalign⟩

/-- The status of a bus transaction (20_memory.md R82). It is a result, never stored (R83). -/
inductive BusStatus
  | ok
  | addressNotFound
  | readMisaligned
  | writeMisaligned
  | accessDenied
  | deviceFailure
  deriving DecidableEq, Repr, Inhabited

/-- What one operation of the host returned to it. -/
inductive HostResult
  /-- a bus read -/
  | values (vs : List Word)
  /-- a bus write, with status OK -/
  | written
  /-- a bus transaction that failed, with its status -/
  | failed (status : BusStatus)
  /-- `allocate`: the block's address, or nothing when out of space (93_implementation_defined.md U2) -/
  | block (addr : Option Nat)
  /-- `add_memory` or `setperm`: whether it was done -/
  | done (ok : Bool)
  deriving DecidableEq, Repr

/-- One core (R20). -/
structure Core where
  id : Nat
  pc : Word
  /-- The storage behind `x0` to `x31`; `Core.x` and `Core.setX` read and write it. -/
  regs : Vector Word 32
  stage : Stage
  trapState : TrapState
  prefetch : List Word
  d : Decoded
  /-- `CYCLE_WIDTH` bits, counted modulo `2 ^ CYCLE_WIDTH` (R32, log 12). -/
  cycle : Nat
  halted : Bool
  trap : TrapRecord
  csr : CsrFile
  /-- The model's own: what the operations of the handler call in progress have returned, oldest
  first (log 7). -/
  hostResults : List HostResult
  deriving DecidableEq, Repr

/-- A core at reset (R56, 70_reset_and_hazards.md R350). -/
def Core.reset (id : Nat) (entry : Word) : Core where
  id := id
  pc := entry
  regs := Vector.replicate 32 0
  stage := .fetch
  trapState := .none
  prefetch := []
  d := .reset
  cycle := 0
  halted := false
  trap := .reset
  csr := .reset
  hostResults := []

/-! ### The host's trap handler (60_exceptions.md R320 to R325) -/

/-- A memory operation of the host: a bus transaction, or an operation of the MemoryUnit that only
the host calls (R322; 20_memory.md R63 to R65, R90 to R93). -/
inductive HostOp
  | readSingle (addr : Word) (width : Width)
  | readMultiple (addr : Word) (count : Nat) (width : Width)
  | writeSingle (addr : Word) (width : Width) (value : Word)
  | writeMultiple (addr : Word) (width : Width) (values : List Word)
  | allocate (size : Nat) (perm : Perm)
  | addMemory (addr size : Nat) (perm : Perm)
  | setPerm (addr len : Nat) (perm : Perm)
  deriving DecidableEq, Repr

/-- What the handler does next: one memory operation, or its answer. The type holds the handler to
its contract: there is no way to change anything else (R322). -/
inductive HostAct
  | op (o : HostOp)
  | answer (continue_ : Bool) (a0 : Option Word)
  deriving DecidableEq, Repr, Inhabited

/-- What the handler may read of the core it serves (R321). -/
structure CoreView where
  id : Nat
  regs : Vector Word 32
  cause : Cause
  savedPc : Word
  csr : CsrFile
  pc : Word
  cycle : Nat
  deriving DecidableEq, Repr

/-- The host's handler, as plain data (log 6). -/
inductive Handler
  /-- `DefaultHandler` (R325): halts on every cause -/
  | halting
  /-- `ExitOnlyHandler` (R325): continues after an ECALL unless `x17` is one of `exits`, and halts on
  every other cause -/
  | exitOnly (exits : List Word)
  /-- any host at all: the actions it will take, in order; when none is left it halts -/
  | script (acts : List HostAct)
  /-- the uninterpreted function of R320, `trapHandler` -/
  | external
  deriving DecidableEq, Repr, Inhabited

/-- R320's parameter `TrapHandler`, left uninterpreted: it sees the core, the MemoryUnit and what its
earlier operations in this call returned. It has no body, so nothing can be proved of it (log 6). -/
opaque trapHandler : CoreView → MemoryUnit → List HostResult → HostAct

/-! ### The machine (40_pipeline_stages.md R175) -/

/-- The machine: every core, in order of number, around the one whose turn it is; the MemoryUnit;
the host; the parameters. -/
structure State where
  cfg : Config
  /-- the cores numbered below the current one -/
  lower : List Core
  /-- the core whose turn it is -/
  core : Core
  /-- the cores numbered above the current one -/
  upper : List Core
  mu : MemoryUnit
  handler : Handler
  /-- The model's own: the numbers of the cores that take the next stage steps, which R175 leaves
  free (log 4). When it is empty the current core runs whole instructions (log 3). -/
  schedule : List Nat
  deriving DecidableEq, Repr

/-- Why the machine stops. -/
inductive Fault
  /-- Raised by `step` when every core is halted: "the run is over when every core is halted"
  (40_pipeline_stages.md R175, R174; 70_reset_and_hazards.md R364). Safe: no step exists there
  (log 16). -/
  | allHalted
  deriving DecidableEq, Repr

/-- Why the model gives no meaning. -/
inductive Refusal
  /-- Raised by an arm of `exec` whose instruction has no meaning yet. No arm of this model raises
  it. Safe. -/
  | notModelled (mnemonic : String)
  /-- Raised by a bus transaction that is routed to a device that is not memory-backed: the spec
  gives it no rule, "a model that meets one in DEVICE_MAP has no rule for it and must refuse"
  (20_memory.md R85). Safe (log 15). -/
  | deviceWithoutRule (kind : DeviceKind)
  deriving DecidableEq, Repr

/-- Cores `id`, `id + 1`, ... at reset, with their entry points (R56). -/
def coresFrom : Nat → List Word → List Core
  | _, [] => []
  | id, entry :: entries => Core.reset id entry :: coresFrom (id + 1) entries

/-- The machine right after reset, under any parameters, before the loader (70_reset_and_hazards.md
R350 to R353): every core zeroed at its entry point, the MemoryUnit as `init` leaves it, the
default handler, no turn scheduled. -/
def State.boot (cfg : Config) : State where
  cfg := cfg
  lower := []
  core := Core.reset 0 cfg.entryPc
  upper := coresFrom 1 cfg.entryPcMore
  mu := MemoryUnit.init cfg
  handler := .halting
  schedule := []

/-- The machine right after reset, under the parameters of `Config.platform` (log 1). -/
def State.reset : State := State.boot Config.platform

end Sys2Proof.Machine
end

