-- ==== Sys2Proof/Machine/Memory.lean ====
section
/-! DEFINITION. The MemoryUnit's operations (20_memory.md R60 to R70), over maps in one canonical
form. All ranges are computed in the naturals, so nothing wraps at 2^32 (R70). -/

namespace Sys2Proof.Machine

/-! ### Maps from numbers, in canonical form -/

/-- What the map holds at `a`; `dflt` where nothing is listed. -/
def Cells.get {α : Type} (dflt : α) : List (Nat × α) → Nat → α
  | [], _ => dflt
  | (k, v) :: m, a => if k = a then v else Cells.get dflt m a

/-- The map with `v` at `a`, in canonical form: writing the default removes the entry. -/
def Cells.set {α : Type} [DecidableEq α] (dflt : α) (a : Nat) (v : α) :
    List (Nat × α) → List (Nat × α)
  | [] => if v = dflt then [] else [(a, v)]
  | (k, w) :: m =>
    if a < k then
      if v = dflt then (k, w) :: m else (a, v) :: (k, w) :: m
    else if a = k then
      if v = dflt then m else (a, v) :: m
    else (k, w) :: Cells.set dflt a v m

/-- The canonical form: keys strictly rising, and no entry equal to the default. -/
abbrev Cells.wf {α : Type} [DecidableEq α] (dflt : α) (m : List (Nat × α)) : Prop :=
  m.Pairwise (fun e f => e.1 < f.1) ∧ ∀ e ∈ m, e.2 ≠ dflt

/-- The set of pages with `p` added, kept strictly rising. -/
def Pages.insert (p : Nat) : List Nat → List Nat
  | [] => [p]
  | q :: ps => if p < q then p :: q :: ps else if p = q then q :: ps else q :: Pages.insert p ps

/-- The MemoryUnit's maps are in canonical form. -/
abbrev Memory.wf (mu : MemoryUnit) : Prop :=
  Cells.wf unlistedByte mu.data ∧ Cells.wf Perm.afterInit mu.perm ∧ mu.dirty.Pairwise (· < ·)

/-! ### Bytes, permissions, pages -/

/-- `mu.data[a]` -/
def MemoryUnit.byteAt (mu : MemoryUnit) (a : Nat) : Byte := Cells.get unlistedByte mu.data a

/-- `mu.perm[a]` -/
def MemoryUnit.permAt (mu : MemoryUnit) (a : Nat) : Perm := Cells.get Perm.afterInit mu.perm a

/-- `mu.dirty[p]` -/
def MemoryUnit.isDirty (mu : MemoryUnit) (p : Nat) : Bool := mu.dirty.contains p

/-- Store one byte, with no check. -/
def MemoryUnit.setByte (mu : MemoryUnit) (a : Nat) (b : Byte) : MemoryUnit :=
  { mu with data := Cells.set unlistedByte a b mu.data }

/-- Set one byte's permission. -/
def MemoryUnit.setPermAt (mu : MemoryUnit) (a : Nat) (p : Perm) : MemoryUnit :=
  { mu with perm := Cells.set Perm.afterInit a p mu.perm }

/-- The page of address `a` (10_state.md R54). -/
def MemoryUnit.pageOf (cfg : Config) (mu : MemoryUnit) (a : Nat) : Nat :=
  (a - mu.base) / cfg.pageSize

/-- Mark the page of `a` dirty. -/
def MemoryUnit.markDirty (cfg : Config) (mu : MemoryUnit) (a : Nat) : MemoryUnit :=
  { mu with dirty := Pages.insert (mu.pageOf cfg a) mu.dirty }

/-- `mu.base + mu.size`, the first address beyond the arena. -/
def MemoryUnit.limit (mu : MemoryUnit) : Nat := mu.base + mu.size

/-- The range `[a, a + len)` lies inside the arena (R66, R67) and does not pass 2^32, where "a range
[...] is simply out of bounds" (R70; D20), whatever the arena's end. -/
def MemoryUnit.inBounds (mu : MemoryUnit) (a len : Nat) : Bool :=
  decide (mu.base ≤ a) && decide (a + len ≤ mu.limit) && decide (a + len ≤ 2 ^ 32)

/-! ### Permission check (R61) -/

/-- The three accesses a permission can be asked for. -/
inductive Access
  | read
  | write
  | exec
  deriving DecidableEq, Repr

/-- `PermOK` (R61): WRITE is also satisfied by RAW; READ and EXEC by their own bit only. -/
def permOk (p : Perm) : Access → Bool
  | .read => p.read
  | .write => p.write || p.raw
  | .exec => p.exec

/-- Every byte of the range has every permission asked. -/
def MemoryUnit.allow (mu : MemoryUnit) (need : List Access) : Nat → Nat → Bool
  | _, 0 => true
  | a, len + 1 => need.all (permOk (mu.permAt a)) && mu.allow need (a + 1) len

/-- RAW promotion (R66, R68): a RAW byte that is written becomes READ and WRITE, and keeps EXEC. -/
def Perm.promote (p : Perm) : Perm := if p.raw then ⟨true, true, p.exec, false⟩ else p

/-! ### read and write (R66, R67) -/

/-- The two failures of the MemoryUnit (R69), or its answer. -/
inductive MuResult (α : Type)
  | ok (a : α)
  | pageFault
  | denied
  deriving DecidableEq, Repr

/-- The bytes of a range, lowest address first. -/
def MemoryUnit.bytesAt (mu : MemoryUnit) : Nat → Nat → List Byte
  | _, 0 => []
  | a, len + 1 => mu.byteAt a :: mu.bytesAt (a + 1) len

/-- `read` (R67), asking the permissions `need` of every byte: `[read]` for data, R94's list for a
fetch. Bounds are tested first. -/
def MemoryUnit.read (mu : MemoryUnit) (need : List Access) (a len : Nat) : MuResult (List Byte) :=
  if !mu.inBounds a len then .pageFault
  else if !mu.allow need a len then .denied
  else .ok (mu.bytesAt a len)

/-- Write one byte: its content, its RAW promotion, its page's dirty bit. -/
def MemoryUnit.storeByte (cfg : Config) (mu : MemoryUnit) (a : Nat) (b : Byte) : MemoryUnit :=
  ((mu.setByte a b).setPermAt a (mu.permAt a).promote).markDirty cfg a

/-- Write bytes from `a` upward, with no check. -/
def MemoryUnit.storeBytes (cfg : Config) (mu : MemoryUnit) : Nat → List Byte → MemoryUnit
  | _, [] => mu
  | a, b :: bs => (mu.storeByte cfg a b).storeBytes cfg (a + 1) bs

/-- `write` (R66): both checks on the whole range come before any byte is written. -/
def MemoryUnit.write (cfg : Config) (mu : MemoryUnit) (a : Nat) (bs : List Byte) :
    MuResult MemoryUnit :=
  if !mu.inBounds a bs.length then .pageFault
  else if !mu.allow [.write] a bs.length then .denied
  else .ok (mu.storeBytes cfg a bs)

/-! ### The operations only the host calls (R63 to R65) -/

/-- Give `len` bytes from `a` the permission `p`. -/
def MemoryUnit.fillPerm (mu : MemoryUnit) (p : Perm) : Nat → Nat → MemoryUnit
  | _, 0 => mu
  | a, len + 1 => (mu.setPermAt a p).fillPerm p (a + 1) len

/-- Add `n` bytes at the end of the arena: their content is any value (R63, log 8), their permission
is empty. -/
def MemoryUnit.grow (mu : MemoryUnit) : Nat → MemoryUnit
  | 0 => mu
  | n + 1 =>
    let a := mu.limit
    let mu' := (mu.setByte a (Config.freeByte mu.fresh)).setPermAt a Perm.none
    MemoryUnit.grow { mu' with size := mu.size + 1, fresh := mu.fresh + 1 } n

/-- `add_memory(addr, size, perm)` (R63): whether it was done, and the MemoryUnit after it. A range past
2^32 is out of bounds (R70), also under a larger `MEM_LIMIT`; that it then fails is DEDUCED (log 25). -/
def MemoryUnit.addMemory (cfg : Config) (mu : MemoryUnit) (addr size : Nat) (perm : Perm) :
    Bool × MemoryUnit :=
  if addr < mu.base then (false, mu)
  else if cfg.memLimit < addr + size ∨ 2 ^ 32 < addr + size then (false, mu)
  else (true, (mu.grow (addr + size - mu.limit)).fillPerm perm addr size)

/-- `align_up(n, 16)` (R64). -/
def alignUp16 (n : Nat) : Nat := (n + 15) / 16 * 16

/-- `allocate(size, perm)` (R64): the block's address, or nothing when out of space, which a block past
2^32 is too (R70). That the block's padding counts there as it does in R64 is DEDUCED (log 25). DESIGN
CHOICE (log 28): `MEM_LIMIT` is not looked at, as R64 and D29 have it, so in a start arena that ends
above `MEM_LIMIT` a block may lie beyond it, where R8 says that `allocate` fails. -/
def MemoryUnit.allocate (mu : MemoryUnit) (size : Nat) (perm : Perm) : Option Nat × MemoryUnit :=
  if mu.limit < mu.currVaddr + alignUp16 size ∨ 2 ^ 32 < mu.currVaddr + alignUp16 size then
    (none, mu)
  else
    (some mu.currVaddr,
      { mu.fillPerm perm mu.currVaddr size with currVaddr := mu.currVaddr + alignUp16 size })

/-- `setperm(addr, len, perm)` (R65): whether it was done; a range outside the arena changes
nothing. -/
def MemoryUnit.setPerm (mu : MemoryUnit) (addr len : Nat) (perm : Perm) : Bool × MemoryUnit :=
  if mu.inBounds addr len then (true, mu.fillPerm perm addr len) else (false, mu)

/-! ### The loader's contract (70_reset_and_hazards.md R356) -/

/-- A loadable segment (R356): its address, the file's bytes, its memory size, its flags. -/
structure Segment where
  addr : Nat
  content : List Byte
  memSize : Nat
  perm : Perm
  deriving DecidableEq, Repr

/-- What R356 needs of the loader for one segment: `add_memory` with WRITE, `write`, `setperm`. A
failure is fatal at start-up, and no core ever runs (R359). DESIGN CHOICE (log 5): the bytes from
the file size to the memory size keep what they held, with the segment's permission. -/
def MemoryUnit.loadSegment (cfg : Config) (mu : MemoryUnit) (seg : Segment) : Option MemoryUnit :=
  match mu.addMemory cfg seg.addr seg.memSize ⟨false, true, false, false⟩ with
  | (false, _) => none
  | (true, mu1) =>
    match mu1.write cfg seg.addr seg.content with
    | .ok mu2 =>
      match mu2.setPerm seg.addr seg.memSize seg.perm with
      | (true, mu3) => some mu3
      | (false, _) => none
    | .pageFault => none
    | .denied => none

end Sys2Proof.Machine
end

