-- ==== Sys2Proof/Machine/Bus.lean ====
section
/-! DEFINITION. Bus transactions (20_memory.md R80 to R94, R100, R101). Each is one function of the
MemoryUnit, so its lookup, its checks and its transfer are one atomic step (R80); its status is part
of its answer (R83). -/

namespace Sys2Proof.Machine

/-- The number of bytes of an access (00_scope.md R7). -/
def Width.bytes : Width → Nat
  | .byte => 1
  | .halfword => 2
  | .word => 4

/-- The address is not a multiple of the width (R101). -/
def misaligned (addr : Word) (w : Width) : Bool := addr.toNat % w.bytes != 0

/-- The device covers the address (10_state.md R51), in the naturals. -/
def covers (dev : Device) (a : Nat) : Bool :=
  decide (dev.base ≤ a) && decide (a < dev.base + dev.size)

/-- `find_device` (R81): the first device of the list that covers the start address. -/
def findDevice (cfg : Config) (addr : Word) : Option Device :=
  cfg.devices.find? (fun dev => covers dev addr.toNat)

/-- The answer of a transaction: its result with status OK, a failing status, or no rule, where the
device is not memory-backed (R85, log 15). -/
inductive BusResult (α : Type)
  | ok (a : α)
  | fail (status : BusStatus)
  | noRule (kind : DeviceKind)
  deriving DecidableEq, Repr

/-- The MemoryUnit's answer as a bus answer (R88). -/
def BusResult.ofMu {α : Type} : MuResult α → BusResult α
  | .ok a => .ok a
  | .denied => .fail .accessDenied
  | .pageFault => .fail .deviceFailure

/-- Apply a function to the result of a transaction that succeeded. -/
def BusResult.map {α β : Type} (f : α → β) : BusResult α → BusResult β
  | .ok a => .ok (f a)
  | .fail st => .fail st
  | .noRule k => .noRule k

/-- How a transaction uses its device (R84): a single unit (`read_single`, `write_single`), several units
(`read_multi`, `write_multi`), or the several units of an instruction fetch. -/
inductive Transfer
  | single
  | multi
  | fetch
  deriving DecidableEq, Repr

/-- The range `[addr, addr + len)` lies in the device and below 2^32 (R70). -/
def holds (dev : Device) (addr : Word) (len : Nat) : Bool :=
  decide (addr.toNat + len ≤ dev.base + dev.size) && decide (addr.toNat + len ≤ 2 ^ 32)

/-- The device's own test of the range `[addr, addr + len)`. A transfer of several units must lie in the
one device it was routed to (40_pipeline_stages.md R151; 93_implementation_defined.md U18), and a fetch
needs a device whose base is `mu.base` (70_reset_and_hazards.md R357). DESIGN CHOICE (log 24): for a
single access only the start address is looked up, as R81, R85 and R87 have it, so one that runs past
the device's end is tested by the arena alone. -/
def Transfer.inDevice (t : Transfer) (mu : MemoryUnit) (dev : Device) (addr : Word) (len : Nat) :
    Bool :=
  match t with
  | .single => true
  | .multi => holds dev addr len
  | .fetch => holds dev addr len && decide (dev.base = mu.base)

/-- The MemoryUnit address of a bus address on a memory-backed device (R85): `mu.base + offset`. DESIGN
CHOICE (log 26): a device map that breaks R85 or D25 is accepted. A memory-backed device whose base
is not `mu.base` is an alias of the arena by this formula for every access but a fetch, which traps
(R357), and the WRITE flag alone decides whether a device may be written, whatever its kind. DESIGN
CHOICE (log 29): several memory-backed devices are accepted too, and the one MemoryUnit `mu` backs
them all, where 10_state.md R51 has a backing store owned by one device. -/
def deviceAddr (mu : MemoryUnit) (dev : Device) (addr : Word) : Nat :=
  mu.base + (addr.toNat - dev.base)

/-- A read of `len` bytes whose unit is `w`, asking `need` of every byte (R87). A range that is not all
in the device is no full transfer, DEVICE_FAILURE (R84, U18), before any permission (log 24). -/
def busRead (cfg : Config) (mu : MemoryUnit) (t : Transfer) (need : List Access) (addr : Word) (w : Width)
    (len : Nat) : BusResult (List Byte) :=
  if misaligned addr w then .fail .readMisaligned
  else
    match findDevice cfg addr with
    | none => .fail .addressNotFound
    | some dev =>
      if !dev.kind.memoryBacked then .noRule dev.kind
      else if !t.inDevice mu dev addr len then .fail .deviceFailure
      else .ofMu (mu.read need (deviceAddr mu dev addr) len)

/-- A write of bytes whose unit is `w` (R86, R87), with the device's test of `busRead`. -/
def busWrite (cfg : Config) (mu : MemoryUnit) (t : Transfer) (addr : Word) (w : Width) (bs : List Byte) :
    BusResult MemoryUnit :=
  if misaligned addr w then .fail .writeMisaligned
  else
    match findDevice cfg addr with
    | none => .fail .addressNotFound
    | some dev =>
      if !dev.writeFlag then .fail .accessDenied
      else if !dev.kind.memoryBacked then .noRule dev.kind
      else if !t.inDevice mu dev addr bs.length then .fail .deviceFailure
      else .ofMu (mu.write cfg (deviceAddr mu dev addr) bs)

/-- The first `count` groups of `n` bytes, each as a value (R92). -/
def unitsOfBytes (n : Nat) : Nat → List Byte → List Word
  | 0, _ => []
  | count + 1, bs => wordOfBytes (bs.take n) :: unitsOfBytes n count (bs.drop n)

/-- `MemRead(addr, n)`, R90: the value in the low bits of a word, the rest 0. -/
def memRead (cfg : Config) (mu : MemoryUnit) (addr : Word) (w : Width) : BusResult Word :=
  (busRead cfg mu .single [.read] addr w w.bytes).map wordOfBytes

/-- `MemWrite(addr, n, v)`, R91: the low bytes of `v`. -/
def memWrite (cfg : Config) (mu : MemoryUnit) (addr : Word) (w : Width) (v : Word) :
    BusResult MemoryUnit :=
  busWrite cfg mu .single addr w (bytesOfWord w.bytes v)

/-- A read of `count` units (R92), asking `need` of every byte: all of them, or nothing. -/
def readUnits (cfg : Config) (mu : MemoryUnit) (t : Transfer) (need : List Access) (addr : Word)
    (count : Nat) (w : Width) : BusResult (List Word) :=
  (busRead cfg mu t need addr w (count * w.bytes)).map (unitsOfBytes w.bytes count)

/-- `read_multiple`, R92: READ of every byte. -/
def memReadMulti (cfg : Config) (mu : MemoryUnit) (addr : Word) (count : Nat) (w : Width) :
    BusResult (List Word) :=
  readUnits cfg mu .multi [.read] addr count w

/-- `write_multiple`, R93: all in one device, or nothing. -/
def memWriteMulti (cfg : Config) (mu : MemoryUnit) (addr : Word) (w : Width) (vs : List Word) :
    BusResult MemoryUnit :=
  busWrite cfg mu .multi addr w (vs.flatMap (bytesOfWord w.bytes))

/-- The permissions an instruction fetch asks of every byte (R94). -/
def fetchNeeds (cfg : Config) : List Access :=
  if cfg.fetchRequiresExec then [.read, .exec] else [.read]

/-- The refill of the prefetch queue: one `read_multiple` of `PREFETCH_DEPTH` words with a fetch's
permissions (R92, R94), on a device whose base is the arena's (70_reset_and_hazards.md R357). -/
def fetchRefill (cfg : Config) (mu : MemoryUnit) (pc : Word) : BusResult (List Word) :=
  readUnits cfg mu .fetch (fetchNeeds cfg) pc cfg.prefetchDepth .word

end Sys2Proof.Machine
end

