-- ==== Sys2Proof/Machine/Flags.lean ====
section
/-! DEFINITION. Comparisons. The machine has no flags (10_state.md R36): a comparison is a boolean
that decides a branch or is written as 0 or 1. -/

namespace Sys2Proof.Machine

/-- `a <s b` (00_scope.md R10). -/
def lessSigned (a b : Word) : Bool := BitVec.slt a b

/-- `a <u b` (R10). -/
def lessUnsigned (a b : Word) : Bool := BitVec.ult a b

/-- A boolean as 1 or 0, in a register (41_integer_computational.md R203) or in the ALU-output slot
(42_control_transfer.md R238). -/
def boolWord (c : Bool) : Word := if c then 1 else 0

end Sys2Proof.Machine
end

