-- ==== Sys2Proof/Machine/Operands.lean ====
section
/-! DEFINITION. Operand forms: how each format's immediate becomes a 32-bit value, the shift amount,
the one addressing mode, the branch and jump target, and the extension of a loaded value
(30_encoding.md R124 to R129; 43_load_store.md R260; 00_scope.md R11). -/

namespace Sys2Proof.Machine

/-- The I-type and S-type immediate, sign-extended (R124, R125). -/
def imm12 (imm : BitVec 12) : Word := imm.signExtend 32

/-- The B-type byte offset, sign-extended from 13 bits (R126). -/
def immBranch (offset : BitVec 13) : Word := offset.signExtend 32

/-- The J-type byte offset, sign-extended from 21 bits (R128). -/
def immJump (offset : BitVec 21) : Word := offset.signExtend 32

/-- The U-type operand `ir[31:12] ++ 0^12` (R127). -/
def immUpper (imm : BitVec 20) : Word := imm ++ 0#12

/-- The immediate of the CSR immediate forms, zero-extended (R129). -/
def uimm5 (uimm : BitVec 5) : Word := uimm.setWidth 32

/-- The shift amount of a register shift: the low 5 bits (41_integer_computational.md R213). -/
def shiftAmount (v : Word) : Nat := (v &&& 31#32).toNat

/-- Base plus displacement, modulo 2^32 (R260). -/
def effectiveAddr (base : Word) (imm : BitVec 12) : Word := base + imm12 imm

/-- The address of the next instruction in sequence, modulo 2^32 (10_state.md R26). -/
def nextPc (pc : Word) : Word := pc + 4

/-- A value of `8 * w.bytes` bits with its upper bits 0, extended to 32 bits: with copies of its top
bit if `signed`, else with zeros (R11; 40_pipeline_stages.md R165). -/
def extendLoaded (signed : Bool) (w : Width) (v : Word) : Word :=
  match w with
  | .byte => if signed then (v.setWidth 8).signExtend 32 else (v.setWidth 8).setWidth 32
  | .halfword => if signed then (v.setWidth 16).signExtend 32 else (v.setWidth 16).setWidth 32
  | .word => v

/-- The value to store, masked to the width (43_load_store.md R256). -/
def maskToWidth (w : Width) (v : Word) : Word :=
  match w with
  | .byte => (v.setWidth 8).setWidth 32
  | .halfword => (v.setWidth 16).setWidth 32
  | .word => v

end Sys2Proof.Machine
end

