-- ==== Sys2Proof/Machine/Ops.lean ====
section
/-! DEFINITION. The operations every instruction is built from: the registers, the CSR file, the
cycle counter, taking a trap and returning from one, the five stages, and the whole instruction as
their composition (40_pipeline_stages.md; 60_exceptions.md R310 to R313). -/

namespace Sys2Proof.Machine

/-- What a stage, an instruction or a step answers. -/
abbrev Result := Host.Outcome State Fault Refusal

/-! ### General registers (10_state.md R22, R23) -/

/-- `x[i]`: register 0 reads 0. -/
def Core.x (c : Core) (i : RegIdx) : Word := if i = 0 then 0 else c.regs[i.toNat]

/-- `x[i] <- v`: a write to register 0 is discarded. -/
def Core.setX (c : Core) (i : RegIdx) (v : Word) : Core :=
  if i = 0 then c else { c with regs := c.regs.set i.toNat v }

/-! ### CSRs (10_state.md R40 to R46) -/

/-- The address is in `CSR_SET`. `mepc` and `mcause` always are (log 13). -/
def implementsCsr (cfg : Config) (a : CsrAddr) : Bool :=
  a == 0x341 || a == 0x342 || cfg.csrSet.contains a

/-- `csr[a]`: plain storage. -/
def CsrFile.read (f : CsrFile) (a : CsrAddr) : Word :=
  if a = 0x300 then f.mstatus
  else if a = 0x304 then f.mie
  else if a = 0x341 then f.mepc
  else if a = 0x342 then f.mcause
  else if a = 0x344 then f.mip
  else Cells.get 0 f.extra a.toNat

/-- `csr[a] <- v`: all 32 bits are stored, and nothing else happens. -/
def CsrFile.write (f : CsrFile) (a : CsrAddr) (v : Word) : CsrFile :=
  if a = 0x300 then { f with mstatus := v }
  else if a = 0x304 then { f with mie := v }
  else if a = 0x341 then { f with mepc := v }
  else if a = 0x342 then { f with mcause := v }
  else if a = 0x344 then { f with mip := v }
  else { f with extra := Cells.set 0 a.toNat v f.extra }

/-! ### The cycle counter (R172, 10_state.md R32) -/

/-- One more cycle, modulo `2 ^ CYCLE_WIDTH`. -/
def Core.tick (cfg : Config) (c : Core) : Core :=
  { c with cycle := (c.cycle + 1) % 2 ^ cfg.cycleWidth }

/-! ### Taking a trap and returning from it -/

/-- The code of a cause (60_exceptions.md R300). -/
def Cause.code : Cause → Word
  | .instructionAddrMisalign => 0
  | .instructionAccessFault => 1
  | .illegalInstruction => 2
  | .loadAddrMisaligned => 4
  | .loadAccessFault => 5
  | .storeAddrMisaligned => 6
  | .storeAccessFault => 7
  | .envCallUmode => 8

/-- `raise c` (R310). -/
def Core.raise (cause : Cause) (c : Core) : Core :=
  { c with trap := { c.trap with cause := cause }, stage := .trap, trapState := .enter }

/-- ENTER (R311): the snapshot (slot 0 gets 0), the saved pc, `mepc`, `mcause`, the empty queue, the
trap vector. -/
def Core.enterTrap (cfg : Config) (c : Core) : Core :=
  Core.tick cfg
    { c with
      trap := { c.trap with snapshot := c.regs.set 0 0, savedPc := c.pc }
      csr := (c.csr.write 0x341 c.pc).write 0x342 c.trap.cause.code
      prefetch := []
      pc := cfg.trapVector
      stage := .trap
      trapState := .handle
      hostResults := [] }

/-- EXIT, the return from a trap (R313): registers 1 to 31 from the snapshot, `pc` from `mepc`, back
to FETCH. -/
def Core.exitTrap (cfg : Config) (c : Core) : Core :=
  Core.tick cfg
    { c with
      regs := c.trap.snapshot.set 0 c.regs[0]
      pc := nextPc (c.csr.read 0x341)
      prefetch := []
      stage := .fetch
      trapState := .none }

/-- ENTER as a step of the current core. -/
def State.enterTrap (s : State) : State := { s with core := s.core.enterTrap s.cfg }

/-- EXIT as a step of the current core. -/
def State.exitTrap (s : State) : State := { s with core := s.core.exitTrap s.cfg }

/-! ### The stage wrapper (R172) -/

/-- A stage that did not raise: the core it leaves, one more cycle, the next stage. -/
def State.advance (s : State) (c : Core) (next : Stage) : State :=
  { s with core := { c.tick s.cfg with stage := next } }

/-- A stage that raised: TRAP takes precedence, and the cycle still counts. -/
def State.raise (s : State) (cause : Cause) : State :=
  { s with core := (s.core.raise cause).tick s.cfg }

/-! ### FETCH (R151, R152) -/

/-- R152: the cause of a failed refill. -/
def fetchCause : BusStatus → Cause
  | .readMisaligned => .instructionAddrMisalign
  | .ok | .addressNotFound | .writeMisaligned | .accessDenied | .deviceFailure =>
    .instructionAccessFault

/-- The first word of the queue `w :: rest` becomes `d.ir` and leaves the queue. -/
def State.takeWord (s : State) (w : Word) (rest : List Word) : State :=
  s.advance { s.core with prefetch := rest, d := { s.core.d with ir := w } } .decode

/-- FETCH (R151): the next word of the queue, refilled by one transaction if it is empty. A refill
that succeeds brings at least one word (`fetchRefill_ne_nil`). -/
def State.fetchStage (s : State) : Result :=
  match s.core.prefetch with
  | w :: rest => .next (s.takeWord w rest)
  | [] =>
    match fetchRefill s.cfg s.mu s.core.pc with
    | .ok ws => .next (s.takeWord (ws.headD 0) ws.tail)
    | .fail st => .next (s.raise (fetchCause st))
    | .noRule k => .refused (.deviceWithoutRule k)

/-! ### DECODE (R155, R156) -/

/-- The decode fields of `d` for the word in `d.ir`, with the register values read now (R155, R157). -/
def Decoded.fill (d : Decoded) (x : RegIdx → Word) : Decoded :=
  { d with
    opcode := opcodeOf d.ir
    opType := typeTable (opcodeOf d.ir)
    rd := rdOf d.ir
    rs1 := rs1Of d.ir
    rs2 := rs2Of d.ir
    rs1v := x (rs1Of d.ir)
    rs2v := x (rs2Of d.ir)
    funct3 := funct3Of d.ir
    funct7 := funct7Of d.ir
    immI := imm12 (immIOf d.ir)
    immS := imm12 (immSOf d.ir)
    immB := immBranch (immBOf d.ir)
    immU := (immUOf d.ir).setWidth 32
    immJ := immJump (immJOf d.ir)
    csr := csrOf d.ir
    shamt := rs2Of d.ir }

/-- DECODE (R155): an Unknown opcode raises (R156) with only `opcode` and `opType` written. -/
def State.decodeStage (s : State) : State :=
  if typeTable (opcodeOf s.core.d.ir) = .Unknown then
    { s with core := { s.core with
        d := { s.core.d with opcode := opcodeOf s.core.d.ir, opType := .Unknown } } }.raise
      .illegalInstruction
  else s.advance { s.core with d := s.core.d.fill s.core.x } .execute

/-! ### EXECUTE (R160, R161) -/

/-- EXECUTE starts by resetting its output fields (R160). -/
def Decoded.cleared (d : Decoded) : Decoded :=
  { d with
    isJump := false
    writeRd := false
    readMem := false
    writeMem := false
    csrWrite := false
    aluOut := 0
    memOffset := 0
    jumpTarget := 0 }

/-- What an instruction's EXECUTE block answers: the record with its outputs, or a cause. -/
inductive Executed
  | done (d : Decoded)
  | raised (cause : Cause)
  deriving DecidableEq, Repr

/-- EXECUTE, for an instruction whose block answers `r` (R160). -/
def State.executeStage (s : State) (r : Executed) : State :=
  match r with
  | .done d => s.advance { s.core with d := d } .memory
  | .raised cause => { s with core := { s.core with d := s.core.d.cleared } }.raise cause

/-! ### MEMORY (R165, R166) -/

/-- R166: the cause of a failed load. -/
def loadCause : BusStatus → Cause
  | .readMisaligned => .loadAddrMisaligned
  | .ok | .addressNotFound | .writeMisaligned | .accessDenied | .deviceFailure => .loadAccessFault

/-- R166: the cause of a failed store. -/
def storeCause : BusStatus → Cause
  | .writeMisaligned => .storeAddrMisaligned
  | .ok | .addressNotFound | .readMisaligned | .accessDenied | .deviceFailure => .storeAccessFault

/-- MEMORY (R165): at most one bus transaction. -/
def State.memoryStage (s : State) : Result :=
  if s.core.d.readMem then
    match memRead s.cfg s.mu s.core.d.memOffset s.core.d.memWidth with
    | .ok v =>
      .next (s.advance { s.core with d := { s.core.d with
        aluOut := extendLoaded s.core.d.memSigned s.core.d.memWidth v } } .writeback)
    | .fail st => .next (s.raise (loadCause st))
    | .noRule k => .refused (.deviceWithoutRule k)
  else if s.core.d.writeMem then
    match memWrite s.cfg s.mu s.core.d.memOffset s.core.d.memWidth s.core.d.aluOut with
    | .ok mu => .next ({ s with mu := mu }.advance s.core .writeback)
    | .fail st => .next (s.raise (storeCause st))
    | .noRule k => .refused (.deviceWithoutRule k)
  else .next (s.advance s.core .writeback)

/-! ### WRITEBACK (R170, R171) -/

/-- The CSR write of WRITEBACK. -/
def Core.commitCsr (c : Core) : Core :=
  if c.d.csrWrite then { c with csr := c.csr.write c.d.csr c.d.csrNew } else c

/-- The register write of WRITEBACK. -/
def Core.commitRd (c : Core) : Core := if c.d.writeRd then c.setX c.d.rd c.d.aluOut else c

/-- The `pc` and queue update of WRITEBACK. -/
def Core.commitPc (c : Core) : Core :=
  if c.d.isJump then { c with pc := c.d.jumpTarget, prefetch := [] }
  else { c with pc := nextPc c.pc }

/-- WRITEBACK (R170): it cannot trap. -/
def State.writebackStage (s : State) : State :=
  s.advance s.core.commitCsr.commitRd.commitPc .fetch

/-! ### Whole instructions (R173) -/

/-- Go on after a stage. If it raised, the rest of the instruction is skipped and the core enters the
trap (ENTER touches only its own core, R311, so the next boundary is HANDLE, log 3). -/
def andThen (r : Result) (k : State → Result) : Result :=
  match r with
  | .next s => if s.core.stage = .trap then .next s.enterTrap else k s
  | .fault f => .fault f
  | .refused x => .refused x

/-- The stages after EXECUTE. -/
def State.afterExecute (s : State) : Result :=
  andThen s.memoryStage fun s' => .next s'.writebackStage

/-- A whole instruction after its FETCH: DECODE of its word, EXECUTE by its block, MEMORY,
WRITEBACK. `block` reads the decoded record, `pc` and the CSR file. -/
def runInstr (i : Instr) (block : Config → Core → Executed) (s : State) : Result :=
  let s0 := { s with core := { s.core with d := { s.core.d with ir := encode i } } }
  andThen (.next s0.decodeStage) fun s1 =>
    andThen (.next (s1.executeStage (block s1.cfg s1.core))) State.afterExecute

/-- A whole word that is no instruction, after its FETCH: ILLEGAL_INSTRUCTION at DECODE if its opcode
is Unknown (R156), else at EXECUTE (R161). -/
def State.runIllegal (s : State) : Result :=
  andThen (.next s.decodeStage) fun s1 =>
    andThen (.next (s1.executeStage (.raised .illegalInstruction))) .next

/-! ### Shared EXECUTE blocks -/

/-- The result goes to `rd`: `d.aluOut := v; d.writeRd := true`. -/
def writeResult (c : Core) (v : Word) : Executed :=
  .done { c.d.cleared with aluOut := v, writeRd := true }

/-- A jump that links: R230, R231. -/
def jumpAndLink (c : Core) (target : Word) : Executed :=
  .done { c.d.cleared with
    jumpTarget := target, aluOut := nextPc c.pc, isJump := true, writeRd := true }

/-- The common part of the six branches (42_control_transfer.md R238). -/
def branchIf (c : Core) (cond : Bool) (offset : BitVec 13) : Executed :=
  .done { c.d.cleared with
    aluOut := boolWord cond, isJump := cond, jumpTarget := c.pc + immBranch offset }

/-- The common part of the five loads (43_load_store.md R250). -/
def loadFrom (c : Core) (imm : BitVec 12) (w : Width) (signed : Bool) : Executed :=
  .done { c.d.cleared with
    memOffset := effectiveAddr c.d.rs1v imm, memWidth := w, memSigned := signed,
    readMem := true, writeRd := true }

/-- The common part of the three stores (43_load_store.md R256). -/
def storeTo (c : Core) (imm : BitVec 12) (w : Width) : Executed :=
  .done { c.d.cleared with
    memOffset := effectiveAddr c.d.rs1v imm, memWidth := w,
    aluOut := maskToWidth w c.d.rs2v, writeMem := true }

/-- The common part of the six CSR instructions (44_system.md R277): `f` of the old value is the new
one, and `writes` says whether it is written. -/
def csrAccess (cfg : Config) (c : Core) (a : CsrAddr) (writes : Bool) (f : Word → Word) :
    Executed :=
  if implementsCsr cfg a then
    .done { c.d.cleared with
      csrNew := if writes then f (c.csr.read a) else c.d.csrNew
      csrWrite := writes
      aluOut := c.csr.read a
      writeRd := true }
  else .raised .illegalInstruction

end Sys2Proof.Machine
end

