-- ==== Sys2Proof/Machine/Control.lean ====
section
/-! DEFINITION. The control transfer instructions (42_control_transfer.md R230 to R240). A target is not
checked here: the next FETCH finds a bad one (R239). -/

namespace Sys2Proof.Machine

/-- EXECUTE block of JAL (R230): jump to `pc + immJ`, link `pc + 4`. -/
def xJal (offset : BitVec 21) (_ : Config) (c : Core) : Executed :=
  jumpAndLink c (c.pc + immJump offset)

/-- JAL (R230). -/
def execJal (rd : RegIdx) (offset : BitVec 21) (s : State) : Result :=
  runInstr (.jal rd offset) (xJal offset) s

/-- EXECUTE block of JALR (R231): jump to `rs1 + immI`, bit 0 kept, link `pc + 4`. -/
def xJalr (imm : BitVec 12) (_ : Config) (c : Core) : Executed :=
  jumpAndLink c (c.d.rs1v + imm12 imm)

/-- JALR (R231). -/
def execJalr (rd rs1 : RegIdx) (imm : BitVec 12) (s : State) : Result :=
  runInstr (.jalr rd rs1 imm) (xJalr imm) s

/-- EXECUTE block of BEQ (R232): branch if equal. -/
def xBeq (offset : BitVec 13) (_ : Config) (c : Core) : Executed :=
  branchIf c (c.d.rs1v == c.d.rs2v) offset

/-- BEQ (R232). -/
def execBeq (rs1 rs2 : RegIdx) (offset : BitVec 13) (s : State) : Result :=
  runInstr (.beq rs1 rs2 offset) (xBeq offset) s

/-- EXECUTE block of BNE (R233): branch if not equal. -/
def xBne (offset : BitVec 13) (_ : Config) (c : Core) : Executed :=
  branchIf c (c.d.rs1v != c.d.rs2v) offset

/-- BNE (R233). -/
def execBne (rs1 rs2 : RegIdx) (offset : BitVec 13) (s : State) : Result :=
  runInstr (.bne rs1 rs2 offset) (xBne offset) s

/-- EXECUTE block of BLT (R234): branch if less, signed. -/
def xBlt (offset : BitVec 13) (_ : Config) (c : Core) : Executed :=
  branchIf c (lessSigned c.d.rs1v c.d.rs2v) offset

/-- BLT (R234). -/
def execBlt (rs1 rs2 : RegIdx) (offset : BitVec 13) (s : State) : Result :=
  runInstr (.blt rs1 rs2 offset) (xBlt offset) s

/-- EXECUTE block of BGE (R235): branch if not less, signed. -/
def xBge (offset : BitVec 13) (_ : Config) (c : Core) : Executed :=
  branchIf c (!lessSigned c.d.rs1v c.d.rs2v) offset

/-- BGE (R235). -/
def execBge (rs1 rs2 : RegIdx) (offset : BitVec 13) (s : State) : Result :=
  runInstr (.bge rs1 rs2 offset) (xBge offset) s

/-- EXECUTE block of BLTU (R236): branch if less, unsigned. -/
def xBltu (offset : BitVec 13) (_ : Config) (c : Core) : Executed :=
  branchIf c (lessUnsigned c.d.rs1v c.d.rs2v) offset

/-- BLTU (R236). -/
def execBltu (rs1 rs2 : RegIdx) (offset : BitVec 13) (s : State) : Result :=
  runInstr (.bltu rs1 rs2 offset) (xBltu offset) s

/-- EXECUTE block of BGEU (R237): branch if not less, unsigned. -/
def xBgeu (offset : BitVec 13) (_ : Config) (c : Core) : Executed :=
  branchIf c (!lessUnsigned c.d.rs1v c.d.rs2v) offset

/-- BGEU (R237). -/
def execBgeu (rs1 rs2 : RegIdx) (offset : BitVec 13) (s : State) : Result :=
  runInstr (.bgeu rs1 rs2 offset) (xBgeu offset) s

end Sys2Proof.Machine
end

