-- ==== Sys2Proof/Machine/Integer.lean ====
section
/-! DEFINITION. The integer computational instructions (41_integer_computational.md R200 to R221). Each
EXECUTE block reads the source values that DECODE put in the record (`d.rs1v`, `d.rs2v`, R157) and
writes the result; the meaning is the whole instruction around it. -/

namespace Sys2Proof.Machine

/-- EXECUTE block of LUI (R200): `ir[31:12] ++ 0^12`. -/
def xLui (imm20 : BitVec 20) (_ : Config) (c : Core) : Executed :=
  writeResult c (immUpper imm20)

/-- LUI (R200). -/
def execLui (rd : RegIdx) (imm20 : BitVec 20) (s : State) : Result :=
  runInstr (.lui rd imm20) (xLui imm20) s

/-- EXECUTE block of AUIPC (R201): the instruction's own address plus `ir[31:12] ++ 0^12`. -/
def xAuipc (imm20 : BitVec 20) (_ : Config) (c : Core) : Executed :=
  writeResult c (c.pc + immUpper imm20)

/-- AUIPC (R201). -/
def execAuipc (rd : RegIdx) (imm20 : BitVec 20) (s : State) : Result :=
  runInstr (.auipc rd imm20) (xAuipc imm20) s

/-- EXECUTE block of ADDI (R202): the sum, modulo 2^32. -/
def xAddi (imm : BitVec 12) (_ : Config) (c : Core) : Executed :=
  writeResult c (c.d.rs1v + imm12 imm)

/-- ADDI (R202). -/
def execAddi (rd rs1 : RegIdx) (imm : BitVec 12) (s : State) : Result :=
  runInstr (.addi rd rs1 imm) (xAddi imm) s

/-- EXECUTE block of SLTI (R203): 1 if less, signed, else 0. -/
def xSlti (imm : BitVec 12) (_ : Config) (c : Core) : Executed :=
  writeResult c (boolWord (lessSigned c.d.rs1v (imm12 imm)))

/-- SLTI (R203). -/
def execSlti (rd rs1 : RegIdx) (imm : BitVec 12) (s : State) : Result :=
  runInstr (.slti rd rs1 imm) (xSlti imm) s

/-- EXECUTE block of SLTIU (R204): 1 if less, unsigned, than the sign-extended immediate, else 0. -/
def xSltiu (imm : BitVec 12) (_ : Config) (c : Core) : Executed :=
  writeResult c (boolWord (lessUnsigned c.d.rs1v (imm12 imm)))

/-- SLTIU (R204). -/
def execSltiu (rd rs1 : RegIdx) (imm : BitVec 12) (s : State) : Result :=
  runInstr (.sltiu rd rs1 imm) (xSltiu imm) s

/-- EXECUTE block of XORI (R205): exclusive or. -/
def xXori (imm : BitVec 12) (_ : Config) (c : Core) : Executed :=
  writeResult c (c.d.rs1v ^^^ imm12 imm)

/-- XORI (R205). -/
def execXori (rd rs1 : RegIdx) (imm : BitVec 12) (s : State) : Result :=
  runInstr (.xori rd rs1 imm) (xXori imm) s

/-- EXECUTE block of ORI (R206): or. -/
def xOri (imm : BitVec 12) (_ : Config) (c : Core) : Executed :=
  writeResult c (c.d.rs1v ||| imm12 imm)

/-- ORI (R206). -/
def execOri (rd rs1 : RegIdx) (imm : BitVec 12) (s : State) : Result :=
  runInstr (.ori rd rs1 imm) (xOri imm) s

/-- EXECUTE block of ANDI (R207): and. -/
def xAndi (imm : BitVec 12) (_ : Config) (c : Core) : Executed :=
  writeResult c (c.d.rs1v &&& imm12 imm)

/-- ANDI (R207). -/
def execAndi (rd rs1 : RegIdx) (imm : BitVec 12) (s : State) : Result :=
  runInstr (.andi rd rs1 imm) (xAndi imm) s

/-- EXECUTE block of SLLI (R208): shift left, zeros enter. -/
def xSlli (shamt : BitVec 5) (_ : Config) (c : Core) : Executed :=
  writeResult c (c.d.rs1v <<< shamt.toNat)

/-- SLLI (R208). -/
def execSlli (rd rs1 : RegIdx) (shamt : BitVec 5) (s : State) : Result :=
  runInstr (.slli rd rs1 shamt) (xSlli shamt) s

/-- EXECUTE block of SRLI (R209): shift right, zeros enter. -/
def xSrli (shamt : BitVec 5) (_ : Config) (c : Core) : Executed :=
  writeResult c (c.d.rs1v >>> shamt.toNat)

/-- SRLI (R209). -/
def execSrli (rd rs1 : RegIdx) (shamt : BitVec 5) (s : State) : Result :=
  runInstr (.srli rd rs1 shamt) (xSrli shamt) s

/-- EXECUTE block of SRAI (R210): shift right, copies of bit 31 enter. -/
def xSrai (shamt : BitVec 5) (_ : Config) (c : Core) : Executed :=
  writeResult c (c.d.rs1v.sshiftRight shamt.toNat)

/-- SRAI (R210). -/
def execSrai (rd rs1 : RegIdx) (shamt : BitVec 5) (s : State) : Result :=
  runInstr (.srai rd rs1 shamt) (xSrai shamt) s

/-- EXECUTE block of ADD (R211): the sum, modulo 2^32. -/
def xAdd (_ : Config) (c : Core) : Executed :=
  writeResult c (c.d.rs1v + c.d.rs2v)

/-- ADD (R211). -/
def execAdd (rd rs1 rs2 : RegIdx) (s : State) : Result :=
  runInstr (.add rd rs1 rs2) xAdd s

/-- EXECUTE block of SUB (R212): the difference, modulo 2^32. -/
def xSub (_ : Config) (c : Core) : Executed :=
  writeResult c (c.d.rs1v - c.d.rs2v)

/-- SUB (R212). -/
def execSub (rd rs1 rs2 : RegIdx) (s : State) : Result :=
  runInstr (.sub rd rs1 rs2) xSub s

/-- EXECUTE block of SLL (R213): shift left by the low 5 bits of the second source. -/
def xSll (_ : Config) (c : Core) : Executed :=
  writeResult c (c.d.rs1v <<< shiftAmount c.d.rs2v)

/-- SLL (R213). -/
def execSll (rd rs1 rs2 : RegIdx) (s : State) : Result :=
  runInstr (.sll rd rs1 rs2) xSll s

/-- EXECUTE block of SLT (R214): 1 if less, signed, else 0. -/
def xSlt (_ : Config) (c : Core) : Executed :=
  writeResult c (boolWord (lessSigned c.d.rs1v c.d.rs2v))

/-- SLT (R214). -/
def execSlt (rd rs1 rs2 : RegIdx) (s : State) : Result :=
  runInstr (.slt rd rs1 rs2) xSlt s

/-- EXECUTE block of SLTU (R215): 1 if less, unsigned, else 0. -/
def xSltu (_ : Config) (c : Core) : Executed :=
  writeResult c (boolWord (lessUnsigned c.d.rs1v c.d.rs2v))

/-- SLTU (R215). -/
def execSltu (rd rs1 rs2 : RegIdx) (s : State) : Result :=
  runInstr (.sltu rd rs1 rs2) xSltu s

/-- EXECUTE block of XOR (R216): exclusive or. -/
def xXor (_ : Config) (c : Core) : Executed :=
  writeResult c (c.d.rs1v ^^^ c.d.rs2v)

/-- XOR (R216). -/
def execXor (rd rs1 rs2 : RegIdx) (s : State) : Result :=
  runInstr (.xor rd rs1 rs2) xXor s

/-- EXECUTE block of SRL (R217): shift right by the low 5 bits of the second source, zeros enter. -/
def xSrl (_ : Config) (c : Core) : Executed :=
  writeResult c (c.d.rs1v >>> shiftAmount c.d.rs2v)

/-- SRL (R217). -/
def execSrl (rd rs1 rs2 : RegIdx) (s : State) : Result :=
  runInstr (.srl rd rs1 rs2) xSrl s

/-- EXECUTE block of SRA (R218): shift right by the low 5 bits of the second source, copies of bit 31 enter. -/
def xSra (_ : Config) (c : Core) : Executed :=
  writeResult c (c.d.rs1v.sshiftRight (shiftAmount c.d.rs2v))

/-- SRA (R218). -/
def execSra (rd rs1 rs2 : RegIdx) (s : State) : Result :=
  runInstr (.sra rd rs1 rs2) xSra s

/-- EXECUTE block of OR (R219): or. -/
def xOr (_ : Config) (c : Core) : Executed :=
  writeResult c (c.d.rs1v ||| c.d.rs2v)

/-- OR (R219). -/
def execOr (rd rs1 rs2 : RegIdx) (s : State) : Result :=
  runInstr (.or rd rs1 rs2) xOr s

/-- EXECUTE block of AND (R220): and. -/
def xAnd (_ : Config) (c : Core) : Executed :=
  writeResult c (c.d.rs1v &&& c.d.rs2v)

/-- AND (R220). -/
def execAnd (rd rs1 rs2 : RegIdx) (s : State) : Result :=
  runInstr (.and rd rs1 rs2) xAnd s

end Sys2Proof.Machine
end

