-- ==== Sys2Proof/Machine/LoadStore.lean ====
section
/-! DEFINITION. The load and store instructions (43_load_store.md R250 to R260). EXECUTE computes the
address and the width; the access is the MEMORY stage's one bus transaction. -/

namespace Sys2Proof.Machine

/-- EXECUTE block of LB (R251): a byte, sign-extended. -/
def xLb (imm : BitVec 12) (_ : Config) (c : Core) : Executed :=
  loadFrom c imm .byte true

/-- LB (R251). -/
def execLb (rd rs1 : RegIdx) (imm : BitVec 12) (s : State) : Result :=
  runInstr (.lb rd rs1 imm) (xLb imm) s

/-- EXECUTE block of LH (R252): a halfword, sign-extended. -/
def xLh (imm : BitVec 12) (_ : Config) (c : Core) : Executed :=
  loadFrom c imm .halfword true

/-- LH (R252). -/
def execLh (rd rs1 : RegIdx) (imm : BitVec 12) (s : State) : Result :=
  runInstr (.lh rd rs1 imm) (xLh imm) s

/-- EXECUTE block of LW (R253): a word, with no extension. R253 gives no `sg` for R250's
`d.memSigned := sg`: `false` is the model's (DESIGN CHOICE, log 27), and no value read depends on it. -/
def xLw (imm : BitVec 12) (_ : Config) (c : Core) : Executed :=
  loadFrom c imm .word false

/-- LW (R253). -/
def execLw (rd rs1 : RegIdx) (imm : BitVec 12) (s : State) : Result :=
  runInstr (.lw rd rs1 imm) (xLw imm) s

/-- EXECUTE block of LBU (R254): a byte, zero-extended. -/
def xLbu (imm : BitVec 12) (_ : Config) (c : Core) : Executed :=
  loadFrom c imm .byte false

/-- LBU (R254). -/
def execLbu (rd rs1 : RegIdx) (imm : BitVec 12) (s : State) : Result :=
  runInstr (.lbu rd rs1 imm) (xLbu imm) s

/-- EXECUTE block of LHU (R255): a halfword, zero-extended. -/
def xLhu (imm : BitVec 12) (_ : Config) (c : Core) : Executed :=
  loadFrom c imm .halfword false

/-- LHU (R255). -/
def execLhu (rd rs1 : RegIdx) (imm : BitVec 12) (s : State) : Result :=
  runInstr (.lhu rd rs1 imm) (xLhu imm) s

/-- EXECUTE block of SB (R257): the low byte. -/
def xSb (imm : BitVec 12) (_ : Config) (c : Core) : Executed :=
  storeTo c imm .byte

/-- SB (R257). -/
def execSb (rs2 rs1 : RegIdx) (imm : BitVec 12) (s : State) : Result :=
  runInstr (.sb rs2 rs1 imm) (xSb imm) s

/-- EXECUTE block of SH (R258): the low halfword. -/
def xSh (imm : BitVec 12) (_ : Config) (c : Core) : Executed :=
  storeTo c imm .halfword

/-- SH (R258). -/
def execSh (rs2 rs1 : RegIdx) (imm : BitVec 12) (s : State) : Result :=
  runInstr (.sh rs2 rs1 imm) (xSh imm) s

/-- EXECUTE block of SW (R259): the word. -/
def xSw (imm : BitVec 12) (_ : Config) (c : Core) : Executed :=
  storeTo c imm .word

/-- SW (R259). -/
def execSw (rs2 rs1 : RegIdx) (imm : BitVec 12) (s : State) : Result :=
  runInstr (.sw rs2 rs1 imm) (xSw imm) s

end Sys2Proof.Machine
end

