-- ==== Sys2Proof/Machine/System.lean ====
section
/-! DEFINITION. The system instructions (44_system.md R270 to R277). ECALL always traps. A CSR instruction
on an address outside `CSR_SET` raises ILLEGAL_INSTRUCTION. -/

namespace Sys2Proof.Machine

/-- EXECUTE block of ECALL (R270): raise ENV_CALL_UMODE. -/
def xEcall (_ : Config) (_ : Core) : Executed :=
  .raised .envCallUmode

/-- ECALL (R270). -/
def execEcall (s : State) : Result :=
  runInstr .ecall xEcall s

/-- EXECUTE block of CSRRW (R271): write `rs1`, always. -/
def xCsrrw (csr : CsrAddr) (cfg : Config) (c : Core) : Executed :=
  csrAccess cfg c csr true (fun _ => c.d.rs1v)

/-- CSRRW (R271). -/
def execCsrrw (rd : RegIdx) (csr : CsrAddr) (rs1 : RegIdx) (s : State) : Result :=
  runInstr (.csrrw rd csr rs1) (xCsrrw csr) s

/-- EXECUTE block of CSRRS (R272): set the bits of `rs1`; write only when `rs1` is not `x0`. -/
def xCsrrs (csr : CsrAddr) (rs1 : RegIdx) (cfg : Config) (c : Core) : Executed :=
  csrAccess cfg c csr (rs1 != 0) (fun old => old ||| c.d.rs1v)

/-- CSRRS (R272). -/
def execCsrrs (rd : RegIdx) (csr : CsrAddr) (rs1 : RegIdx) (s : State) : Result :=
  runInstr (.csrrs rd csr rs1) (xCsrrs csr rs1) s

/-- EXECUTE block of CSRRC (R273): clear the bits of `rs1`; write only when `rs1` is not `x0`. -/
def xCsrrc (csr : CsrAddr) (rs1 : RegIdx) (cfg : Config) (c : Core) : Executed :=
  csrAccess cfg c csr (rs1 != 0) (fun old => old &&& ~~~c.d.rs1v)

/-- CSRRC (R273). -/
def execCsrrc (rd : RegIdx) (csr : CsrAddr) (rs1 : RegIdx) (s : State) : Result :=
  runInstr (.csrrc rd csr rs1) (xCsrrc csr rs1) s

/-- EXECUTE block of CSRRWI (R274): write the zero-extended immediate, always. -/
def xCsrrwi (csr : CsrAddr) (uimm : BitVec 5) (cfg : Config) (c : Core) : Executed :=
  csrAccess cfg c csr true (fun _ => uimm5 uimm)

/-- CSRRWI (R274). -/
def execCsrrwi (rd : RegIdx) (csr : CsrAddr) (uimm : BitVec 5) (s : State) : Result :=
  runInstr (.csrrwi rd csr uimm) (xCsrrwi csr uimm) s

/-- EXECUTE block of CSRRSI (R275): set the bits of the immediate; write only when it is not 0. -/
def xCsrrsi (csr : CsrAddr) (uimm : BitVec 5) (cfg : Config) (c : Core) : Executed :=
  csrAccess cfg c csr (uimm != 0) (fun old => old ||| uimm5 uimm)

/-- CSRRSI (R275). -/
def execCsrrsi (rd : RegIdx) (csr : CsrAddr) (uimm : BitVec 5) (s : State) : Result :=
  runInstr (.csrrsi rd csr uimm) (xCsrrsi csr uimm) s

/-- EXECUTE block of CSRRCI (R276): clear the bits of the immediate; write only when it is not 0. -/
def xCsrrci (csr : CsrAddr) (uimm : BitVec 5) (cfg : Config) (c : Core) : Executed :=
  csrAccess cfg c csr (uimm != 0) (fun old => old &&& ~~~uimm5 uimm)

/-- CSRRCI (R276). -/
def execCsrrci (rd : RegIdx) (csr : CsrAddr) (uimm : BitVec 5) (s : State) : Result :=
  runInstr (.csrrci rd csr uimm) (xCsrrci csr uimm) s

end Sys2Proof.Machine
end

