-- ==== Sys2Proof/Machine/Handler.lean ====
section
/-! DEFINITION. HANDLE and the host's trap handler (60_exceptions.md R312, R320 to R325). One step is
one action of the handler: one memory operation, which is one atomic step (R324), or its answer,
which ends HANDLE (log 7). -/

namespace Sys2Proof.Machine

/-- What the handler sees of the core (R321). -/
def Core.view (c : Core) : CoreView where
  id := c.id
  regs := c.regs.set 0 0
  cause := c.trap.cause
  savedPc := c.trap.savedPc
  csr := c.csr
  pc := c.pc
  cycle := c.cycle

/-- The system call number, `x17` (R323). -/
def CoreView.sysNumber (v : CoreView) : Word := v.regs[17]

/-- The system call arguments, `x10` to `x14` (R323). -/
def CoreView.sysArgs (v : CoreView) : List Word :=
  [v.regs[10], v.regs[11], v.regs[12], v.regs[13], v.regs[14]]

/-- The answer that halts the core and changes nothing (`DefaultHandler`, R325). -/
def HostAct.halt : HostAct := .answer false none

/-- The next action of the handler, and the handler after it (R320, R325). -/
def Handler.next (h : Handler) (v : CoreView) (mu : MemoryUnit) (results : List HostResult) :
    HostAct × Handler :=
  match h with
  | .halting => (.halt, .halting)
  | .exitOnly exits =>
    if v.cause = .envCallUmode ∧ v.sysNumber ∉ exits then (.answer true none, .exitOnly exits)
    else (.halt, .exitOnly exits)
  | .script [] => (.halt, .script [])
  | .script (a :: acts) => (a, .script acts)
  | .external => (trapHandler v mu results, .external)

/-- The answer of a host read, or the kind of a device without a rule. -/
def readAnswer (mu : MemoryUnit) : BusResult (List Word) → Except DeviceKind (MemoryUnit × HostResult)
  | .ok vs => .ok (mu, .values vs)
  | .fail st => .ok (mu, .failed st)
  | .noRule k => .error k

/-- The answer of a host write; a failed one changes nothing (20_memory.md R87). -/
def writeAnswer (mu : MemoryUnit) :
    BusResult MemoryUnit → Except DeviceKind (MemoryUnit × HostResult)
  | .ok mu' => .ok (mu', .written)
  | .fail st => .ok (mu, .failed st)
  | .noRule k => .error k

/-- One operation of the host (R322): the MemoryUnit after it and what it returned. A status that is
not OK goes back to the host and traps nothing (R314). -/
def hostOp (cfg : Config) (mu : MemoryUnit) : HostOp → Except DeviceKind (MemoryUnit × HostResult)
  | .readSingle addr w => readAnswer mu ((memRead cfg mu addr w).map fun v => [v])
  | .readMultiple addr count w => readAnswer mu (memReadMulti cfg mu addr count w)
  | .writeSingle addr w v => writeAnswer mu (memWrite cfg mu addr w v)
  | .writeMultiple addr w vs => writeAnswer mu (memWriteMulti cfg mu addr w vs)
  | .allocate size p => .ok ((mu.allocate size p).2, .block (mu.allocate size p).1)
  | .addMemory addr size p =>
    .ok ((mu.addMemory cfg addr size p).2, .done (mu.addMemory cfg addr size p).1)
  | .setPerm addr len p => .ok ((mu.setPerm addr len p).2, .done (mu.setPerm addr len p).1)

/-- The end of HANDLE (R312): the value for `x10` goes to slot 10 of the snapshot, if there is one. An
answer of true leads to EXIT, and an answer of false halts the core, which stays in HANDLE. -/
def Core.answerTrap (cfg : Config) (continue_ : Bool) (a0 : Option Word) (c : Core) : Core :=
  Core.tick cfg
    { c with
      trap := { c.trap with snapshot :=
        match a0 with
        | some v => c.trap.snapshot.set 10 v
        | none => c.trap.snapshot }
      trapState := if continue_ then .exit else .handle
      halted := !continue_
      hostResults := [] }

/-- A step in HANDLE (R312). -/
def State.handleTrap (s : State) : Result :=
  match s.handler.next s.core.view s.mu s.core.hostResults with
  | (.answer continue_ a0, h) =>
    .next { s with core := s.core.answerTrap s.cfg continue_ a0, handler := h }
  | (.op o, h) =>
    match hostOp s.cfg s.mu o with
    | .ok (mu, r) =>
      .next { s with
        mu := mu, handler := h
        core := { s.core with hostResults := s.core.hostResults ++ [r] } }
    | .error k => .refused (.deviceWithoutRule k)

end Sys2Proof.Machine
end

