-- ==== Sys2Proof/Machine/Stages.lean ====
section
/-! DEFINITION. The stage machine of one core (40_pipeline_stages.md R150), its whole instructions
(R173), and the choice of the core that steps (R175). -/

namespace Sys2Proof.Machine

/-- The EXECUTE block of every instruction, for a core whose EXECUTE is a step of its own. -/
def executeBlock (i : Instr) : Config → Core → Executed :=
  match i with
  | .lui _ imm20 => xLui imm20
  | .auipc _ imm20 => xAuipc imm20
  | .addi _ _ imm => xAddi imm
  | .slti _ _ imm => xSlti imm
  | .sltiu _ _ imm => xSltiu imm
  | .xori _ _ imm => xXori imm
  | .ori _ _ imm => xOri imm
  | .andi _ _ imm => xAndi imm
  | .slli _ _ shamt => xSlli shamt
  | .srli _ _ shamt => xSrli shamt
  | .srai _ _ shamt => xSrai shamt
  | .add _ _ _ => xAdd
  | .sub _ _ _ => xSub
  | .sll _ _ _ => xSll
  | .slt _ _ _ => xSlt
  | .sltu _ _ _ => xSltu
  | .xor _ _ _ => xXor
  | .srl _ _ _ => xSrl
  | .sra _ _ _ => xSra
  | .or _ _ _ => xOr
  | .and _ _ _ => xAnd
  | .jal _ offset => xJal offset
  | .jalr _ _ imm => xJalr imm
  | .beq _ _ offset => xBeq offset
  | .bne _ _ offset => xBne offset
  | .blt _ _ offset => xBlt offset
  | .bge _ _ offset => xBge offset
  | .bltu _ _ offset => xBltu offset
  | .bgeu _ _ offset => xBgeu offset
  | .lb _ _ imm => xLb imm
  | .lh _ _ imm => xLh imm
  | .lw _ _ imm => xLw imm
  | .lbu _ _ imm => xLbu imm
  | .lhu _ _ imm => xLhu imm
  | .sb _ _ imm => xSb imm
  | .sh _ _ imm => xSh imm
  | .sw _ _ imm => xSw imm
  | .ecall => xEcall
  | .csrrw _ csr _ => xCsrrw csr
  | .csrrs _ csr rs1 => xCsrrs csr rs1
  | .csrrc _ csr rs1 => xCsrrc csr rs1
  | .csrrwi _ csr uimm => xCsrrwi csr uimm
  | .csrrsi _ csr uimm => xCsrrsi csr uimm
  | .csrrci _ csr uimm => xCsrrci csr uimm

/-- What EXECUTE answers for the word in `d.ir` (R160, R161). -/
def executeWord (cfg : Config) (c : Core) : Executed :=
  match decodeWord c.d.ir with
  | .ok i => executeBlock i cfg c
  | .error _ => .raised .illegalInstruction

/-! ### One stage step (R150) -/

/-- One step in TRAP, by `trap_state`. TRAP with NONE is no state of the machine (10_state.md R28); it
enters the trap. -/
def State.trapStep (s : State) : Result :=
  match s.core.trapState with
  | .none => .next s.enterTrap
  | .enter => .next s.enterTrap
  | .handle => s.handleTrap
  | .exit => .next s.exitTrap

/-- One stage step of the current core (R150). -/
def State.stageStep (s : State) : Result :=
  match s.core.stage with
  | .fetch => s.fetchStage
  | .decode => .next s.decodeStage
  | .execute => .next (s.executeStage (executeWord s.cfg s.core))
  | .memory => s.memoryStage
  | .writeback => .next s.writebackStage
  | .trap => s.trapStep

/-! ### Whole instructions (R173) -/

/-- The rest of an instruction whose word has been fetched: its meaning, or ILLEGAL_INSTRUCTION. -/
def State.afterFetch (s : State) : Result :=
  match decodeWord s.core.d.ir with
  | .ok i => exec i s
  | .error _ => s.runIllegal

/-- The current core runs to its next boundary: the whole instruction it is about to fetch, the rest
of the one it is in, or one sub-step of a trap. -/
def State.runCore (s : State) : Result :=
  match s.core.stage with
  | .fetch => andThen s.fetchStage State.afterFetch
  | .decode => s.afterFetch
  | .execute =>
    andThen (.next (s.executeStage (executeWord s.cfg s.core))) State.afterExecute
  | .memory => s.afterExecute
  | .writeback => .next s.writebackStage
  | .trap => s.trapStep

/-! ### Which core steps (R175) -/

/-- All cores, in order of number. -/
def State.cores (s : State) : List Core := s.lower ++ s.core :: s.upper

/-- Give the turn to the core at position `k`, if there is one. -/
def State.focus (k : Nat) (s : State) : Option State :=
  match s.cores[k]? with
  | none => none
  | some c => some { s with lower := s.cores.take k, core := c, upper := s.cores.drop (k + 1) }

/-- The position of the first core that is not halted. -/
def firstRunning : List Core → Option Nat
  | [] => none
  | c :: cs => if c.halted then (firstRunning cs).map (· + 1) else some 0

/-- A scheduled turn: one stage step of core `k` (R175). A core that is halted takes no step (R174),
and there is no core beyond the last, so such a turn passes with no other change (log 4). -/
def State.turn (k : Nat) (s : State) : Result :=
  match s.focus k with
  | none => .next s
  | some s' => if s'.core.halted then .next s else s'.stageStep

/-- A step with no turn scheduled: the current core runs on; if it is halted, the first core that is
not; if all are, the run is over (R174; 70_reset_and_hazards.md R364). -/
def State.runOn (s : State) : Result :=
  if s.core.halted then
    match firstRunning s.cores with
    | none => .fault .allHalted
    | some k =>
      match s.focus k with
      | none => .fault .allHalted
      | some s' => s'.runCore
  else s.runCore

/-- The machine's step (R175). -/
def State.machineStep (s : State) : Result :=
  match s.schedule with
  | [] => s.runOn
  | k :: ks => { s with schedule := ks }.turn k

/-! ### Placing an instruction where the next step fetches -/

/-- The current core is about to fetch, and `w` is the next word of its prefetch queue, which is where
FETCH takes its word from (R151). No turn is scheduled, so the next step is the whole instruction
(log 5). -/
def State.fetchNext (s : State) (w : Word) : State :=
  { s with
    schedule := []
    core := { s.core with
      stage := .fetch, trapState := .none, halted := false, prefetch := [w] } }

end Sys2Proof.Machine
end

