-- ==== Sys2Proof/Machine/Step.lean ====
section
/-! DEFINITION. The step of the machine, and the host's way to place one instruction. -/

namespace Sys2Proof.Machine

/-- One step: a whole instruction or trap sub-step of the current core, or, where `schedule` names a
core, one stage step of that core. -/
def step (s : State) : Host.Outcome State Fault Refusal := s.machineStep

/-- The state `s` with the instruction whose bits are `w` where the next step fetches it. -/
def State.withFetchWord (s : State) (nbits w : Nat) : State :=
  s.fetchNext (BitVec.ofNat 32 (w % 2 ^ nbits))

end Sys2Proof.Machine
end

