-- ==== Sys2Proof/Safety.lean ====
section
/-! DEFINITION. The terms in which claims speak of the machine: what an instruction that completes
leaves and keeps, what a store does to memory, what entering a trap records, where a bus access
reaches, and the invariant of every run. -/

namespace Sys2Proof.Machine

/-! ### Values -/

/-- A 12-bit immediate as an integer: `imm12 < 2048 ? imm12 : imm12 - 4096` (00_scope.md R11). -/
def immValue (imm : BitVec 12) : Int :=
  if imm.toNat < 2048 then (imm.toNat : Int) else (imm.toNat : Int) - 4096

/-- The halfword at `a`, little-endian (20_memory.md R100). -/
def MemoryUnit.halfAt (mu : MemoryUnit) (a : Nat) : BitVec 16 := mu.byteAt (a + 1) ++ mu.byteAt a

/-- The word at `a`, little-endian (20_memory.md R100). -/
def MemoryUnit.wordAt (mu : MemoryUnit) (a : Nat) : Word :=
  mu.byteAt (a + 3) ++ mu.byteAt (a + 2) ++ mu.byteAt (a + 1) ++ mu.byteAt a

/-- The opcode and funct3 that encode the instruction. -/
def Encoded (i : Instr) (opcode : BitVec 7) (f3 : BitVec 3) : Prop :=
  opcodeOf (encode i) = opcode ∧ funct3Of (encode i) = f3

/-- The opcode, funct3 and funct7 that encode the instruction. -/
def EncodedR (i : Instr) (opcode : BitVec 7) (f3 : BitVec 3) (f7 : BitVec 7) : Prop :=
  Encoded i opcode f3 ∧ funct7Of (encode i) = f7

/-- The base, the displacement and the width of a load (43_load_store.md R250 to R255). -/
def loadOf : Instr → Option (RegIdx × BitVec 12 × Width)
  | .lb _ rs1 imm => some (rs1, imm, .byte)
  | .lbu _ rs1 imm => some (rs1, imm, .byte)
  | .lh _ rs1 imm => some (rs1, imm, .halfword)
  | .lhu _ rs1 imm => some (rs1, imm, .halfword)
  | .lw _ rs1 imm => some (rs1, imm, .word)
  | _ => none

/-- The base, the displacement and the width of a store (43_load_store.md R256 to R259). -/
def storeOf : Instr → Option (RegIdx × BitVec 12 × Width)
  | .sb _ rs1 imm => some (rs1, imm, .byte)
  | .sh _ rs1 imm => some (rs1, imm, .halfword)
  | .sw _ rs1 imm => some (rs1, imm, .word)
  | _ => none

/-- The CSR address of a CSR instruction (44_system.md R277). -/
def csrAddrOf : Instr → Option CsrAddr
  | .csrrw _ csr _ => some csr
  | .csrrs _ csr _ => some csr
  | .csrrc _ csr _ => some csr
  | .csrrwi _ csr _ => some csr
  | .csrrsi _ csr _ => some csr
  | .csrrci _ csr _ => some csr
  | _ => none

/-! ### Frames -/

/-- Everything outside the current core and the MemoryUnit is as before. -/
structure OthersKept (s t : State) : Prop where
  cfg : t.cfg = s.cfg
  lower : t.lower = s.lower
  upper : t.upper = s.upper
  handler : t.handler = s.handler
  schedule : t.schedule = s.schedule

/-- What an instruction that completes has done to its core, CSRs and memory apart: register `rd`
holds `v` (nothing is written where `rd` is 0), every other register is as before, the `pc` and the
prefetch queue are as said, four stages after FETCH have been counted (40_pipeline_stages.md R172,
R173), and the rest of the core and of the machine is as before. The record `d` is transient
(10_state.md R31) and is not named. -/
structure Retired (s t : State) (rd : RegIdx) (v pc' : Word) (queue : List Word) : Prop where
  others : OthersKept s t
  regs : ∀ r, t.core.x r = if r = rd ∧ r ≠ 0 then v else s.core.x r
  pc : t.core.pc = pc'
  prefetch : t.core.prefetch = queue
  stage : t.core.stage = .fetch
  cycle : t.core.cycle = (s.core.cycle + 4) % 2 ^ s.cfg.cycleWidth
  id : t.core.id = s.core.id
  halted : t.core.halted = s.core.halted
  trap : t.core.trap = s.core.trap
  trapState : t.core.trapState = s.core.trapState
  hostResults : t.core.hostResults = s.core.hostResults

/-- `i` completes, and changes no CSR, no byte, permission or other part of the MemoryUnit. -/
def Retires (i : Instr) (s : State) (rd : RegIdx) (v pc' : Word) (queue : List Word) : Prop :=
  ∃ t, exec i s = .next t ∧ Retired s t rd v pc' queue ∧ t.core.csr = s.core.csr ∧ t.mu = s.mu

/-- The shape of every rule of 41_integer_computational.md. The EXECUTE block puts `f` of `pc` and of
the two source values into the ALU output and asks for a register write; the whole instruction
writes `f` of `pc`, `x[rs1]` and `x[rs2]` to `rd` and moves on by 4. -/
def AluRule (i : Instr) (rd rs1 rs2 : RegIdx) (f : Word → Word → Word → Word) (s : State) : Prop :=
  (∀ cfg c, executeBlock i cfg c =
    .done { c.d.cleared with aluOut := f c.pc c.d.rs1v c.d.rs2v, writeRd := true }) ∧
  Retires i s rd (f s.core.pc (s.core.x rs1) (s.core.x rs2)) (s.core.pc + 4) s.core.prefetch

/-- A CSR instruction completes (44_system.md R277): `rd` gets the old value of the CSR, which holds
`new` afterwards if the instruction writes and its old value if not. Every other CSR and all of
memory are as before. -/
def CsrRule (i : Instr) (rd : RegIdx) (csr : CsrAddr) (writes : Bool) (new : Word) (s : State) :
    Prop :=
  ∃ t, exec i s = .next t ∧
    Retired s t rd (s.core.csr.read csr) (s.core.pc + 4) s.core.prefetch ∧ t.mu = s.mu ∧
    ∀ a, t.core.csr.read a = if a = csr ∧ writes = true then new else s.core.csr.read a

/-- A branch whose condition is `cond` (42_control_transfer.md R238): taken, it goes to `pc` plus the
offset and empties the prefetch queue; not taken, it goes to `pc + 4` and keeps the queue. It writes
no register. -/
def BranchRule (i : Instr) (cond : Bool) (offset : BitVec 13) (s : State) : Prop :=
  Retires i s 0 0
    (if cond then BitVec.ofInt 32 (s.core.pc.toNat + offset.toInt) else s.core.pc + 4)
    (if cond then [] else s.core.prefetch)

/-! ### Bus accesses -/

/-- The range of `n` bytes at `a` is in bounds: inside the arena (20_memory.md R66, R67) and not past
2^32 (R70). -/
abbrev InBounds (mu : MemoryUnit) (a n : Nat) : Prop :=
  mu.base ≤ a ∧ a + n ≤ mu.base + mu.size ∧ a + n ≤ 2 ^ 32

/-- An access of width `w` at bus address `ea` passes the alignment test, is routed to `dev`, which is
memory-backed, and is in bounds at the MemoryUnit address of `ea` (20_memory.md R87, R85). That the
device may end inside the access is log 24, that its base may differ from the arena's log 26, and that
it may share the arena with other memory-backed devices log 29. -/
structure Reaches (s : State) (ea : Word) (w : Width) (dev : Device) : Prop where
  aligned : ea.toNat % w.bytes = 0
  routed : findDevice s.cfg ea = some dev
  backed : dev.kind.memoryBacked = true
  inBounds : InBounds s.mu (deviceAddr s.mu dev ea) w.bytes

/-- Every byte of the range satisfies the access (20_memory.md R61). -/
def Permitted (mu : MemoryUnit) (acc : Access) (a n : Nat) : Prop :=
  ∀ k, k < n → permOk (mu.permAt (a + k)) acc = true

/-- The whole window of `PREFETCH_DEPTH` words at `pc` is "in one device, inside the MemoryUnit, and
[...] fetch-permitted" (40_pipeline_stages.md R151; 20_memory.md R92, R94), and below 2^32 (R70), and
that device's base is the arena's (70_reset_and_hazards.md R357). -/
structure FetchWindow (s : State) (dev : Device) : Prop where
  base : dev.base = s.mu.base
  inDevice : s.core.pc.toNat + 4 * s.cfg.prefetchDepth ≤ dev.base + dev.size
  inSpace : s.core.pc.toNat + 4 * s.cfg.prefetchDepth ≤ 2 ^ 32
  inArena : deviceAddr s.mu dev s.core.pc + 4 * s.cfg.prefetchDepth ≤ s.mu.base + s.mu.size
  readable : Permitted s.mu .read (deviceAddr s.mu dev s.core.pc) (4 * s.cfg.prefetchDepth)
  executable : s.cfg.fetchRequiresExec = true →
    Permitted s.mu .exec (deviceAddr s.mu dev s.core.pc) (4 * s.cfg.prefetchDepth)

/-- The MemoryUnit after a write of `n` bytes at `a` (20_memory.md R66), of which byte `k` is
`byte k`: the bytes, the RAW promotion of those that had RAW, the dirty pages, and nothing else. -/
structure StoredBytes (cfg : Config) (mu mu' : MemoryUnit) (a n : Nat) (byte : Nat → Byte) :
    Prop where
  bytes : ∀ k, k < n → mu'.byteAt (a + k) = byte k
  promoted : ∀ k, k < n → mu'.permAt (a + k) =
    if (mu.permAt (a + k)).raw then ⟨true, true, (mu.permAt (a + k)).exec, false⟩
    else mu.permAt (a + k)
  otherBytes : ∀ b, b < a ∨ a + n ≤ b → mu'.byteAt b = mu.byteAt b
  otherPerms : ∀ b, b < a ∨ a + n ≤ b → mu'.permAt b = mu.permAt b
  dirty : ∀ p, mu'.isDirty p = true ↔
    mu.isDirty p = true ∨ ∃ k, k < n ∧ p = (a + k - mu.base) / cfg.pageSize
  base : mu'.base = mu.base
  size : mu'.size = mu.size
  currVaddr : mu'.currVaddr = mu.currVaddr
  fresh : mu'.fresh = mu.fresh

/-- The MemoryUnit after a write of the low `n` bytes of `v` at `a`, little-endian (20_memory.md R66,
R100). -/
abbrev Stored (cfg : Config) (mu mu' : MemoryUnit) (a n : Nat) (v : Word) : Prop :=
  StoredBytes cfg mu mu' a n fun k => v.extractLsb' (8 * k) 8

/-- A store of width `w` whose value is `v` completes (43_load_store.md R256): the bytes at the
MemoryUnit address that `deviceAddr` gives for `ea` on `dev`, `pc + 4`, and nothing else. -/
def StoreRule (i : Instr) (ea : Word) (dev : Device) (w : Width) (v : Word) (s : State) : Prop :=
  ∃ t, exec i s = .next t ∧ Retired s t 0 0 (s.core.pc + 4) s.core.prefetch ∧
    t.core.csr = s.core.csr ∧ Stored s.cfg s.mu t.mu (deviceAddr s.mu dev ea) w.bytes v

/-- A MEMORY stage that goes on (40_pipeline_stages.md R165, R172): the MemoryUnit and the record are as
said, and the rest but the cycle counter and the stage is as before. -/
structure MemoryDone (s t : State) (mu : MemoryUnit) (d : Decoded) : Prop where
  others : OthersKept s t
  mu : t.mu = mu
  core : t.core = { s.core with
    d := d, stage := .writeback, cycle := (s.core.cycle + 1) % 2 ^ s.cfg.cycleWidth }

/-- A MEMORY stage that raises `e` (40_pipeline_stages.md R166, R172): no register, byte or record is
written, and the `pc` is the one ENTER will save in `mepc`. -/
structure MemoryRaised (s t : State) (e : Cause) : Prop where
  others : OthersKept s t
  mu : t.mu = s.mu
  core : t.core = { s.core with
    trap := { s.core.trap with cause := e }, stage := .trap, trapState := .enter
    cycle := (s.core.cycle + 1) % 2 ^ s.cfg.cycleWidth }
  mepc : t.enterTrap.core.csr.read 0x341 = s.core.pc

/-! ### Traps -/

/-- The core has raised `e` and entered the trap (60_exceptions.md R310, R311), `n` steps after
`s`: the snapshot, the saved `pc`, `mepc` and `mcause` are written, `pc` is the trap vector, the
prefetch queue is empty, and every register, every other CSR, all of memory and the rest of the
machine are as before. -/
structure TrapEntered (s t : State) (e : Cause) (n : Nat) : Prop where
  others : OthersKept s t
  mu : t.mu = s.mu
  regs : ∀ r, t.core.x r = s.core.x r
  pc : t.core.pc = s.cfg.trapVector
  prefetch : t.core.prefetch = []
  stage : t.core.stage = .trap
  trapState : t.core.trapState = .handle
  snapshot : ∀ r : RegIdx, t.core.trap.snapshot[r.toNat] = s.core.x r
  savedPc : t.core.trap.savedPc = s.core.pc
  cause : t.core.trap.cause = e
  csr : ∀ a, t.core.csr.read a =
    if a = 0x341 then s.core.pc else if a = 0x342 then e.code else s.core.csr.read a
  cycle : t.core.cycle = (s.core.cycle + n) % 2 ^ s.cfg.cycleWidth
  id : t.core.id = s.core.id
  halted : t.core.halted = s.core.halted
  hostResults : t.core.hostResults = []

/-- `i` raises `e` and enters the trap, `n` stage steps after FETCH. That `exec` runs on through ENTER is
the model's choice (log 3). -/
def Traps (i : Instr) (s : State) (e : Cause) (n : Nat) : Prop :=
  ∃ t, exec i s = .next t ∧ TrapEntered s t e n

/-! ### Steps -/

/-- The state after a FETCH that took `w` and left `rest` in the queue (40_pipeline_stages.md R151,
R172). -/
def State.fetched (s : State) (w : Word) (rest : List Word) : State :=
  { s with core := { s.core with
      prefetch := rest
      d := { s.core.d with ir := w }
      stage := .decode
      cycle := (s.core.cycle + 1) % 2 ^ s.cfg.cycleWidth } }

/-- The next step is the next whole instruction of the current core. -/
structure AboutToFetch (s : State) : Prop where
  noTurn : s.schedule = []
  running : s.core.halted = false
  stage : s.core.stage = .fetch

/-- `n` stage turns of core `k`, one after another. -/
def State.turns (k : Nat) : Nat → State → Result
  | 0, s => .next s
  | n + 1, s =>
    match s.turn k with
    | .next t => State.turns k n t
    | .fault f => .fault f
    | .refused x => .refused x

/-- Every device of the map is memory-backed, which is the scope of the spec (20_memory.md R85). -/
def DevicesBacked (cfg : Config) : Prop := ∀ dev ∈ cfg.devices, dev.kind.memoryBacked = true

/-! ### The invariant of every run -/

/-- The registers that an instruction leaves in the trap snapshot, slot 10 apart, which belongs to
the handler (60_exceptions.md R322). -/
def Core.SnapshotKept (c : Core) : Prop :=
  ∀ r : RegIdx, r ≠ 10 → c.trap.snapshot[r.toNat] = c.x r

/-- What holds of a core in every state of a run. -/
structure Core.Ok (cfg : Config) (c : Core) : Prop where
  /-- 10_state.md R28: `trap_state` is NONE exactly when `state ≠ TRAP`. -/
  trapState : c.trapState = .none ↔ c.stage ≠ .trap
  /-- 10_state.md R29 -/
  queue : c.prefetch.length ≤ cfg.prefetchDepth
  /-- 10_state.md R32 -/
  cycle : c.cycle < 2 ^ cfg.cycleWidth
  /-- 10_state.md R40: the file holds values for addresses of `CSR_SET` only, in canonical form. -/
  csrExtra : Cells.wf 0 c.csr.extra ∧
    ∀ e ∈ c.csr.extra, ∃ a : CsrAddr, e.1 = a.toNat ∧ cfg.csrSet.contains a = true
  /-- 60_exceptions.md R312: a core halts only in HANDLE, and stays there. -/
  halted : c.halted = true → c.stage = .trap ∧ c.trapState = .handle
  /-- 60_exceptions.md R301, R311, R314: from ENTER to EXIT the trap's record stands. -/
  inTrap : c.trapState = .handle ∨ c.trapState = .exit →
    c.pc = cfg.trapVector ∧ c.prefetch = [] ∧ c.csr.mepc = c.trap.savedPc ∧
    c.csr.mcause = c.trap.cause.code ∧ c.SnapshotKept
  /-- 40_pipeline_stages.md R155, R157; 70_reset_and_hazards.md R361: after DECODE the record holds
  the fields of `d.ir`, and the register values it read are still those of the registers. -/
  record : c.stage = .execute ∨ c.stage = .memory ∨ c.stage = .writeback →
    c.d.fill c.x = c.d ∧ c.d.opType ≠ .Unknown
  /-- 40_pipeline_stages.md R160, R165: after EXECUTE the word is an instruction, and it does not both
  read and write memory. -/
  executed : c.stage = .memory ∨ c.stage = .writeback →
    (∃ i, decodeWord c.d.ir = .ok i) ∧ (c.d.readMem && c.d.writeMem) = false ∧
    (c.d.csrWrite = true → implementsCsr cfg c.d.csr = true)

/-- What holds of the MemoryUnit: canonical form; content and dirty pages inside the arena
(10_state.md R52, R54). -/
structure MemoryUnit.Ok (cfg : Config) (mu : MemoryUnit) : Prop where
  wf : Memory.wf mu
  data : ∀ e ∈ mu.data, mu.base ≤ e.1 ∧ e.1 < mu.base + mu.size
  dirty : ∀ p ∈ mu.dirty, p * cfg.pageSize < mu.size

/-- The invariant: the MemoryUnit and every core are as they may be, and a core's `id` is its place
(10_state.md R34). -/
structure State.Inv (s : State) : Prop where
  mu : s.mu.Ok s.cfg
  cores : ∀ (k : Nat) (c : Core), s.cores[k]? = some c → c.id = k ∧ c.Ok s.cfg

end Sys2Proof.Machine
end

