-- ==== Sys2Proof/Certificates/Slice0/Obligations.lean ====
section
/-! DEFINITION. The statements for the provers. Each docstring names the rule of the spec it
formalises, and what in it is the spec's own decision or the model's choice. -/

open Sys2Proof Sys2Proof.Machine

/-! ### Reset and registers -/

/-- 10_state.md R56, 70_reset_and_hazards.md R350, R353 (`state` and `trap_state` at reset are the
spec's decision D19; `opType` and `memWidth` of the record are the model's choice, log 10, and left
open here). Every core of a booted machine, whatever the parameters. -/
def Obligations.ResetCores : Prop :=
  ∀ (cfg : Config), (State.boot cfg).cores.length = cfg.nCores ∧
    ∀ (k : Nat) (c : Core), (State.boot cfg).cores[k]? = some c →
      c.id = k ∧ (cfg.entryPc :: cfg.entryPcMore)[k]? = some c.pc ∧ (∀ r, c.x r = 0) ∧
      c.stage = .fetch ∧ c.trapState = .none ∧ c.prefetch = [] ∧ c.cycle = 0 ∧
      c.halted = false ∧ (∀ r : RegIdx, c.trap.snapshot[r.toNat] = 0) ∧ c.trap.savedPc = 0 ∧
      c.trap.cause.code = 0 ∧ (∀ a, c.csr.read a = 0) ∧
      ∃ ty w, c.d = { Decoded.reset with opType := ty, memWidth := w }

/-- 20_memory.md R62, 10_state.md R52, 70_reset_and_hazards.md R351 (`curr_vaddr` is decision D29). The
parameters of `State.reset` are the model's choice (log 1). -/
def Obligations.ResetMemory : Prop :=
  State.reset = State.boot Config.platform ∧
  ∀ (cfg : Config) (a p : Nat),
    (State.boot cfg).mu.base = cfg.memBase ∧ (State.boot cfg).mu.size = cfg.memSize ∧
    (State.boot cfg).mu.byteAt a = 0 ∧
    (State.boot cfg).mu.permAt a = ⟨false, true, false, true⟩ ∧
    (State.boot cfg).mu.isDirty p = false ∧ (State.boot cfg).mu.currVaddr = cfg.allocStart

/-- 10_state.md R22, R23: register 0 reads 0 and discards writes; every other register holds what was
written last. -/
def Obligations.RegisterZero : Prop :=
  ∀ (c : Core) (i r : RegIdx) (v : Word),
    c.x 0 = 0 ∧ c.setX 0 v = c ∧
    (i ≠ 0 → (c.setX i v).x i = v) ∧ (r ≠ i → (c.setX i v).x r = c.x r)

/-- 10_state.md R23: a write of register 0 is discarded, a write of another register replaces its
value, and, over every state, "the only places general registers are written are the writeback stage
[...] and the trap exit". -/
def Obligations.OnlyWritebackAndExitWriteRegisters : Prop :=
  (∀ (c : Core) (v : Word), c.setX 0 v = c ∧
    ∀ i r : RegIdx, i ≠ 0 → (c.setX i v).x r = if r = i then v else c.x r) ∧
  ∀ (s t : State) (r : RegIdx), s.stageStep = .next t → t.core.x r ≠ s.core.x r →
    r ≠ 0 ∧
    ((s.core.stage = .writeback ∧ s.core.d.writeRd = true ∧ r = s.core.d.rd ∧
        t.core.x r = s.core.d.aluOut) ∨
     (s.core.stage = .trap ∧ s.core.trapState = .exit ∧
        t.core.x r = s.core.trap.snapshot[r.toNat]))

/-! ### The MemoryUnit -/

/-- 20_memory.md R61, R67, and R70 (decision D20), by which a range past 2^32 is out of bounds too. A
read gives no new MemoryUnit, so it changes no state. -/
def Obligations.MemoryRead : Prop :=
  (∀ p : Perm,
    (permOk p .read = true ↔ p.read = true) ∧
    (permOk p .write = true ↔ p.write = true ∨ p.raw = true) ∧
    (permOk p .exec = true ↔ p.exec = true)) ∧
  ∀ (mu : MemoryUnit) (a len : Nat),
    (¬InBounds mu a len → mu.read [.read] a len = .pageFault) ∧
    (InBounds mu a len →
      (¬Permitted mu .read a len → mu.read [.read] a len = .denied) ∧
      (Permitted mu .read a len →
        mu.read [.read] a len = .ok ((List.range len).map fun k => mu.byteAt (a + k))))

/-- 20_memory.md R66, and R70 (decision D20), by which a range past 2^32 is out of bounds too. A failed
write answers no MemoryUnit, so it changes nothing. The premise is the canonical form, which every run
keeps (`Obligations.StepKeepsInv`). -/
def Obligations.MemoryWrite : Prop :=
  ∀ (cfg : Config) (mu : MemoryUnit) (a : Nat) (bs : List Byte), Memory.wf mu →
    (¬InBounds mu a bs.length → mu.write cfg a bs = .pageFault) ∧
    (InBounds mu a bs.length →
      (¬Permitted mu .write a bs.length → mu.write cfg a bs = .denied) ∧
      (Permitted mu .write a bs.length →
        ∃ mu', mu.write cfg a bs = .ok mu' ∧
          (∀ k, k < bs.length → mu'.byteAt (a + k) = bs.getD k 0) ∧
          (∀ b, b < a ∨ a + bs.length ≤ b → mu'.byteAt b = mu.byteAt b) ∧
          (∀ k, k < bs.length → mu'.permAt (a + k) =
            if (mu.permAt (a + k)).raw then ⟨true, true, (mu.permAt (a + k)).exec, false⟩
            else mu.permAt (a + k)) ∧
          (∀ b, b < a ∨ a + bs.length ≤ b → mu'.permAt b = mu.permAt b) ∧
          (∀ p, mu'.isDirty p = true ↔ mu.isDirty p = true ∨
            ∃ k, k < bs.length ∧ p = (a + k - mu.base) / cfg.pageSize) ∧
          mu'.base = mu.base ∧ mu'.size = mu.size ∧ mu'.currVaddr = mu.currVaddr))

/-- 20_memory.md R68: what was written can be read back if it was readable or RAW before; a byte
without READ cannot be read, RAW or not; promotion is per byte, so a range with an unreadable byte
outside the write stays unreadable. -/
def Obligations.RawPromotion : Prop :=
  ∀ (cfg : Config) (mu mu' : MemoryUnit) (a : Nat) (bs : List Byte), Memory.wf mu →
    mu.write cfg a bs = .ok mu' →
    ((∀ k, k < bs.length → (mu.permAt (a + k)).read = true ∨ (mu.permAt (a + k)).raw = true) →
      mu'.read [.read] a bs.length = .ok bs) ∧
    ∀ b n c, b ≤ c → c < b + n → (mu.permAt c).read = false →
      (∀ r, mu.read [.read] b n ≠ .ok r) ∧
      (c < a ∨ a + bs.length ≤ c → ∀ r, mu'.read [.read] b n ≠ .ok r)

/-- 20_memory.md R63 (decisions D28, D29), and R70 (decision D20), by which a range past 2^32 is out of
bounds, also under a larger `MEM_LIMIT`; that `add_memory` then fails is log 25 (DEDUCED). The content
of a new byte is a free value (log 8) and is not named. -/
def Obligations.AddMemory : Prop :=
  ∀ (cfg : Config) (mu : MemoryUnit) (addr size : Nat) (p : Perm), Memory.wf mu →
    (addr < mu.base ∨ cfg.memLimit < addr + size ∨ 2 ^ 32 < addr + size →
      mu.addMemory cfg addr size p = (false, mu)) ∧
    (mu.base ≤ addr → addr + size ≤ cfg.memLimit → addr + size ≤ 2 ^ 32 →
      ∃ mu', mu.addMemory cfg addr size p = (true, mu') ∧
        mu'.base = mu.base ∧ mu'.size = max mu.size (addr + size - mu.base) ∧
        mu'.currVaddr = mu.currVaddr ∧ mu'.dirty = mu.dirty ∧
        (∀ a, a < mu.base + mu.size ∨ addr + size ≤ a → mu'.byteAt a = mu.byteAt a) ∧
        ∀ a, mu'.permAt a =
          if addr ≤ a ∧ a < addr + size then p
          else if mu.base + mu.size ≤ a ∧ a < addr + size then ⟨false, false, false, false⟩
          else mu.permAt a)

/-- 20_memory.md R64 (decision D29), R65 (decision D28), and R70 (decision D20), by which a range past
2^32 is out of bounds, whatever the arena's end; that `allocate` then fails, its padding counted, is
log 25 (DEDUCED). That `MEM_LIMIT` is not looked at, also in an arena that ends above it, is the model's
choice (log 28). `n` is the least multiple of 16 that is at least `size`. -/
def Obligations.AllocateAndSetPerm : Prop :=
  ∀ (mu : MemoryUnit) (size n : Nat) (p : Perm), Memory.wf mu →
    (n % 16 = 0 → size ≤ n → n < size + 16 →
      (mu.base + mu.size < mu.currVaddr + n ∨ 2 ^ 32 < mu.currVaddr + n →
        mu.allocate size p = (none, mu)) ∧
      (mu.currVaddr + n ≤ mu.base + mu.size → mu.currVaddr + n ≤ 2 ^ 32 →
        ∃ mu', mu.allocate size p = (some mu.currVaddr, mu') ∧
          mu'.currVaddr = mu.currVaddr + n ∧ mu'.data = mu.data ∧ mu'.dirty = mu.dirty ∧
          mu'.base = mu.base ∧ mu'.size = mu.size ∧
          ∀ a, mu'.permAt a =
            if mu.currVaddr ≤ a ∧ a < mu.currVaddr + size then p else mu.permAt a)) ∧
    ∀ addr len,
      (¬InBounds mu addr len → mu.setPerm addr len p = (false, mu)) ∧
      (InBounds mu addr len →
        ∃ mu', mu.setPerm addr len p = (true, mu') ∧ mu'.data = mu.data ∧
          mu'.dirty = mu.dirty ∧ mu'.base = mu.base ∧ mu'.size = mu.size ∧
          mu'.currVaddr = mu.currVaddr ∧
          ∀ a, mu'.permAt a = if addr ≤ a ∧ a < addr + len then p else mu.permAt a)

/-! ### The bus -/

/-- 20_memory.md R81: the first device of the list that contains the address, or none. -/
def Obligations.FirstDeviceWins : Prop :=
  ∀ (cfg : Config) (addr : Word),
    (∀ dev, findDevice cfg addr = some dev ↔
      ∃ before after, cfg.devices = before ++ dev :: after ∧
        dev.base ≤ addr.toNat ∧ addr.toNat < dev.base + dev.size ∧
        ∀ e ∈ before, ¬(e.base ≤ addr.toNat ∧ addr.toNat < e.base + e.size)) ∧
    (findDevice cfg addr = none ↔
      ∀ e ∈ cfg.devices, ¬(e.base ≤ addr.toNat ∧ addr.toNat < e.base + e.size))

/-- 20_memory.md R87, R88, R90, R92 (decisions D2, D3, D4, D7, D1): the alignment test, the device, the
bounds, the permission, in this order; then the value, or the `count` values, little-endian. A read
of several units must also lie in the one device and below 2^32 (40_pipeline_stages.md R151, R70); that
a single read need not, and that this comes before the permission, is the model's choice (log 24), and
so is that a device whose base is not the arena's is read by R85's formula (log 26) and that several
memory-backed devices share the one MemoryUnit (log 29). A device that is
not memory-backed has no rule (R85, log 15). -/
def Obligations.BusReadOrder : Prop :=
  (∀ (cfg : Config) (mu : MemoryUnit) (addr : Word) (w : Width),
    (addr.toNat % w.bytes ≠ 0 → memRead cfg mu addr w = .fail .readMisaligned) ∧
    (addr.toNat % w.bytes = 0 →
      (findDevice cfg addr = none → memRead cfg mu addr w = .fail .addressNotFound) ∧
      ∀ dev, findDevice cfg addr = some dev →
        (dev.kind.memoryBacked = false → memRead cfg mu addr w = .noRule dev.kind) ∧
        (dev.kind.memoryBacked = true →
          let a := mu.base + (addr.toNat - dev.base)
          (¬InBounds mu a w.bytes → memRead cfg mu addr w = .fail .deviceFailure) ∧
          (InBounds mu a w.bytes →
            (¬Permitted mu .read a w.bytes → memRead cfg mu addr w = .fail .accessDenied) ∧
            (Permitted mu .read a w.bytes →
              ∃ v : Word, memRead cfg mu addr w = .ok v ∧ v.toNat < 2 ^ (8 * w.bytes) ∧
                ∀ k, k < w.bytes → v.extractLsb' (8 * k) 8 = mu.byteAt (a + k)))))) ∧
  ∀ (cfg : Config) (mu : MemoryUnit) (addr : Word) (count : Nat) (w : Width),
    (addr.toNat % w.bytes ≠ 0 →
      memReadMulti cfg mu addr count w = .fail .readMisaligned) ∧
    (addr.toNat % w.bytes = 0 →
      (findDevice cfg addr = none →
        memReadMulti cfg mu addr count w = .fail .addressNotFound) ∧
      ∀ dev, findDevice cfg addr = some dev →
        (dev.kind.memoryBacked = false →
          memReadMulti cfg mu addr count w = .noRule dev.kind) ∧
        (dev.kind.memoryBacked = true →
          let n := count * w.bytes
          let a := mu.base + (addr.toNat - dev.base)
          (¬(addr.toNat + n ≤ dev.base + dev.size ∧ addr.toNat + n ≤ 2 ^ 32 ∧
              InBounds mu a n) →
            memReadMulti cfg mu addr count w = .fail .deviceFailure) ∧
          (addr.toNat + n ≤ dev.base + dev.size → addr.toNat + n ≤ 2 ^ 32 → InBounds mu a n →
            (¬Permitted mu .read a n →
              memReadMulti cfg mu addr count w = .fail .accessDenied) ∧
            (Permitted mu .read a n →
              ∃ vs, memReadMulti cfg mu addr count w = .ok vs ∧ vs.length = count ∧
                ∀ j, j < count → (vs.getD j 0).toNat < 2 ^ (8 * w.bytes) ∧
                  ∀ k, k < w.bytes →
                    (vs.getD j 0).extractLsb' (8 * k) 8 = mu.byteAt (a + j * w.bytes + k)))))

/-- 20_memory.md R86, R87, R88, R91, R93 (decisions D2, D3, D4, D6, D7, D1): the alignment test, the
device, its WRITE flag, the bounds, the permission, in this order; then the bytes of the value, or of
the values one after another, and nothing else. The bounds of a write of several units are those of
such a read (log 24), a device whose base is not the arena's is written by R85's formula (log 26), and
several memory-backed devices share the one MemoryUnit (log 29):
the model's choices. The premise `Memory.wf` is kept by every run (`Obligations.StepKeepsInv`). -/
def Obligations.BusWriteOrder : Prop :=
  (∀ (cfg : Config) (mu : MemoryUnit) (addr : Word) (w : Width) (v : Word), Memory.wf mu →
    (addr.toNat % w.bytes ≠ 0 → memWrite cfg mu addr w v = .fail .writeMisaligned) ∧
    (addr.toNat % w.bytes = 0 →
      (findDevice cfg addr = none → memWrite cfg mu addr w v = .fail .addressNotFound) ∧
      ∀ dev, findDevice cfg addr = some dev →
        (dev.writeFlag = false → memWrite cfg mu addr w v = .fail .accessDenied) ∧
        (dev.writeFlag = true → dev.kind.memoryBacked = false →
          memWrite cfg mu addr w v = .noRule dev.kind) ∧
        (dev.writeFlag = true → dev.kind.memoryBacked = true →
          let a := mu.base + (addr.toNat - dev.base)
          (¬InBounds mu a w.bytes → memWrite cfg mu addr w v = .fail .deviceFailure) ∧
          (InBounds mu a w.bytes →
            (¬Permitted mu .write a w.bytes → memWrite cfg mu addr w v = .fail .accessDenied) ∧
            (Permitted mu .write a w.bytes →
              ∃ mu', memWrite cfg mu addr w v = .ok mu' ∧ Stored cfg mu mu' a w.bytes v))))) ∧
  ∀ (cfg : Config) (mu : MemoryUnit) (addr : Word) (w : Width) (vs : List Word), Memory.wf mu →
    (addr.toNat % w.bytes ≠ 0 → memWriteMulti cfg mu addr w vs = .fail .writeMisaligned) ∧
    (addr.toNat % w.bytes = 0 →
      (findDevice cfg addr = none → memWriteMulti cfg mu addr w vs = .fail .addressNotFound) ∧
      ∀ dev, findDevice cfg addr = some dev →
        (dev.writeFlag = false → memWriteMulti cfg mu addr w vs = .fail .accessDenied) ∧
        (dev.writeFlag = true → dev.kind.memoryBacked = false →
          memWriteMulti cfg mu addr w vs = .noRule dev.kind) ∧
        (dev.writeFlag = true → dev.kind.memoryBacked = true →
          let n := vs.length * w.bytes
          let a := mu.base + (addr.toNat - dev.base)
          (¬(addr.toNat + n ≤ dev.base + dev.size ∧ addr.toNat + n ≤ 2 ^ 32 ∧
              InBounds mu a n) →
            memWriteMulti cfg mu addr w vs = .fail .deviceFailure) ∧
          (addr.toNat + n ≤ dev.base + dev.size → addr.toNat + n ≤ 2 ^ 32 → InBounds mu a n →
            (¬Permitted mu .write a n → memWriteMulti cfg mu addr w vs = .fail .accessDenied) ∧
            (Permitted mu .write a n →
              ∃ mu', memWriteMulti cfg mu addr w vs = .ok mu' ∧ StoredBytes cfg mu mu' a n fun k =>
                (vs.getD (k / w.bytes) 0).extractLsb' (8 * (k % w.bytes)) 8))))

/-! ### Encoding -/

/-- 30_encoding.md R130 to R137 and the worked words of files 41 to 44: words of every family decode to
the instruction the spec says they are. A sanity statement. -/
def Obligations.DecodesWords : Prop :=
  decodeWord 0x123452B7 = .ok (.lui 5 0x12345) ∧
  decodeWord 0xFFF00093 = .ok (.addi 1 0 (-1)) ∧
  decodeWord 0x40435293 = .ok (.srai 5 6 4) ∧
  decodeWord 0x407302B3 = .ok (.sub 5 6 7) ∧
  decodeWord 0xFF9FF06F = .ok (.jal 0 (-8)) ∧
  decodeWord 0x00008067 = .ok (.jalr 0 1 0) ∧
  decodeWord 0xFE629EE3 = .ok (.bne 5 6 (-4)) ∧
  decodeWord 0x00231283 = .ok (.lh 5 6 2) ∧
  decodeWord 0xFE732E23 = .ok (.sw 7 6 (-4)) ∧
  decodeWord 0x00000073 = .ok .ecall ∧
  decodeWord 0x30047073 = .ok (.csrrci 0 0x300 8) ∧
  decodeWord 0x00100073 = .error .badFunctionCode ∧
  decodeWord 0x0FF0000F = .error .unknownOpcode

/-- Headline: for every well-formed instruction, with every operand at every value its encoding
admits, decoding its bytes gives it back, and nothing of the bytes after them is used. -/
def Obligations.DecodeEncode : Prop :=
  ∀ (i : Instr) (rest : List Byte), i.wf = true →
    decodeBytes (encodeBytes i ++ rest) = .ok (i, rest)

/-- The other direction: a word that decodes is the encoding of what it decodes to, which is well
formed, so no two words are one instruction and no bit of a word is ignored. -/
def Obligations.EncodeDecode : Prop :=
  ∀ (w : Word) (i : Instr), decodeWord w = .ok i → i.wf = true ∧ encode i = w

/-- 30_encoding.md section 3: "an instruction word `w` is that instruction exactly when
`w & mask = match`", for every row of the opcode table. The words of the three upper-immediate rows,
of ECALL and of all others are told apart by these alone. -/
def Obligations.TableSelects : Prop :=
  ∀ (w : Word) (j : Instr),
    (w &&& j.row.mask = j.row.pattern ↔ ∃ i, decodeWord w = .ok i ∧ i.row = j.row)

/-- 30_encoding.md R124 to R129 and 43_load_store.md R260: what each immediate is worth, bit field by
bit field, as an integer; and the one addressing mode, base plus signed displacement modulo 2^32. -/
def Obligations.ImmediateValues : Prop :=
  (∀ (base : Word) (imm : BitVec 12),
    effectiveAddr base imm = BitVec.ofInt 32 (base.toNat + immValue imm)) ∧
  ∀ w : Word,
    let f : Nat → Nat → Int := fun lo n => ((w.toNat / 2 ^ lo) % 2 ^ n : Nat)
    (imm12 (immIOf w)).toInt = f 20 11 - 2048 * f 31 1 ∧
    (imm12 (immSOf w)).toInt = f 7 5 + 32 * f 25 6 - 2048 * f 31 1 ∧
    (immBranch (immBOf w)).toInt = 2 * f 8 4 + 32 * f 25 6 + 2048 * f 7 1 - 4096 * f 31 1 ∧
    (immUpper (immUOf w)).toNat = 4096 * f 12 20 ∧
    (immJump (immJOf w)).toInt =
      2 * f 21 10 + 2048 * f 20 1 + 4096 * f 12 8 - 1048576 * f 31 1 ∧
    (csrOf w).toNat = f 20 12 ∧ (uimm5 (rs1Of w)).toNat = f 15 5 ∧ (rs2Of w).toNat = f 20 5

/-! ### Integer computational instructions -/

/-- 41_integer_computational.md R200, R201. -/
def Obligations.UpperImmediate : Prop :=
  ∀ (s : State) (rd : RegIdx) (imm : BitVec 20),
    opcodeOf (encode (.lui rd imm)) = 0x37 ∧ opcodeOf (encode (.auipc rd imm)) = 0x17 ∧
    AluRule (.lui rd imm) rd 0 0 (fun _ _ _ => BitVec.ofNat 32 (imm.toNat * 4096)) s ∧
    AluRule (.auipc rd imm) rd 0 0
      (fun pc _ _ => BitVec.ofNat 32 (pc.toNat + imm.toNat * 4096)) s

/-- 41_integer_computational.md R202, R211, R212: sums and differences modulo 2^32. -/
def Obligations.AddSub : Prop :=
  ∀ (s : State) (rd rs1 rs2 : RegIdx) (imm : BitVec 12),
    Encoded (.addi rd rs1 imm) 0x13 0 ∧ EncodedR (.add rd rs1 rs2) 0x33 0 0 ∧
    EncodedR (.sub rd rs1 rs2) 0x33 0 0x20 ∧
    AluRule (.addi rd rs1 imm) rd rs1 0
      (fun _ a _ => BitVec.ofInt 32 (a.toInt + immValue imm)) s ∧
    AluRule (.add rd rs1 rs2) rd rs1 rs2 (fun _ a b => BitVec.ofNat 32 (a.toNat + b.toNat)) s ∧
    AluRule (.sub rd rs1 rs2) rd rs1 rs2 (fun _ a b => BitVec.ofInt 32 (a.toInt - b.toInt)) s

/-- 41_integer_computational.md R203, R214: signed comparison, 1 or 0. -/
def Obligations.CompareSigned : Prop :=
  ∀ (s : State) (rd rs1 rs2 : RegIdx) (imm : BitVec 12),
    Encoded (.slti rd rs1 imm) 0x13 0b010 ∧ EncodedR (.slt rd rs1 rs2) 0x33 0b010 0 ∧
    AluRule (.slti rd rs1 imm) rd rs1 0 (fun _ a _ => if a.toInt < immValue imm then 1 else 0) s ∧
    AluRule (.slt rd rs1 rs2) rd rs1 rs2 (fun _ a b => if a.toInt < b.toInt then 1 else 0) s

/-- 41_integer_computational.md R204, R215 (general knowledge, G5): unsigned comparison, of SLTIU with
the sign-extended immediate. -/
def Obligations.CompareUnsigned : Prop :=
  ∀ (s : State) (rd rs1 rs2 : RegIdx) (imm : BitVec 12),
    AluRule (.sltiu rd rs1 imm) rd rs1 0
      (fun _ a _ => if a.toNat < (BitVec.ofInt 32 (immValue imm)).toNat then 1 else 0) s ∧
    AluRule (.sltu rd rs1 rs2) rd rs1 rs2 (fun _ a b => if a.toNat < b.toNat then 1 else 0) s

/-- 41_integer_computational.md R205, R206, R207, R216, R219, R220 (general knowledge, G5): the bitwise
operations, of the immediate forms with the sign-extended immediate. -/
def Obligations.Bitwise : Prop :=
  ∀ (s : State) (rd rs1 rs2 : RegIdx) (imm : BitVec 12),
    AluRule (.xori rd rs1 imm) rd rs1 0 (fun _ a _ => a ^^^ BitVec.ofInt 32 (immValue imm)) s ∧
    AluRule (.ori rd rs1 imm) rd rs1 0 (fun _ a _ => a ||| BitVec.ofInt 32 (immValue imm)) s ∧
    AluRule (.andi rd rs1 imm) rd rs1 0 (fun _ a _ => a &&& BitVec.ofInt 32 (immValue imm)) s ∧
    AluRule (.xor rd rs1 rs2) rd rs1 rs2 (fun _ a b => a ^^^ b) s ∧
    AluRule (.or rd rs1 rs2) rd rs1 rs2 (fun _ a b => a ||| b) s ∧
    AluRule (.and rd rs1 rs2) rd rs1 rs2 (fun _ a b => a &&& b) s

/-- 41_integer_computational.md R208, R209, R213, R217: the zero-filling shifts. A register amount is
taken modulo 32. -/
def Obligations.ShiftLogical : Prop :=
  ∀ (s : State) (rd rs1 rs2 : RegIdx) (shamt : BitVec 5),
    AluRule (.slli rd rs1 shamt) rd rs1 0
      (fun _ a _ => BitVec.ofNat 32 (a.toNat * 2 ^ shamt.toNat)) s ∧
    AluRule (.srli rd rs1 shamt) rd rs1 0
      (fun _ a _ => BitVec.ofNat 32 (a.toNat / 2 ^ shamt.toNat)) s ∧
    AluRule (.sll rd rs1 rs2) rd rs1 rs2
      (fun _ a b => BitVec.ofNat 32 (a.toNat * 2 ^ (b.toNat % 32))) s ∧
    AluRule (.srl rd rs1 rs2) rd rs1 rs2
      (fun _ a b => BitVec.ofNat 32 (a.toNat / 2 ^ (b.toNat % 32))) s

/-- 41_integer_computational.md R210, R218: "the result equals floor(s(rs1v) / 2^shamt)". -/
def Obligations.ShiftArithmetic : Prop :=
  ∀ (s : State) (rd rs1 rs2 : RegIdx) (shamt : BitVec 5),
    EncodedR (.srai rd rs1 shamt) 0x13 0b101 0x20 ∧ EncodedR (.sra rd rs1 rs2) 0x33 0b101 0x20 ∧
    AluRule (.srai rd rs1 shamt) rd rs1 0
      (fun _ a _ => BitVec.ofInt 32 (Int.fdiv a.toInt (2 ^ shamt.toNat))) s ∧
    AluRule (.sra rd rs1 rs2) rd rs1 rs2
      (fun _ a b => BitVec.ofInt 32 (Int.fdiv a.toInt (2 ^ (b.toNat % 32)))) s

/-! ### Control transfer -/

/-- 42_control_transfer.md R230: JAL. -/
def Obligations.JalLinksAndJumps : Prop :=
  ∀ (s : State) (rd : RegIdx) (offset : BitVec 21),
    opcodeOf (encode (.jal rd offset)) = 0x6F ∧
    (∀ cfg c, executeBlock (.jal rd offset) cfg c = .done { c.d.cleared with
      jumpTarget := BitVec.ofInt 32 (c.pc.toNat + offset.toInt), aluOut := c.pc + 4,
      isJump := true, writeRd := true }) ∧
    Retires (.jal rd offset) s rd (s.core.pc + 4)
      (BitVec.ofInt 32 (s.core.pc.toNat + offset.toInt)) []

/-- 42_control_transfer.md R231: JALR. That bit 0 of the sum is kept is decision D21. -/
def Obligations.JalrLinksAndJumps : Prop :=
  ∀ (s : State) (rd rs1 : RegIdx) (imm : BitVec 12),
    Retires (.jalr rd rs1 imm) s rd (s.core.pc + 4)
      (BitVec.ofInt 32 ((s.core.x rs1).toNat + immValue imm)) []

/-- 42_control_transfer.md R232, R233: BEQ and BNE. -/
def Obligations.BranchEqual : Prop :=
  ∀ (s : State) (rs1 rs2 : RegIdx) (offset : BitVec 13),
    Encoded (.beq rs1 rs2 offset) 0x63 0b000 ∧ Encoded (.bne rs1 rs2 offset) 0x63 0b001 ∧
    BranchRule (.beq rs1 rs2 offset) (decide (s.core.x rs1 = s.core.x rs2)) offset s ∧
    BranchRule (.bne rs1 rs2 offset) (decide (s.core.x rs1 ≠ s.core.x rs2)) offset s

/-- 42_control_transfer.md R234 to R237 (which are signed is decision D30). -/
def Obligations.BranchCompare : Prop :=
  ∀ (s : State) (rs1 rs2 : RegIdx) (offset : BitVec 13),
    BranchRule (.blt rs1 rs2 offset)
      (decide ((s.core.x rs1).toInt < (s.core.x rs2).toInt)) offset s ∧
    BranchRule (.bge rs1 rs2 offset)
      (decide ((s.core.x rs1).toInt ≥ (s.core.x rs2).toInt)) offset s ∧
    BranchRule (.bltu rs1 rs2 offset)
      (decide ((s.core.x rs1).toNat < (s.core.x rs2).toNat)) offset s ∧
    BranchRule (.bgeu rs1 rs2 offset)
      (decide ((s.core.x rs1).toNat ≥ (s.core.x rs2).toNat)) offset s

/-! ### Loads and stores -/

/-- 43_load_store.md R250 to R255 (byte order is decision D1, the extensions D30): a load that reaches
readable bytes completes, and changes no memory. With `rd` 0 the value is discarded. The model's choice
is what it does where the device ends inside the access (log 24), has another base than the arena
(log 26) or is not the only memory-backed one (log 29). -/
def Obligations.LoadsComplete : Prop :=
  ∀ (s : State) (rd rs1 : RegIdx) (imm : BitVec 12) (dev : Device),
    let ea := effectiveAddr (s.core.x rs1) imm
    let a := deviceAddr s.mu dev ea
    (Reaches s ea .byte dev → Permitted s.mu .read a 1 →
      Retires (.lb rd rs1 imm) s rd ((s.mu.byteAt a).signExtend 32) (s.core.pc + 4)
        s.core.prefetch ∧
      Retires (.lbu rd rs1 imm) s rd ((s.mu.byteAt a).setWidth 32) (s.core.pc + 4)
        s.core.prefetch) ∧
    (Reaches s ea .halfword dev → Permitted s.mu .read a 2 →
      Retires (.lh rd rs1 imm) s rd ((s.mu.halfAt a).signExtend 32) (s.core.pc + 4)
        s.core.prefetch ∧
      Retires (.lhu rd rs1 imm) s rd ((s.mu.halfAt a).setWidth 32) (s.core.pc + 4)
        s.core.prefetch) ∧
    (Reaches s ea .word dev → Permitted s.mu .read a 4 →
      Retires (.lw rd rs1 imm) s rd (s.mu.wordAt a) (s.core.pc + 4) s.core.prefetch)

/-- 43_load_store.md R250, 40_pipeline_stages.md R166 (order: decision D3; the trap's record, R311: D13, D14,
D18): when a load traps, with which cause. It traps in MEMORY, the third stage after FETCH, and ENTER
follows, which `exec` runs too (the model's choice, log 3). The model's choice is also what it does
where the device ends inside the access (log 24), has another base than the arena (log 26) or is not
the only memory-backed one (log 29). A device without a rule is refused (20_memory.md R85, log 15). -/
def Obligations.LoadsTrap : Prop :=
  ∀ (s : State) (i : Instr) (rs1 : RegIdx) (imm : BitVec 12) (w : Width),
    loadOf i = some (rs1, imm, w) →
    let ea := effectiveAddr (s.core.x rs1) imm
    (ea.toNat % w.bytes ≠ 0 → Traps i s .loadAddrMisaligned 4) ∧
    (ea.toNat % w.bytes = 0 →
      (findDevice s.cfg ea = none → Traps i s .loadAccessFault 4) ∧
      ∀ dev, findDevice s.cfg ea = some dev →
        (dev.kind.memoryBacked = false → exec i s = .refused (.deviceWithoutRule dev.kind)) ∧
        (dev.kind.memoryBacked = true →
          ¬(Reaches s ea w dev ∧ Permitted s.mu .read (deviceAddr s.mu dev ea) w.bytes) →
          Traps i s .loadAccessFault 4))

/-- 43_load_store.md R256 to R259 (byte order: decision D1; "masked to width": D34): a store that
reaches writable bytes completes. The model's choice is what it does where the device ends inside the
access (log 24), has another base than the arena (log 26) or is not the only memory-backed one
(log 29). The premise `Memory.wf` is kept by every run
(`Obligations.StepKeepsInv`). -/
def Obligations.StoresComplete : Prop :=
  ∀ (s : State) (rs2 rs1 : RegIdx) (imm : BitVec 12) (dev : Device), Memory.wf s.mu →
    dev.writeFlag = true →
    let ea := effectiveAddr (s.core.x rs1) imm
    let a := deviceAddr s.mu dev ea
    (Reaches s ea .byte dev → Permitted s.mu .write a 1 →
      StoreRule (.sb rs2 rs1 imm) ea dev .byte (s.core.x rs2) s) ∧
    (Reaches s ea .halfword dev → Permitted s.mu .write a 2 →
      StoreRule (.sh rs2 rs1 imm) ea dev .halfword (s.core.x rs2) s) ∧
    (Reaches s ea .word dev → Permitted s.mu .write a 4 →
      StoreRule (.sw rs2 rs1 imm) ea dev .word (s.core.x rs2) s)

/-- 43_load_store.md R256, 40_pipeline_stages.md R166 (order: decision D3; the trap's record, R311: D13, D14,
D18): when a store traps, with which cause; it has then changed nothing in memory. `exec` runs on
through ENTER (the model's choice, log 3). The model's choice is also what it does where the device
ends inside the access (log 24), has another base than the arena (log 26) or is not the only
memory-backed one (log 29). A device without a rule
is refused (20_memory.md R85, log 15). -/
def Obligations.StoresTrap : Prop :=
  ∀ (s : State) (i : Instr) (rs1 : RegIdx) (imm : BitVec 12) (w : Width),
    storeOf i = some (rs1, imm, w) →
    let ea := effectiveAddr (s.core.x rs1) imm
    (ea.toNat % w.bytes ≠ 0 → Traps i s .storeAddrMisaligned 4) ∧
    (ea.toNat % w.bytes = 0 →
      (findDevice s.cfg ea = none → Traps i s .storeAccessFault 4) ∧
      ∀ dev, findDevice s.cfg ea = some dev →
        (dev.writeFlag = false → Traps i s .storeAccessFault 4) ∧
        (dev.writeFlag = true → dev.kind.memoryBacked = false →
          exec i s = .refused (.deviceWithoutRule dev.kind)) ∧
        (dev.writeFlag = true → dev.kind.memoryBacked = true →
          ¬(Reaches s ea w dev ∧ Permitted s.mu .write (deviceAddr s.mu dev ea) w.bytes) →
          Traps i s .storeAccessFault 4))

/-- 43_load_store.md R253, the source's example: `SW` and then `LW` of the same address "must yield
`x3 == x1`", for any registers, where the word may be written and is readable or RAW. The model's choice
is what it does where the device ends inside the word (log 24), has another base than the arena
(log 26) or is not the only memory-backed one (log 29). -/
def Obligations.StoreThenLoad : Prop :=
  ∀ (s t : State) (rd rs2 rs1 : RegIdx) (imm : BitVec 12) (dev : Device), Memory.wf s.mu →
    dev.writeFlag = true →
    let ea := effectiveAddr (s.core.x rs1) imm
    let a := deviceAddr s.mu dev ea
    Reaches s ea .word dev → Permitted s.mu .write a 4 →
    (∀ k, k < 4 → (s.mu.permAt (a + k)).read = true ∨ (s.mu.permAt (a + k)).raw = true) →
    exec (.sw rs2 rs1 imm) s = .next t →
    Retires (.lw rd rs1 imm) t rd (s.core.x rs2) (s.core.pc + 8) s.core.prefetch

/-! ### System instructions -/

/-- 44_system.md R270 and 60_exceptions.md R311 (the trap's record: decisions D13, D14, D18): ECALL
always traps, with cause ENV_CALL_UMODE, whose code is 8; ENTER follows, which `exec` runs too (the
model's choice, log 3). -/
def Obligations.EcallTraps : Prop :=
  Cause.code .envCallUmode = 8 ∧ encode .ecall = 0x00000073 ∧
  ∀ s : State, Traps .ecall s .envCallUmode 3

/-- 44_system.md R271 to R273, R277 (general knowledge G6, decision D11): the register forms. The
premise on `extra` is kept by every run (`Obligations.StepKeepsInv`). -/
def Obligations.CsrRegisterForms : Prop :=
  ∀ (s : State) (rd rs1 : RegIdx) (csr : CsrAddr), Cells.wf 0 s.core.csr.extra →
    implementsCsr s.cfg csr = true →
    CsrRule (.csrrw rd csr rs1) rd csr true (s.core.x rs1) s ∧
    CsrRule (.csrrs rd csr rs1) rd csr (rs1 != 0) (s.core.csr.read csr ||| s.core.x rs1) s ∧
    CsrRule (.csrrc rd csr rs1) rd csr (rs1 != 0) (s.core.csr.read csr &&& ~~~s.core.x rs1) s

/-- 44_system.md R274 to R276, R277 (general knowledge G6, decision D11): the immediate forms. -/
def Obligations.CsrImmediateForms : Prop :=
  ∀ (s : State) (rd : RegIdx) (csr : CsrAddr) (uimm : BitVec 5), Cells.wf 0 s.core.csr.extra →
    implementsCsr s.cfg csr = true →
    CsrRule (.csrrwi rd csr uimm) rd csr true (BitVec.ofNat 32 uimm.toNat) s ∧
    CsrRule (.csrrsi rd csr uimm) rd csr (uimm != 0)
      (s.core.csr.read csr ||| BitVec.ofNat 32 uimm.toNat) s ∧
    CsrRule (.csrrci rd csr uimm) rd csr (uimm != 0)
      (s.core.csr.read csr &&& ~~~BitVec.ofNat 32 uimm.toNat) s

/-- 44_system.md R277, 10_state.md R46 (decision D11): a CSR instruction on an address outside
`CSR_SET` raises ILLEGAL_INSTRUCTION, whatever its other operands. ENTER follows (60_exceptions.md
R311; the trap's record is decisions D13, D14, D18), which `exec` runs too (the model's choice,
log 3). That `mepc` and `mcause`, 0x341 and 0x342, are implemented whether `CSR_SET` lists them or not
is the model's choice (log 13). -/
def Obligations.CsrUnimplemented : Prop :=
  ∀ (s : State) (i : Instr) (csr : CsrAddr), csrAddrOf i = some csr →
    csr ∉ s.cfg.csrSet → csr ≠ 0x341 → csr ≠ 0x342 → Traps i s .illegalInstruction 3

/-! ### Fetch and whole steps -/

/-- 40_pipeline_stages.md R151, R173: where the queue holds a word that decodes to `i`, the FETCH of
that word and then the whole of `i` follow. No bus transaction is made. That they are one step is the
model's choice (log 3, DEDUCED): the spec's step is one stage (R15, R150, R175). -/
def Obligations.StepRunsQueued : Prop :=
  ∀ (s : State) (w : Word) (rest : List Word) (i : Instr), AboutToFetch s →
    s.core.prefetch = w :: rest → decodeWord w = .ok i → step s = exec i (s.fetched w rest)

/-- 40_pipeline_stages.md R151, 20_memory.md R92, R94, R100 (decisions D1, D5): where the queue is empty
and the whole window of `PREFETCH_DEPTH` words at `pc` can be fetched, and the four bytes at `pc`
decode to `i`, the refill and then the whole of `i` follow; the queue keeps the other words. That they
are one step is the model's choice (log 3, DEDUCED): the spec's step is one stage (R15, R150, R175).
The window is all in one device (R151), whose base is the arena's (70_reset_and_hazards.md R357), and
below 2^32 (20_memory.md R70). That several memory-backed devices share the one MemoryUnit is the
model's choice (log 29). -/
def Obligations.StepRunsFetched : Prop :=
  ∀ (s : State) (dev : Device) (i : Instr), AboutToFetch s → s.core.prefetch = [] →
    Reaches s s.core.pc .word dev → FetchWindow s dev →
    let a := deviceAddr s.mu dev s.core.pc
    decodeBytes [s.mu.byteAt a, s.mu.byteAt (a + 1), s.mu.byteAt (a + 2), s.mu.byteAt (a + 3)] =
      .ok (i, []) →
    step s = exec i (s.fetched (s.mu.wordAt a)
      ((List.range s.cfg.prefetchMore).map fun k => s.mu.wordAt (a + 4 * (k + 1))))

/-- 40_pipeline_stages.md R151, R152, R153, 60_exceptions.md R303, R311 (decisions D2, D3, D5, D7; the
trap's record: D13, D14, D18): a refill that fails traps, after one stage, with the cause of its
status, and `mepc` is the address that failed. It fails where its window is not all in one device, in
the arena and fetch-permitted (R151), where it crosses 2^32 (20_memory.md R70), and on a device whose
base is not the arena's (70_reset_and_hazards.md R357). That the failed
FETCH and its ENTER are one step is the model's choice (log 3, DEDUCED): to the spec each is a step of
its own (R15, R150, R175). A device without a rule is refused (log 15). That several
memory-backed devices share the one MemoryUnit is the model's choice (log 29). -/
def Obligations.FetchTraps : Prop :=
  ∀ s : State, AboutToFetch s → s.core.prefetch = [] →
    (s.core.pc.toNat % 4 ≠ 0 →
      ∃ t, step s = .next t ∧ TrapEntered s t .instructionAddrMisalign 2) ∧
    (s.core.pc.toNat % 4 = 0 →
      (findDevice s.cfg s.core.pc = none →
        ∃ t, step s = .next t ∧ TrapEntered s t .instructionAccessFault 2) ∧
      ∀ dev, findDevice s.cfg s.core.pc = some dev →
        (dev.kind.memoryBacked = false → step s = .refused (.deviceWithoutRule dev.kind)) ∧
        (dev.kind.memoryBacked = true → ¬FetchWindow s dev →
          ∃ t, step s = .next t ∧ TrapEntered s t .instructionAccessFault 2))

/-- 30_encoding.md R141, R142, 40_pipeline_stages.md R156, R161 (the stage of an unknown opcode is
decision D27; the trap's record, 60_exceptions.md R311: D13, D14, D18): "every 32-bit word is either one
of the 44 instructions of `opcode_table.json` or raises ILLEGAL_INSTRUCTION". The instruction is the
one the word encodes, operands included. That one step runs the whole instruction, or the stages up
to the one that raises and ENTER, is the model's choice (log 3, DEDUCED). -/
def Obligations.EveryWordRunsOrTraps : Prop :=
  ∀ (s : State) (w : Word) (rest : List Word), AboutToFetch s → s.core.prefetch = w :: rest →
    (∃ i, w &&& i.row.mask = i.row.pattern ∧ encode i = w ∧ decodeWord w = .ok i ∧
      step s = exec i (s.fetched w rest)) ∨
    ((∀ i : Instr, w &&& i.row.mask ≠ i.row.pattern) ∧
      ∃ t, step s = .next t ∧ TrapEntered s t .illegalInstruction
        (if typeTable (opcodeOf w) = .Unknown then 3 else 4))

/-! ### The stages -/

/-- 40_pipeline_stages.md R172: every stage counts one cycle and moves to the next stage, unless it
raised, and then TRAP takes precedence. -/
def Obligations.StageWrapper : Prop :=
  ∀ s t : State, s.core.stage ≠ .trap → s.stageStep = .next t →
    t.core.cycle = (s.core.cycle + 1) % 2 ^ s.cfg.cycleWidth ∧
    ((t.core.stage = .trap ∧ t.core.trapState = .enter) ∨
     (t.core.trapState = s.core.trapState ∧
       ((s.core.stage = .fetch ∧ t.core.stage = .decode) ∨
        (s.core.stage = .decode ∧ t.core.stage = .execute) ∨
        (s.core.stage = .execute ∧ t.core.stage = .memory) ∨
        (s.core.stage = .memory ∧ t.core.stage = .writeback) ∨
        (s.core.stage = .writeback ∧ t.core.stage = .fetch))))

/-- 40_pipeline_stages.md R155, R156, R172, 30_encoding.md R121, R124 to R129 (the field positions are
general knowledge G1; the stage of the trap is decision D27): DECODE writes the decode fields of the
record, every immediate among them, from the word in `d.ir` and the registers, or raises for an
Unknown opcode. Every other field of the record, and all else but the stage and the cycle counter, is
as before. That a DECODE that raises has written the opcode and the type is log 18 (DEDUCED). -/
def Obligations.DecodeStage : Prop :=
  ∀ s : State, s.core.stage = .decode →
    ∃ t, s.stageStep = .next t ∧ OthersKept s t ∧ t.mu = s.mu ∧
      let w := s.core.d.ir
      let cycle := (s.core.cycle + 1) % 2 ^ s.cfg.cycleWidth
      (typeTable (w.extractLsb' 0 7) = .Unknown →
        t.core = { s.core with
          d := { s.core.d with opcode := w.extractLsb' 0 7, opType := .Unknown }
          trap := { s.core.trap with cause := .illegalInstruction }
          stage := .trap, trapState := .enter, cycle := cycle }) ∧
      (typeTable (w.extractLsb' 0 7) ≠ .Unknown →
        t.core = { s.core with
          stage := .execute, cycle := cycle
          d := { s.core.d with
            opcode := w.extractLsb' 0 7
            opType := typeTable (w.extractLsb' 0 7)
            rd := w.extractLsb' 7 5
            rs1 := w.extractLsb' 15 5
            rs2 := w.extractLsb' 20 5
            rs1v := s.core.x (w.extractLsb' 15 5)
            rs2v := s.core.x (w.extractLsb' 20 5)
            funct3 := w.extractLsb' 12 3
            funct7 := w.extractLsb' 25 7
            immI := (w.extractLsb' 20 12).signExtend 32
            immS := (w.extractLsb' 25 7 ++ w.extractLsb' 7 5).signExtend 32
            immB := (w.extractLsb' 31 1 ++ w.extractLsb' 7 1 ++ w.extractLsb' 25 6 ++
              w.extractLsb' 8 4 ++ 0#1).signExtend 32
            immU := (w.extractLsb' 12 20).setWidth 32
            immJ := (w.extractLsb' 31 1 ++ w.extractLsb' 12 8 ++ w.extractLsb' 20 1 ++
              w.extractLsb' 21 10 ++ 0#1).signExtend 32
            csr := w.extractLsb' 20 12
            shamt := w.extractLsb' 20 5 } })

/-- 40_pipeline_stages.md R165, R166: MEMORY makes the access the record asks for, and no instruction
asks for two. A failed one raises the cause of its status, "(ADDR_MISALIGNED vs ACCESS_FAULT)", with
registers, `pc` and memory unchanged, and `pc` becomes `mepc` at ENTER. -/
def Obligations.MemoryStage : Prop :=
  (∀ i cfg c d, executeBlock i cfg c = .done d → (d.readMem && d.writeMem) = false) ∧
  ∀ s : State, s.core.stage = .memory →
    (s.core.d.readMem = true →
      (∀ v, memRead s.cfg s.mu s.core.d.memOffset s.core.d.memWidth = .ok v →
        ∃ t, s.stageStep = .next t ∧ MemoryDone s t s.mu
          { s.core.d with aluOut :=
            if s.core.d.memSigned then (v.setWidth (8 * s.core.d.memWidth.bytes)).signExtend 32
            else (v.setWidth (8 * s.core.d.memWidth.bytes)).setWidth 32 }) ∧
      (∀ st, memRead s.cfg s.mu s.core.d.memOffset s.core.d.memWidth = .fail st →
        ∃ t, s.stageStep = .next t ∧ MemoryRaised s t
          (if st = .readMisaligned then .loadAddrMisaligned else .loadAccessFault))) ∧
    (s.core.d.readMem = false → s.core.d.writeMem = true →
      (∀ mu, memWrite s.cfg s.mu s.core.d.memOffset s.core.d.memWidth s.core.d.aluOut = .ok mu →
        ∃ t, s.stageStep = .next t ∧ MemoryDone s t mu s.core.d) ∧
      (∀ st, memWrite s.cfg s.mu s.core.d.memOffset s.core.d.memWidth s.core.d.aluOut = .fail st →
        ∃ t, s.stageStep = .next t ∧ MemoryRaised s t
          (if st = .writeMisaligned then .storeAddrMisaligned else .storeAccessFault))) ∧
    (s.core.d.readMem = false → s.core.d.writeMem = false →
      ∃ t, s.stageStep = .next t ∧ MemoryDone s t s.mu s.core.d)

/-- 40_pipeline_stages.md R170: WRITEBACK writes one register, at most one CSR, `pc` and the queue,
nothing else but the cycle counter and the stage (R172), and cannot trap. The premise on `extra` is
kept by every run (`Obligations.StepKeepsInv`). -/
def Obligations.WritebackStage : Prop :=
  ∀ s : State, Cells.wf 0 s.core.csr.extra → s.core.stage = .writeback →
    ∃ t, s.stageStep = .next t ∧ t.core.stage = .fetch ∧ t.mu = s.mu ∧ OthersKept s t ∧
      (∀ a, t.core.csr.read a =
        if s.core.d.csrWrite = true ∧ a = s.core.d.csr then s.core.d.csrNew
        else s.core.csr.read a) ∧
      (∀ r, t.core.x r =
        if s.core.d.writeRd = true ∧ r = s.core.d.rd ∧ r ≠ 0 then s.core.d.aluOut
        else s.core.x r) ∧
      t.core.pc = (if s.core.d.isJump then s.core.d.jumpTarget else s.core.pc + 4) ∧
      t.core.prefetch = (if s.core.d.isJump then [] else s.core.prefetch) ∧
      t.core.d = s.core.d ∧ t.core.trap = s.core.trap ∧ t.core.trapState = s.core.trapState ∧
      t.core.halted = s.core.halted ∧ t.core.id = s.core.id

/-! ### Traps -/

/-- 60_exceptions.md R300, R311 (decisions D13, D14, D18, D32; the code numbers are general knowledge
G8): the codes of the eight causes, and ENTER, which writes the code to `mcause`. It touches no
register, no other CSR, no memory. -/
def Obligations.EnterTrap : Prop :=
  ([.instructionAddrMisalign, .instructionAccessFault, .illegalInstruction, .loadAddrMisaligned,
    .loadAccessFault, .storeAddrMisaligned, .storeAccessFault, .envCallUmode] :
      List Cause).map Cause.code = [0, 1, 2, 4, 5, 6, 7, 8] ∧
  ∀ s : State, s.core.stage = .trap → s.core.trapState = .enter →
    ∃ t, s.stageStep = .next t ∧ TrapEntered s t s.core.trap.cause 1

/-- 60_exceptions.md R312, R322 (decisions D15, D16, D17, D18): the handler's answer ends HANDLE. A
value for `a0` goes to slot 10 of the snapshot; true leads to EXIT, and false halts the core where it
is. Nothing else of the machine changes but the handler itself. That an answer is one step is log 7. -/
def Obligations.HandleAnswer : Prop :=
  ∀ (s : State) (continue_ : Bool) (a0 : Option Word) (h : Handler),
    s.core.stage = .trap → s.core.trapState = .handle →
    s.handler.next s.core.view s.mu s.core.hostResults = (.answer continue_ a0, h) →
    ∃ t, s.stageStep = .next t ∧ t.handler = h ∧ t.mu = s.mu ∧ t.lower = s.lower ∧
      t.upper = s.upper ∧ t.cfg = s.cfg ∧ t.core.regs = s.core.regs ∧ t.core.csr = s.core.csr ∧
      t.core.pc = s.core.pc ∧ t.core.prefetch = s.core.prefetch ∧ t.core.d = s.core.d ∧
      t.core.stage = .trap ∧ t.core.trapState = (if continue_ then .exit else .handle) ∧
      t.core.halted = !continue_ ∧ t.core.trap.savedPc = s.core.trap.savedPc ∧
      t.core.trap.cause = s.core.trap.cause ∧
      (∀ r : RegIdx, t.core.trap.snapshot[r.toNat] =
        if r = 10 then a0.getD (s.core.trap.snapshot[10]) else s.core.trap.snapshot[r.toNat]) ∧
      t.core.cycle = (s.core.cycle + 1) % 2 ^ s.cfg.cycleWidth

/-- 60_exceptions.md R313 (decision D18 for the cycle): EXIT, the return from a trap. -/
def Obligations.ExitTrap : Prop :=
  ∀ s : State, s.core.stage = .trap → s.core.trapState = .exit →
    ∃ t, s.stageStep = .next t ∧ OthersKept s t ∧ t.mu = s.mu ∧
      (∀ r : RegIdx, r ≠ 0 → t.core.x r = s.core.trap.snapshot[r.toNat]) ∧ t.core.x 0 = 0 ∧
      t.core.pc = s.core.csr.read 0x341 + 4 ∧ t.core.prefetch = [] ∧ t.core.stage = .fetch ∧
      t.core.trapState = .none ∧ t.core.csr = s.core.csr ∧ t.core.trap = s.core.trap ∧
      t.core.halted = s.core.halted ∧
      t.core.cycle = (s.core.cycle + 1) % 2 ^ s.cfg.cycleWidth

/-- 44_system.md R270, 60_exceptions.md R313, R323, 70_reset_and_hazards.md R363: an ECALL whose handler
continues at once. Three steps later the core fetches the next instruction, with every register as
before the ECALL except `x10`, which holds the handler's result if it gave one; memory is as before;
6 cycles were counted, one of them the FETCH. (Decisions D13 to D18.) What counts as a step is the
model's choice: `exec` runs ECALL and its ENTER (log 3), and an answer of the handler is one step
(log 7). -/
def Obligations.EcallRoundTrip : Prop :=
  ∀ (s t : State) (a0 : Option Word) (h : Handler), s.schedule = [] → s.core.halted = false →
    exec .ecall s = .next t →
    s.handler.next t.core.view s.mu [] = (.answer true a0, h) →
    ∃ u v, step t = .next u ∧ step u = .next v ∧ v.core.pc = s.core.pc + 4 ∧
      (∀ r, v.core.x r = if r = 10 then a0.getD (s.core.x 10) else s.core.x r) ∧
      v.mu = s.mu ∧ v.core.stage = .fetch ∧ v.core.trapState = .none ∧ v.core.prefetch = [] ∧
      v.core.halted = false ∧ v.core.csr.read 0x341 = s.core.pc ∧ v.core.csr.read 0x342 = 8 ∧
      v.core.cycle = (s.core.cycle + 5) % 2 ^ s.cfg.cycleWidth ∧
      v.lower = s.lower ∧ v.upper = s.upper ∧ v.handler = h

/-- 60_exceptions.md R315 (a) (decisions D13 to D18): a misaligned fetch whose handler continues is
followed, three steps on, by a misaligned fetch 4 bytes further. What counts as a step is the model's
choice: the failed FETCH and its ENTER are one (log 3, DEDUCED), and so is an answer of the handler
(log 7). -/
def Obligations.MisalignedFetchRepeats : Prop :=
  ∀ (s t : State) (a0 : Option Word) (h : Handler), AboutToFetch s → s.core.prefetch = [] →
    s.core.pc.toNat % 4 ≠ 0 → step s = .next t →
    s.handler.next t.core.view s.mu [] = (.answer true a0, h) →
    ∃ u v w, step t = .next u ∧ step u = .next v ∧ step v = .next w ∧
      w.core.trapState = .handle ∧ w.core.trap.cause = .instructionAddrMisalign ∧
      w.core.csr.read 0x341 = s.core.pc + 4 ∧
      v.core.cycle = (s.core.cycle + 4) % 2 ^ s.cfg.cycleWidth

/-! ### The whole machine -/

/-- 40_pipeline_stages.md R174: a halted core takes no step and its state stays as it was, whatever the
machine does; and a core comes to a halt only by its trap handler answering false. -/
def Obligations.HaltedCoreStays : Prop :=
  (∀ (s t : State) (k : Nat) (c : Core), step s = .next t → s.cores[k]? = some c →
    c.halted = true → t.cores[k]? = some c) ∧
  ∀ s t : State, s.stageStep = .next t → s.core.halted = false → t.core.halted = true →
    s.core.stage = .trap ∧ s.core.trapState = .handle ∧
    ∃ a0 h, s.handler.next s.core.view s.mu s.core.hostResults = (.answer false a0, h)

/-- 60_exceptions.md R333, 10_state.md R20, R40, R55: a step is a step of one core. Every other core, the
number of cores and the parameters are as before. That a turn of a halted core, or of a number with no
core, passes and changes no core is the model's choice (log 4). -/
def Obligations.OneCorePerStep : Prop :=
  ∀ s t : State, step s = .next t →
    t.cfg = s.cfg ∧ t.cores.length = s.cores.length ∧
    ∃ k : Nat, ∀ j : Nat, j ≠ k → t.cores[j]? = s.cores[j]?

/-- 60_exceptions.md R333, 40_pipeline_stages.md R175: a stage turn of core `k` depends on that core, the
MemoryUnit, the parameters and the host, and on nothing of any other core. That the turn of a halted
core passes is the model's choice (log 4). -/
def Obligations.TurnSeesOwnCoreOnly : Prop :=
  ∀ (s s' t : State) (k : Nat) (c : Core), s.cores[k]? = some c → s'.cores[k]? = some c →
    s'.mu = s.mu → s'.cfg = s.cfg → s'.handler = s.handler → s.turn k = .next t →
    ∃ t', s'.turn k = .next t' ∧ t'.cores[k]? = t.cores[k]? ∧ t'.mu = t.mu ∧
      t'.handler = t.handler

/-- 20_memory.md R110, R116, 60_exceptions.md R311, R322: memory changes only in a MEMORY stage that
stores and in the handler's operations, and to what the operation answers. That an operation of the
handler is a step is log 7. -/
def Obligations.OnlyStoresAndHandlerWriteMemory : Prop :=
  ∀ s t : State, s.stageStep = .next t → t.mu ≠ s.mu →
    (s.core.stage = .memory ∧ s.core.d.readMem = false ∧ s.core.d.writeMem = true ∧
      memWrite s.cfg s.mu s.core.d.memOffset s.core.d.memWidth s.core.d.aluOut = .ok t.mu) ∨
    (s.core.stage = .trap ∧ s.core.trapState = .handle ∧ ∃ o h r,
      s.handler.next s.core.view s.mu s.core.hostResults = (.op o, h) ∧
      hostOp s.cfg s.mu o = .ok (t.mu, r))

/-- 10_state.md R40, R41, R42, R45, 60_exceptions.md R327 (decision D32): a CSR other than `mepc` and
`mcause` changes only by a CSR instruction's WRITEBACK, and those two also at ENTER: no hardware event
touches `mstatus`, `mie` or `mip`. -/
def Obligations.WhoWritesCsrs : Prop :=
  ∀ (s t : State) (a : CsrAddr), Cells.wf 0 s.core.csr.extra → s.stageStep = .next t →
    t.core.csr.read a ≠ s.core.csr.read a →
    (s.core.stage = .writeback ∧ s.core.d.csrWrite = true ∧ a = s.core.d.csr ∧
      t.core.csr.read a = s.core.d.csrNew) ∨
    (s.core.stage = .trap ∧ s.core.trapState ≠ .handle ∧ s.core.trapState ≠ .exit ∧
      ((a = 0x341 ∧ t.core.csr.read a = s.core.pc) ∨
       (a = 0x342 ∧ t.core.csr.read a = s.core.trap.cause.code)))

/-- 60_exceptions.md R326, R335, 40_pipeline_stages.md R174, R175, 70_reset_and_hazards.md R364: a machine
whose devices are memory-backed always takes its next step while some core is not halted: no guest
program, no word and no data can stop it. It stops when all are halted and no turn is scheduled (the fault is log 16). That
with a turn scheduled it still steps when all are halted, passing the turn, is the model's choice
(log 4). -/
def Obligations.StepNeverStuck : Prop :=
  ∀ s : State, DevicesBacked s.cfg →
    ((s.schedule ≠ [] ∨ ∃ c ∈ s.cores, c.halted = false) → ∃ t, step s = .next t) ∧
    (s.schedule = [] → (∀ c ∈ s.cores, c.halted = true) → step s = .fault .allHalted)

/-- 40_pipeline_stages.md R150, R173, R175, 00_scope.md R15: a whole-instruction step, which is the
model's choice of a step (log 3, DEDUCED), is a run of at most five stage turns of one core, so the two
granularities are one machine. -/
def Obligations.StepIsStageTurns : Prop :=
  ∀ s t : State, s.schedule = [] → step s = .next t →
    ∃ k n, 1 ≤ n ∧ n ≤ 5 ∧ State.turns k n s = .next t

/-- Headline: the invariant of `State.Inv` (10_state.md R28, R29, R32, R34, R40, R52; 60_exceptions.md R301,
R312, R314; 40_pipeline_stages.md R155, R157, R165) is kept by every step from every state that has
it. -/
def Obligations.StepKeepsInv : Prop :=
  ∀ s t : State, s.Inv → step s = .next t → t.Inv

/-- The invariant holds right after reset, whatever the parameters. -/
def Obligations.ResetInv : Prop := ∀ cfg : Config, (State.boot cfg).Inv

/-! ### The host's operations -/

/-- 60_exceptions.md R322, R324, 20_memory.md R63, R64, R65, R87: an operation of the handler in HANDLE
changes the MemoryUnit as the operation answers, and of everything else only the handler itself and
what it has been told; a read changes nothing, and neither does an operation that fails. That an
operation is a step of its own, and counts no cycle, is the model's choice (log 7), as is the form of
its answer (log 20). Where a device has no rule it is refused (20_memory.md R85, log 15). -/
def Obligations.HandleOperation : Prop :=
  ∀ (s : State) (o : HostOp) (h : Handler),
    s.core.stage = .trap → s.core.trapState = .handle →
    s.handler.next s.core.view s.mu s.core.hostResults = (.op o, h) →
    (∀ mu r, hostOp s.cfg s.mu o = .ok (mu, r) →
      s.stageStep = .next { s with
        mu := mu, handler := h
        core := { s.core with hostResults := s.core.hostResults ++ [r] } } ∧
      (match o with
        | .readSingle addr w => mu = s.mu ∧
          ((∃ v, r = .values [v] ∧ memRead s.cfg s.mu addr w = .ok v) ∨
           (∃ st, r = .failed st ∧ memRead s.cfg s.mu addr w = .fail st))
        | .readMultiple addr n w => mu = s.mu ∧
          ((∃ vs, r = .values vs ∧ memReadMulti s.cfg s.mu addr n w = .ok vs) ∨
           (∃ st, r = .failed st ∧ memReadMulti s.cfg s.mu addr n w = .fail st))
        | .writeSingle addr w v =>
          (r = .written ∧ memWrite s.cfg s.mu addr w v = .ok mu) ∨
          (∃ st, r = .failed st ∧ memWrite s.cfg s.mu addr w v = .fail st ∧ mu = s.mu)
        | .writeMultiple addr w vs =>
          (r = .written ∧ memWriteMulti s.cfg s.mu addr w vs = .ok mu) ∨
          (∃ st, r = .failed st ∧ memWriteMulti s.cfg s.mu addr w vs = .fail st ∧ mu = s.mu)
        | .allocate size p => ∃ a, r = .block a ∧ s.mu.allocate size p = (a, mu) ∧
          (a = none → mu = s.mu)
        | .addMemory addr size p => ∃ ok, r = .done ok ∧
          s.mu.addMemory s.cfg addr size p = (ok, mu) ∧ (ok = false → mu = s.mu)
        | .setPerm addr len p => ∃ ok, r = .done ok ∧
          s.mu.setPerm addr len p = (ok, mu) ∧ (ok = false → mu = s.mu))) ∧
    (∀ k, hostOp s.cfg s.mu o = .error k → s.stageStep = .refused (.deviceWithoutRule k))
end

