-- ==== Sys2Proof/Laws/Memory.lean ====
section
/-! SUPPORT. The maps and the MemoryUnit: a read after a write, what a write leaves alone, and that
every operation keeps the canonical form `Memory.wf`. -/

namespace Sys2Proof.Machine

/-! ### Maps -/

section Cells

variable {α : Type} [DecidableEq α]

/-- A write leaves every other key alone, in any map. -/
theorem Cells.get_set_ne (dflt : α) (a b : Nat) (v : α) (m : List (Nat × α)) (h : b ≠ a) :
    Cells.get dflt (Cells.set dflt a v m) b = Cells.get dflt m b := by
  induction m with
  | nil => unfold Cells.set; split <;> simp [Cells.get, Ne.symm h]
  | cons e m ih =>
    obtain ⟨k, w⟩ := e
    unfold Cells.set
    split
    · split <;> simp [Cells.get, Ne.symm h]
    · split
      · rename_i hk
        subst hk
        split <;> simp [Cells.get, Ne.symm h]
      · simp [Cells.get, ih]

omit [DecidableEq α] in
/-- A key below every key of the map is not listed. -/
theorem Cells.get_below (dflt : α) (a : Nat) (m : List (Nat × α)) (h : ∀ e ∈ m, a < e.1) :
    Cells.get dflt m a = dflt := by
  induction m with
  | nil => rfl
  | cons e m ih =>
    have := h e (by simp)
    simp only [Cells.get]
    rw [if_neg (by omega), ih fun f hf => h f (by simp [hf])]

/-- A read after a write gives the value written, in a map in canonical form. -/
theorem Cells.get_set_eq (dflt : α) (a : Nat) (v : α) (m : List (Nat × α)) (h : Cells.wf dflt m) :
    Cells.get dflt (Cells.set dflt a v m) a = v := by
  induction m with
  | nil => unfold Cells.set; split <;> simp_all [Cells.get]
  | cons e m ih =>
    obtain ⟨k, w⟩ := e
    obtain ⟨hs, hd⟩ := h
    rw [List.pairwise_cons] at hs
    unfold Cells.set
    split
    · split
      · rename_i hak hv
        rw [hv]
        refine Cells.get_below dflt a _ fun e he => ?_
        rcases List.mem_cons.mp he with rfl | he
        · exact hak
        · have := hs.1 e he; simp at this ⊢; omega
      · simp [Cells.get]
    · split
      · split
        · rename_i hak hv
          subst hak
          rw [hv]
          exact Cells.get_below dflt a m fun e he => hs.1 e he
        · simp [Cells.get]
      · rename_i h1 h2
        simp only [Cells.get]
        rw [if_neg (Ne.symm h2)]
        exact ih ⟨hs.2, fun e he => hd e (by simp [he])⟩

/-- Every key of the map after a write is the key written or was there. -/
theorem Cells.mem_set (dflt : α) (a : Nat) (v : α) (m : List (Nat × α)) (e : Nat × α)
    (h : e ∈ Cells.set dflt a v m) : (e = (a, v) ∧ v ≠ dflt) ∨ e ∈ m := by
  induction m with
  | nil => unfold Cells.set at h; split at h <;> simp_all
  | cons f m ih =>
    obtain ⟨k, w⟩ := f
    unfold Cells.set at h
    split at h
    · split at h <;> simp_all
    · split at h
      · split at h
        · simp_all
        · simp_all; tauto
      · rcases List.mem_cons.mp h with h | h
        · simp [h]
        · rcases ih h with h | h
          · exact .inl h
          · simp [h]

/-- A write keeps the canonical form. -/
theorem Cells.wf_set (dflt : α) (a : Nat) (v : α) (m : List (Nat × α)) (h : Cells.wf dflt m) :
    Cells.wf dflt (Cells.set dflt a v m) := by
  refine ⟨?_, fun e he => ?_⟩
  · induction m with
    | nil => unfold Cells.set; split <;> simp
    | cons e m ih =>
      obtain ⟨k, w⟩ := e
      obtain ⟨hs, hd⟩ := h
      have hs' := List.pairwise_cons.mp hs
      unfold Cells.set
      split
      · split
        · exact hs
        · rename_i hak _
          refine List.pairwise_cons.mpr ⟨fun f hf => ?_, hs⟩
          rcases List.mem_cons.mp hf with rfl | hf
          · exact hak
          · have := hs'.1 f hf; simp at this ⊢; omega
      · split
        · split
          · exact hs'.2
          · rename_i hak _
            subst hak
            exact List.pairwise_cons.mpr ⟨fun f hf => hs'.1 f hf, hs'.2⟩
        · rename_i h1 h2
          refine List.pairwise_cons.mpr
            ⟨fun f hf => ?_, ih ⟨hs'.2, fun e he => hd e (by simp [he])⟩⟩
          rcases Cells.mem_set dflt a v m f hf with ⟨rfl, _⟩ | hf
          · simp; omega
          · exact hs'.1 f hf
  · rcases Cells.mem_set dflt a v m e he with ⟨rfl, hv⟩ | he
    · exact hv
    · exact h.2 e he

end Cells

/-! ### Pages -/

/-- The pages after an insertion: the one inserted, and the ones that were there. -/
theorem Pages.mem_insert (p q : Nat) (ps : List Nat) : q ∈ Pages.insert p ps ↔ q = p ∨ q ∈ ps := by
  induction ps with
  | nil => simp [Pages.insert]
  | cons r ps ih =>
    unfold Pages.insert
    split
    · simp
    · split
      · simp_all
      · simp [ih]; tauto

/-- An insertion keeps the pages strictly rising. -/
theorem Pages.pairwise_insert (p : Nat) (ps : List Nat) (h : ps.Pairwise (· < ·)) :
    (Pages.insert p ps).Pairwise (· < ·) := by
  induction ps with
  | nil => simp [Pages.insert]
  | cons r ps ih =>
    have h' := List.pairwise_cons.mp h
    unfold Pages.insert
    split
    · refine List.pairwise_cons.mpr ⟨fun q hq => ?_, h⟩
      rcases List.mem_cons.mp hq with rfl | hq
      · assumption
      · have := h'.1 q hq; omega
    · split
      · exact h
      · refine List.pairwise_cons.mpr ⟨fun q hq => ?_, ih h'.2⟩
        rcases (Pages.mem_insert p q ps).mp hq with rfl | hq
        · omega
        · exact h'.1 q hq

/-! ### The fields an operation leaves alone -/

@[simp] theorem setByte_base (mu : MemoryUnit) (a : Nat) (b : Byte) :
    (mu.setByte a b).base = mu.base := rfl
@[simp] theorem setByte_size (mu : MemoryUnit) (a : Nat) (b : Byte) :
    (mu.setByte a b).size = mu.size := rfl
@[simp] theorem setByte_permAt (mu : MemoryUnit) (a c : Nat) (b : Byte) :
    (mu.setByte a b).permAt c = mu.permAt c := rfl
@[simp] theorem setPermAt_base (mu : MemoryUnit) (a : Nat) (p : Perm) :
    (mu.setPermAt a p).base = mu.base := rfl
@[simp] theorem setPermAt_size (mu : MemoryUnit) (a : Nat) (p : Perm) :
    (mu.setPermAt a p).size = mu.size := rfl
@[simp] theorem setPermAt_data (mu : MemoryUnit) (a : Nat) (p : Perm) :
    (mu.setPermAt a p).data = mu.data := rfl
@[simp] theorem setPermAt_byteAt (mu : MemoryUnit) (a c : Nat) (p : Perm) :
    (mu.setPermAt a p).byteAt c = mu.byteAt c := rfl
@[simp] theorem markDirty_byteAt (cfg : Config) (mu : MemoryUnit) (a c : Nat) :
    (mu.markDirty cfg a).byteAt c = mu.byteAt c := rfl
@[simp] theorem markDirty_permAt (cfg : Config) (mu : MemoryUnit) (a c : Nat) :
    (mu.markDirty cfg a).permAt c = mu.permAt c := rfl
@[simp] theorem storeByte_base (cfg : Config) (mu : MemoryUnit) (a : Nat) (b : Byte) :
    (mu.storeByte cfg a b).base = mu.base := rfl
@[simp] theorem storeByte_size (cfg : Config) (mu : MemoryUnit) (a : Nat) (b : Byte) :
    (mu.storeByte cfg a b).size = mu.size := rfl
@[simp] theorem storeByte_currVaddr (cfg : Config) (mu : MemoryUnit) (a : Nat) (b : Byte) :
    (mu.storeByte cfg a b).currVaddr = mu.currVaddr := rfl
@[simp] theorem storeByte_fresh (cfg : Config) (mu : MemoryUnit) (a : Nat) (b : Byte) :
    (mu.storeByte cfg a b).fresh = mu.fresh := rfl

/-! ### Canonical form -/

theorem wf_init (cfg : Config) : Memory.wf (MemoryUnit.init cfg) := by
  simp [Memory.wf, Cells.wf, MemoryUnit.init]

theorem wf_setByte {mu : MemoryUnit} (h : Memory.wf mu) (a : Nat) (b : Byte) :
    Memory.wf (mu.setByte a b) :=
  ⟨Cells.wf_set unlistedByte a b mu.data h.1, h.2.1, h.2.2⟩

theorem wf_setPermAt {mu : MemoryUnit} (h : Memory.wf mu) (a : Nat) (p : Perm) :
    Memory.wf (mu.setPermAt a p) :=
  ⟨h.1, Cells.wf_set Perm.afterInit a p mu.perm h.2.1, h.2.2⟩

theorem wf_markDirty {mu : MemoryUnit} (h : Memory.wf mu) (cfg : Config) (a : Nat) :
    Memory.wf (mu.markDirty cfg a) :=
  ⟨h.1, h.2.1, Pages.pairwise_insert _ _ h.2.2⟩

theorem wf_storeByte {mu : MemoryUnit} (h : Memory.wf mu) (cfg : Config) (a : Nat) (b : Byte) :
    Memory.wf (mu.storeByte cfg a b) :=
  wf_markDirty (wf_setPermAt (wf_setByte h a b) a _) cfg a

theorem wf_storeBytes {mu : MemoryUnit} (h : Memory.wf mu) (cfg : Config) (a : Nat)
    (bs : List Byte) : Memory.wf (mu.storeBytes cfg a bs) := by
  induction bs generalizing mu a with
  | nil => exact h
  | cons b bs ih => exact ih (wf_storeByte h cfg a b) (a + 1)

theorem wf_write {mu mu' : MemoryUnit} (h : Memory.wf mu) {cfg : Config} {a : Nat}
    {bs : List Byte} (hw : mu.write cfg a bs = .ok mu') : Memory.wf mu' := by
  unfold MemoryUnit.write at hw
  split at hw
  · cases hw
  · split at hw
    · cases hw
    · cases hw; exact wf_storeBytes h cfg a bs

theorem wf_fillPerm {mu : MemoryUnit} (h : Memory.wf mu) (p : Perm) (a len : Nat) :
    Memory.wf (mu.fillPerm p a len) := by
  induction len generalizing mu a with
  | zero => exact h
  | succ len ih => exact ih (wf_setPermAt h a p) (a + 1)

theorem wf_grow {mu : MemoryUnit} (h : Memory.wf mu) (n : Nat) : Memory.wf (mu.grow n) := by
  induction n generalizing mu with
  | zero => exact h
  | succ n ih =>
    unfold MemoryUnit.grow
    exact ih (wf_setPermAt (wf_setByte h _ _) _ _)

theorem wf_addMemory {mu : MemoryUnit} (h : Memory.wf mu) (cfg : Config) (addr size : Nat)
    (p : Perm) : Memory.wf (mu.addMemory cfg addr size p).2 := by
  unfold MemoryUnit.addMemory
  split
  · exact h
  · split
    · exact h
    · exact wf_fillPerm (wf_grow h _) p addr size

theorem wf_allocate {mu : MemoryUnit} (h : Memory.wf mu) (size : Nat) (p : Perm) :
    Memory.wf (mu.allocate size p).2 := by
  unfold MemoryUnit.allocate
  split
  · exact h
  · exact wf_fillPerm h p mu.currVaddr size

theorem wf_setPerm {mu : MemoryUnit} (h : Memory.wf mu) (addr len : Nat) (p : Perm) :
    Memory.wf (mu.setPerm addr len p).2 := by
  unfold MemoryUnit.setPerm
  split
  · exact wf_fillPerm h p addr len
  · exact h

/-! ### What a store does to the bytes and the permissions -/

theorem setByte_byteAt {mu : MemoryUnit} (h : Memory.wf mu) (a c : Nat) (b : Byte) :
    (mu.setByte a b).byteAt c = if c = a then b else mu.byteAt c := by
  unfold MemoryUnit.byteAt MemoryUnit.setByte
  split
  · subst c; exact Cells.get_set_eq _ a b _ h.1
  · exact Cells.get_set_ne _ a c b _ ‹_›

theorem setPermAt_permAt {mu : MemoryUnit} (h : Memory.wf mu) (a c : Nat) (p : Perm) :
    (mu.setPermAt a p).permAt c = if c = a then p else mu.permAt c := by
  unfold MemoryUnit.permAt MemoryUnit.setPermAt
  split
  · subst c; exact Cells.get_set_eq _ a p _ h.2.1
  · exact Cells.get_set_ne _ a c p _ ‹_›

theorem storeByte_byteAt {mu : MemoryUnit} (h : Memory.wf mu) (cfg : Config) (a c : Nat)
    (b : Byte) : (mu.storeByte cfg a b).byteAt c = if c = a then b else mu.byteAt c := by
  simp [MemoryUnit.storeByte, setByte_byteAt h]

theorem storeByte_permAt {mu : MemoryUnit} (h : Memory.wf mu) (cfg : Config) (a c : Nat)
    (b : Byte) :
    (mu.storeByte cfg a b).permAt c = if c = a then (mu.permAt a).promote else mu.permAt c := by
  simp [MemoryUnit.storeByte, setPermAt_permAt (wf_setByte h a b)]

/-- After a store of bytes from `a`: inside the range the byte stored, outside it the byte before. -/
theorem storeBytes_byteAt {mu : MemoryUnit} (h : Memory.wf mu) (cfg : Config) (a c : Nat)
    (bs : List Byte) :
    (mu.storeBytes cfg a bs).byteAt c =
      if a ≤ c ∧ c < a + bs.length then bs.getD (c - a) 0 else mu.byteAt c := by
  induction bs generalizing mu a with
  | nil => simp [MemoryUnit.storeBytes]
  | cons b bs ih =>
    unfold MemoryUnit.storeBytes
    rw [ih (wf_storeByte h cfg a b), storeByte_byteAt h]
    simp only [List.length_cons]
    by_cases hc : c = a
    · subst hc; simp
    · by_cases h1 : a + 1 ≤ c ∧ c < a + 1 + bs.length
      · rw [if_pos h1, if_pos (by omega), show c - a = (c - (a + 1)) + 1 by omega]
        simp
      · rw [if_neg h1, if_neg hc, if_neg (by omega)]

/-- After a store of bytes from `a`: inside the range each permission is promoted (20_memory.md R68),
outside it nothing changes. -/
theorem storeBytes_permAt {mu : MemoryUnit} (h : Memory.wf mu) (cfg : Config) (a c : Nat)
    (bs : List Byte) :
    (mu.storeBytes cfg a bs).permAt c =
      if a ≤ c ∧ c < a + bs.length then (mu.permAt c).promote else mu.permAt c := by
  induction bs generalizing mu a with
  | nil => simp [MemoryUnit.storeBytes]
  | cons b bs ih =>
    unfold MemoryUnit.storeBytes
    rw [ih (wf_storeByte h cfg a b)]
    simp only [storeByte_permAt h, List.length_cons]
    by_cases hc : c = a
    · subst hc; simp
    · by_cases h1 : a + 1 ≤ c ∧ c < a + 1 + bs.length
      · rw [if_pos h1, if_neg hc, if_pos (by omega)]
      · rw [if_neg h1, if_neg hc, if_neg (by omega)]

/-- A store changes no bound of the arena, and draws no free value. -/
theorem storeBytes_bounds (cfg : Config) (mu : MemoryUnit) (a : Nat) (bs : List Byte) :
    (mu.storeBytes cfg a bs).base = mu.base ∧ (mu.storeBytes cfg a bs).size = mu.size ∧
    (mu.storeBytes cfg a bs).currVaddr = mu.currVaddr ∧
    (mu.storeBytes cfg a bs).fresh = mu.fresh := by
  induction bs generalizing mu a with
  | nil => simp [MemoryUnit.storeBytes]
  | cons b bs ih =>
    unfold MemoryUnit.storeBytes
    obtain ⟨h1, h2, h3, h4⟩ := ih (mu.storeByte cfg a b) (a + 1)
    exact ⟨h1, h2, h3, h4⟩

/-- The pages that are dirty after a store (20_memory.md R66). -/
theorem storeBytes_dirty (cfg : Config) (mu : MemoryUnit) (a : Nat) (bs : List Byte) (p : Nat) :
    p ∈ (mu.storeBytes cfg a bs).dirty ↔
      p ∈ mu.dirty ∨ ∃ k, k < bs.length ∧ p = mu.pageOf cfg (a + k) := by
  induction bs generalizing mu a with
  | nil => simp [MemoryUnit.storeBytes]
  | cons b bs ih =>
    unfold MemoryUnit.storeBytes
    rw [ih]
    have hd : p ∈ (mu.storeByte cfg a b).dirty ↔ p = mu.pageOf cfg a ∨ p ∈ mu.dirty :=
      Pages.mem_insert _ _ _
    have hp : ∀ c, (mu.storeByte cfg a b).pageOf cfg c = mu.pageOf cfg c := fun _ => rfl
    simp only [hd, hp, List.length_cons]
    constructor
    · rintro ((h | h) | ⟨k, hk, h⟩)
      · exact .inr ⟨0, by omega, by simpa using h⟩
      · exact .inl h
      · exact .inr ⟨k + 1, by omega, by rw [h]; congr 1; omega⟩
    · rintro (h | ⟨k, hk, h⟩)
      · exact .inl (.inr h)
      · cases k with
        | zero => exact .inl (.inl (by simpa using h))
        | succ k => exact .inr ⟨k, by omega, by rw [h]; congr 1; omega⟩

/-- `fillPerm` gives every byte of its range the permission, and leaves the rest alone. -/
theorem fillPerm_permAt {mu : MemoryUnit} (h : Memory.wf mu) (p : Perm) (a len c : Nat) :
    (mu.fillPerm p a len).permAt c = if a ≤ c ∧ c < a + len then p else mu.permAt c := by
  induction len generalizing mu a with
  | zero => simp [MemoryUnit.fillPerm]
  | succ len ih =>
    unfold MemoryUnit.fillPerm
    rw [ih (wf_setPermAt h a p), setPermAt_permAt h]
    by_cases hc : c = a
    · subst hc; simp
    · by_cases h1 : a + 1 ≤ c ∧ c < a + 1 + len
      · rw [if_pos h1, if_pos (by omega)]
      · rw [if_neg h1, if_neg hc, if_neg (by omega)]

/-- `fillPerm` changes permissions only. -/
theorem fillPerm_rest (mu : MemoryUnit) (p : Perm) (a len : Nat) :
    (mu.fillPerm p a len).base = mu.base ∧ (mu.fillPerm p a len).size = mu.size ∧
    (mu.fillPerm p a len).data = mu.data ∧ (mu.fillPerm p a len).dirty = mu.dirty ∧
    (mu.fillPerm p a len).currVaddr = mu.currVaddr ∧
    (mu.fillPerm p a len).fresh = mu.fresh := by
  induction len generalizing mu a with
  | zero => simp [MemoryUnit.fillPerm]
  | succ len ih => exact ih (mu.setPermAt a p) (a + 1)

/-! ### What a checked access says -/

/-- Every byte of the range has every permission asked. -/
theorem allow_iff (mu : MemoryUnit) (need : List Access) (a len : Nat) :
    mu.allow need a len = true ↔
      ∀ k, k < len → ∀ acc ∈ need, permOk (mu.permAt (a + k)) acc = true := by
  induction len generalizing a with
  | zero => simp [MemoryUnit.allow]
  | succ len ih =>
    simp only [MemoryUnit.allow, Bool.and_eq_true, List.all_eq_true, ih]
    constructor
    · rintro ⟨h0, h⟩ k hk acc hacc
      cases k with
      | zero => simpa using h0 acc hacc
      | succ k =>
        have := h k (by omega) acc hacc
        rwa [show a + 1 + k = a + (k + 1) by omega] at this
    · intro h
      refine ⟨fun acc hacc => by simpa using h 0 (by omega) acc hacc, fun k hk acc hacc => ?_⟩
      rw [show a + 1 + k = a + (k + 1) by omega]
      exact h (k + 1) (by omega) acc hacc

/-- The range is inside the arena. -/
theorem inBounds_iff (mu : MemoryUnit) (a len : Nat) :
    mu.inBounds a len = true ↔
      mu.base ≤ a ∧ a + len ≤ mu.base + mu.size ∧ a + len ≤ 2 ^ 32 := by
  simp only [MemoryUnit.inBounds, Bool.and_eq_true, decide_eq_true_eq, and_assoc]
  rfl

/-- The three answers of a read (20_memory.md R67): the bounds decide first, then the permissions. -/
theorem read_cases (mu : MemoryUnit) (need : List Access) (a len : Nat) :
    (mu.inBounds a len = false ∧ mu.read need a len = .pageFault) ∨
    (mu.inBounds a len = true ∧ mu.allow need a len = false ∧ mu.read need a len = .denied) ∨
    (mu.inBounds a len = true ∧ mu.allow need a len = true ∧
      mu.read need a len = .ok (mu.bytesAt a len)) := by
  unfold MemoryUnit.read
  cases mu.inBounds a len <;> cases mu.allow need a len <;> simp

/-- The three answers of a write (20_memory.md R66). -/
theorem write_cases (cfg : Config) (mu : MemoryUnit) (a : Nat) (bs : List Byte) :
    (mu.inBounds a bs.length = false ∧ mu.write cfg a bs = .pageFault) ∨
    (mu.inBounds a bs.length = true ∧ mu.allow [.write] a bs.length = false ∧
      mu.write cfg a bs = .denied) ∨
    (mu.inBounds a bs.length = true ∧ mu.allow [.write] a bs.length = true ∧
      mu.write cfg a bs = .ok (mu.storeBytes cfg a bs)) := by
  unfold MemoryUnit.write
  cases mu.inBounds a bs.length <;> cases mu.allow [.write] a bs.length <;> simp

@[simp] theorem length_bytesAt (mu : MemoryUnit) (a len : Nat) : (mu.bytesAt a len).length = len := by
  induction len generalizing a with
  | zero => rfl
  | succ len ih => simp [MemoryUnit.bytesAt, ih]

end Sys2Proof.Machine
end

