-- ==== Sys2Proof/Laws/Bus.lean ====
section
/-! SUPPORT. What a bus transaction answers, condition by condition, in the order of 20_memory.md R87;
the bytes of a value and back. -/

namespace Sys2Proof.Machine

/-! ### Bytes and values (20_memory.md R100) -/

theorem bytesAt_eq_map (mu : MemoryUnit) (a len : Nat) :
    mu.bytesAt a len = (List.range len).map fun k => mu.byteAt (a + k) := by
  induction len generalizing a with
  | zero => rfl
  | succ len ih =>
    rw [MemoryUnit.bytesAt, ih, List.range_succ_eq_map, List.map_cons, List.map_map]
    simp [Function.comp_def, Nat.add_assoc, Nat.add_comm 1]

theorem wordOfBytes_one (b0 : Byte) : wordOfBytes [b0] = b0.setWidth 32 := by
  simp [wordOfBytes]

theorem wordOfBytes_two (b0 b1 : Byte) : wordOfBytes [b0, b1] = (b1 ++ b0).setWidth 32 := by
  simp only [wordOfBytes]
  grind

theorem wordOfBytes_four (b0 b1 b2 b3 : Byte) :
    wordOfBytes [b0, b1, b2, b3] = b3 ++ b2 ++ b1 ++ b0 := by
  simp only [wordOfBytes]
  ext i hi
  simp only [BitVec.getElem_or, BitVec.getElem_shiftLeft, BitVec.getElem_setWidth]
  rcases (by omega : i < 8 ∨ (8 ≤ i ∧ i < 16) ∨ (16 ≤ i ∧ i < 24) ∨ 24 ≤ i) with h | h | h | h <;>
    grind

@[simp] theorem length_bytesOfWord (n : Nat) (v : Word) : (bytesOfWord n v).length = n := by
  induction n generalizing v with
  | zero => rfl
  | succ n ih => simp [bytesOfWord, ih]

/-- Byte `k` of a value. -/
theorem getD_bytesOfWord (n k : Nat) (v : Word) (h : k < n) :
    (bytesOfWord n v).getD k 0 = v.extractLsb' (8 * k) 8 := by
  induction n generalizing k v with
  | zero => omega
  | succ n ih =>
    cases k with
    | zero =>
      simp only [bytesOfWord, List.getD_cons_zero]
      ext i hi
      simp
    | succ k =>
      rw [bytesOfWord, List.getD_cons_succ, ih k _ (by omega)]
      ext i hi
      simp [show 8 + (8 * k + i) = 8 * (k + 1) + i by omega]

/-- A value's low bytes, put together again, are its low bits. -/
theorem wordOfBytes_bytesOfWord (w : Width) (v : Word) :
    wordOfBytes (bytesOfWord w.bytes v) =
      match w with
      | .byte => (v.setWidth 8).setWidth 32
      | .halfword => (v.setWidth 16).setWidth 32
      | .word => v := by
  cases w <;> simp only [Width.bytes, bytesOfWord, wordOfBytes]
  · grind
  · grind
  · ext i hi
    simp only [BitVec.getElem_or, BitVec.getElem_shiftLeft, BitVec.getElem_setWidth]
    rcases (by omega : i < 8 ∨ (8 ≤ i ∧ i < 16) ∨ (16 ≤ i ∧ i < 24) ∨ 24 ≤ i) with h | h | h | h <;>
      grind

/-- The value read from a range: no more than its bytes hold, and byte by byte that of the range. -/
theorem wordOfBytes_bytesAt (mu : MemoryUnit) (a : Nat) (w : Width) :
    (wordOfBytes (mu.bytesAt a w.bytes)).toNat < 2 ^ (8 * w.bytes) ∧
    ∀ k, k < w.bytes →
      (wordOfBytes (mu.bytesAt a w.bytes)).extractLsb' (8 * k) 8 = mu.byteAt (a + k) := by
  cases w
  · simp only [Width.bytes, MemoryUnit.bytesAt, wordOfBytes_one]
    refine ⟨by have := (mu.byteAt a).isLt; simp; omega, fun k hk => ?_⟩
    obtain rfl : k = 0 := by omega
    simp; grind
  · simp only [Width.bytes, MemoryUnit.bytesAt, wordOfBytes_two]
    refine ⟨?_, fun k hk => ?_⟩
    · have := (mu.byteAt (a + 1) ++ mu.byteAt a).isLt
      rw [BitVec.toNat_setWidth]; omega
    · rcases (by omega : k = 0 ∨ k = 1) with rfl | rfl <;> ext i hi <;> simp <;> grind
  · simp only [Width.bytes, MemoryUnit.bytesAt, wordOfBytes_four]
    refine ⟨by simpa using BitVec.isLt _, fun k hk => ?_⟩
    rcases (by omega : k = 0 ∨ k = 1 ∨ k = 2 ∨ k = 3) with rfl | rfl | rfl | rfl <;> ext i hi <;>
      simp <;> grind

/-- Byte `k` of several values laid out one after another (20_memory.md R93). -/
theorem getD_flatMap_bytesOfWord (w : Width) (vs : List Word) (k : Nat)
    (h : k < vs.length * w.bytes) :
    (vs.flatMap (bytesOfWord w.bytes)).getD k 0 =
      (vs.getD (k / w.bytes) 0).extractLsb' (8 * (k % w.bytes)) 8 := by
  have hp : 0 < w.bytes := by cases w <;> decide
  induction vs generalizing k with
  | nil => simp at h
  | cons v vs ih =>
    rw [List.flatMap_cons]
    by_cases hk : k < w.bytes
    · rw [List.getD_append _ _ _ _ (by simpa using hk), getD_bytesOfWord _ _ _ hk,
        Nat.div_eq_of_lt hk, Nat.mod_eq_of_lt hk, List.getD_cons_zero]
    · obtain ⟨m, rfl⟩ := Nat.exists_eq_add_of_le' (Nat.le_of_not_lt hk)
      rw [List.length_cons, Nat.succ_mul] at h
      rw [List.getD_append_right _ _ _ _ (by simp), length_bytesOfWord, Nat.add_sub_cancel,
        ih m (by omega)]
      simp [Nat.add_div_right _ hp]

/-! ### The device's test of a range -/

@[simp] theorem inDevice_single (mu : MemoryUnit) (dev : Device) (addr : Word) (len : Nat) :
    Transfer.single.inDevice mu dev addr len = true := rfl

theorem inDevice_multi_iff (mu : MemoryUnit) (dev : Device) (addr : Word) (len : Nat) :
    Transfer.multi.inDevice mu dev addr len = true ↔
      addr.toNat + len ≤ dev.base + dev.size ∧ addr.toNat + len ≤ 2 ^ 32 := by
  simp [Transfer.inDevice, holds]

theorem inDevice_fetch_iff (mu : MemoryUnit) (dev : Device) (addr : Word) (len : Nat) :
    Transfer.fetch.inDevice mu dev addr len = true ↔
      (addr.toNat + len ≤ dev.base + dev.size ∧ addr.toNat + len ≤ 2 ^ 32) ∧
      dev.base = mu.base := by
  simp [Transfer.inDevice, holds]

/-- The device an address is routed to covers it. -/
theorem findDevice_covers {cfg : Config} {addr : Word} {dev : Device}
    (h : findDevice cfg addr = some dev) :
    dev.base ≤ addr.toNat ∧ addr.toNat < dev.base + dev.size := by
  have := List.find?_some h
  simpa [covers] using this

/-- On a device whose base is the arena's, a bus address is the MemoryUnit address (R85, D25). -/
theorem deviceAddr_of_base {cfg : Config} {mu : MemoryUnit} {addr : Word} {dev : Device}
    (h : findDevice cfg addr = some dev) (hb : dev.base = mu.base) :
    deviceAddr mu dev addr = addr.toNat := by
  have := findDevice_covers h
  unfold deviceAddr
  omega

/-! ### Reads (20_memory.md R87, R88) -/

theorem misaligned_iff (addr : Word) (w : Width) :
    misaligned addr w = true ↔ addr.toNat % w.bytes ≠ 0 := by
  simp [misaligned]

theorem misaligned_false_iff (addr : Word) (w : Width) :
    misaligned addr w = false ↔ addr.toNat % w.bytes = 0 := by
  simp [misaligned]

/-- An access that is aligned and routed to a memory-backed device is the MemoryUnit's read. -/
theorem busRead_device {cfg : Config} {mu : MemoryUnit} {t : Transfer} {need : List Access} {addr : Word}
    {w : Width} {len : Nat} {dev : Device} (ha : addr.toNat % w.bytes = 0)
    (hd : findDevice cfg addr = some dev) (hb : dev.kind.memoryBacked = true)
    (ht : t.inDevice mu dev addr len = true) :
    busRead cfg mu t need addr w len = .ofMu (mu.read need (deviceAddr mu dev addr) len) := by
  simp [busRead, misaligned, ha, hd, hb, ht]

/-- A transfer of several units that is not all in its device and below 2^32 fails. -/
theorem busRead_beyond {cfg : Config} {mu : MemoryUnit} {t : Transfer} {need : List Access}
    {addr : Word} {w : Width} {len : Nat} {dev : Device} (ha : addr.toNat % w.bytes = 0)
    (hd : findDevice cfg addr = some dev) (hb : dev.kind.memoryBacked = true)
    (ht : t.inDevice mu dev addr len = false) :
    busRead cfg mu t need addr w len = .fail .deviceFailure := by
  simp [busRead, misaligned, ha, hd, hb, ht]

theorem busRead_misaligned {cfg : Config} {mu : MemoryUnit} {t : Transfer} {need : List Access} {addr : Word}
    {w : Width} {len : Nat} (ha : addr.toNat % w.bytes ≠ 0) :
    busRead cfg mu t need addr w len = .fail .readMisaligned := by
  simp [busRead, misaligned, ha]

theorem busRead_notFound {cfg : Config} {mu : MemoryUnit} {t : Transfer} {need : List Access} {addr : Word}
    {w : Width} {len : Nat} (ha : addr.toNat % w.bytes = 0) (hd : findDevice cfg addr = none) :
    busRead cfg mu t need addr w len = .fail .addressNotFound := by
  simp [busRead, misaligned, ha, hd]

theorem busRead_noRule {cfg : Config} {mu : MemoryUnit} {t : Transfer} {need : List Access} {addr : Word}
    {w : Width} {len : Nat} {dev : Device} (ha : addr.toNat % w.bytes = 0)
    (hd : findDevice cfg addr = some dev) (hb : dev.kind.memoryBacked = false) :
    busRead cfg mu t need addr w len = .noRule dev.kind := by
  simp [busRead, misaligned, ha, hd, hb]

/-- A read that succeeds: its bytes, and why. -/
theorem busRead_ok {cfg : Config} {mu : MemoryUnit} {t : Transfer} {need : List Access} {addr : Word} {w : Width}
    {len : Nat} {bs : List Byte} (h : busRead cfg mu t need addr w len = .ok bs) :
    ∃ dev, addr.toNat % w.bytes = 0 ∧ findDevice cfg addr = some dev ∧
      dev.kind.memoryBacked = true ∧ t.inDevice mu dev addr len = true ∧
      mu.inBounds (deviceAddr mu dev addr) len = true ∧
      mu.allow need (deviceAddr mu dev addr) len = true ∧
      bs = mu.bytesAt (deviceAddr mu dev addr) len := by
  by_cases ha : addr.toNat % w.bytes = 0
  · cases hd : findDevice cfg addr with
    | none => rw [busRead_notFound ha hd] at h; cases h
    | some dev =>
      cases hb : dev.kind.memoryBacked with
      | false => rw [busRead_noRule ha hd hb] at h; cases h
      | true =>
        cases ht : t.inDevice mu dev addr len with
        | false => rw [busRead_beyond ha hd hb ht] at h; cases h
        | true =>
          rw [busRead_device ha hd hb ht] at h
          rcases read_cases mu need (deviceAddr mu dev addr) len with
            ⟨_, hr⟩ | ⟨_, _, hr⟩ | ⟨h1, h2, hr⟩
          · rw [hr] at h; cases h
          · rw [hr] at h; cases h
          · rw [hr] at h; cases h; exact ⟨dev, ha, rfl, hb, ht, h1, h2, rfl⟩
  · rw [busRead_misaligned ha] at h; cases h

/-- Only a device that is not memory-backed leaves a read without a rule. -/
theorem busRead_noRule_inv {cfg : Config} {mu : MemoryUnit} {t : Transfer} {need : List Access} {addr : Word}
    {w : Width} {len : Nat} {k : DeviceKind} (h : busRead cfg mu t need addr w len = .noRule k) :
    ∃ dev, findDevice cfg addr = some dev ∧ dev.kind.memoryBacked = false ∧ k = dev.kind := by
  by_cases ha : addr.toNat % w.bytes = 0
  · cases hd : findDevice cfg addr with
    | none => rw [busRead_notFound ha hd] at h; cases h
    | some dev =>
      cases hb : dev.kind.memoryBacked with
      | false => rw [busRead_noRule ha hd hb] at h; cases h; exact ⟨dev, rfl, hb, rfl⟩
      | true =>
        cases ht : t.inDevice mu dev addr len with
        | false => rw [busRead_beyond ha hd hb ht] at h; cases h
        | true =>
          rw [busRead_device ha hd hb ht] at h
          rcases read_cases mu need (deviceAddr mu dev addr) len with
            ⟨_, hr⟩ | ⟨_, _, hr⟩ | ⟨_, _, hr⟩ <;> rw [hr] at h <;> cases h
  · rw [busRead_misaligned ha] at h; cases h

/-! ### Writes (20_memory.md R86, R87, R88) -/

theorem busWrite_misaligned {cfg : Config} {mu : MemoryUnit} {t : Transfer} {addr : Word} {w : Width}
    {bs : List Byte} (ha : addr.toNat % w.bytes ≠ 0) :
    busWrite cfg mu t addr w bs = .fail .writeMisaligned := by
  simp [busWrite, misaligned, ha]

theorem busWrite_notFound {cfg : Config} {mu : MemoryUnit} {t : Transfer} {addr : Word} {w : Width}
    {bs : List Byte} (ha : addr.toNat % w.bytes = 0) (hd : findDevice cfg addr = none) :
    busWrite cfg mu t addr w bs = .fail .addressNotFound := by
  simp [busWrite, misaligned, ha, hd]

theorem busWrite_readOnly {cfg : Config} {mu : MemoryUnit} {t : Transfer} {addr : Word} {w : Width}
    {bs : List Byte} {dev : Device} (ha : addr.toNat % w.bytes = 0)
    (hd : findDevice cfg addr = some dev) (hf : dev.writeFlag = false) :
    busWrite cfg mu t addr w bs = .fail .accessDenied := by
  simp [busWrite, misaligned, ha, hd, hf]

theorem busWrite_noRule {cfg : Config} {mu : MemoryUnit} {t : Transfer} {addr : Word} {w : Width}
    {bs : List Byte} {dev : Device} (ha : addr.toNat % w.bytes = 0)
    (hd : findDevice cfg addr = some dev) (hf : dev.writeFlag = true)
    (hb : dev.kind.memoryBacked = false) :
    busWrite cfg mu t addr w bs = .noRule dev.kind := by
  simp [busWrite, misaligned, ha, hd, hf, hb]

/-- A write that is aligned and routed to a writable memory-backed device is the MemoryUnit's write. -/
theorem busWrite_device {cfg : Config} {mu : MemoryUnit} {t : Transfer} {addr : Word} {w : Width}
    {bs : List Byte} {dev : Device} (ha : addr.toNat % w.bytes = 0)
    (hd : findDevice cfg addr = some dev) (hf : dev.writeFlag = true)
    (hb : dev.kind.memoryBacked = true) (ht : t.inDevice mu dev addr bs.length = true) :
    busWrite cfg mu t addr w bs = .ofMu (mu.write cfg (deviceAddr mu dev addr) bs) := by
  simp [busWrite, misaligned, ha, hd, hf, hb, ht]

theorem busWrite_beyond {cfg : Config} {mu : MemoryUnit} {t : Transfer} {addr : Word} {w : Width}
    {bs : List Byte} {dev : Device} (ha : addr.toNat % w.bytes = 0)
    (hd : findDevice cfg addr = some dev) (hf : dev.writeFlag = true)
    (hb : dev.kind.memoryBacked = true) (ht : t.inDevice mu dev addr bs.length = false) :
    busWrite cfg mu t addr w bs = .fail .deviceFailure := by
  simp [busWrite, misaligned, ha, hd, hf, hb, ht]

/-- A write that succeeds: what it leaves, and why. -/
theorem busWrite_ok {cfg : Config} {mu mu' : MemoryUnit} {t : Transfer} {addr : Word} {w : Width}
    {bs : List Byte} (h : busWrite cfg mu t addr w bs = .ok mu') :
    ∃ dev, addr.toNat % w.bytes = 0 ∧ findDevice cfg addr = some dev ∧ dev.writeFlag = true ∧
      dev.kind.memoryBacked = true ∧ t.inDevice mu dev addr bs.length = true ∧
      mu.inBounds (deviceAddr mu dev addr) bs.length = true ∧
      mu.allow [.write] (deviceAddr mu dev addr) bs.length = true ∧
      mu' = mu.storeBytes cfg (deviceAddr mu dev addr) bs := by
  by_cases ha : addr.toNat % w.bytes = 0
  · cases hd : findDevice cfg addr with
    | none => rw [busWrite_notFound ha hd] at h; cases h
    | some dev =>
      cases hf : dev.writeFlag with
      | false => rw [busWrite_readOnly ha hd hf] at h; cases h
      | true =>
        cases hb : dev.kind.memoryBacked with
        | false => rw [busWrite_noRule ha hd hf hb] at h; cases h
        | true =>
          cases ht : t.inDevice mu dev addr bs.length with
          | false => rw [busWrite_beyond ha hd hf hb ht] at h; cases h
          | true =>
            rw [busWrite_device ha hd hf hb ht] at h
            rcases write_cases cfg mu (deviceAddr mu dev addr) bs with
              ⟨_, hr⟩ | ⟨_, _, hr⟩ | ⟨h1, h2, hr⟩
            · rw [hr] at h; cases h
            · rw [hr] at h; cases h
            · rw [hr] at h; cases h; exact ⟨dev, ha, rfl, hf, hb, ht, h1, h2, rfl⟩
  · rw [busWrite_misaligned ha] at h; cases h

/-- Only a device that is not memory-backed leaves a write without a rule. -/
theorem busWrite_noRule_inv {cfg : Config} {mu : MemoryUnit} {t : Transfer} {addr : Word} {w : Width}
    {bs : List Byte} {k : DeviceKind} (h : busWrite cfg mu t addr w bs = .noRule k) :
    ∃ dev, findDevice cfg addr = some dev ∧ dev.kind.memoryBacked = false ∧ k = dev.kind := by
  by_cases ha : addr.toNat % w.bytes = 0
  · cases hd : findDevice cfg addr with
    | none => rw [busWrite_notFound ha hd] at h; cases h
    | some dev =>
      cases hf : dev.writeFlag with
      | false => rw [busWrite_readOnly ha hd hf] at h; cases h
      | true =>
        cases hb : dev.kind.memoryBacked with
        | false => rw [busWrite_noRule ha hd hf hb] at h; cases h; exact ⟨dev, rfl, hb, rfl⟩
        | true =>
          cases ht : t.inDevice mu dev addr bs.length with
          | false => rw [busWrite_beyond ha hd hf hb ht] at h; cases h
          | true =>
            rw [busWrite_device ha hd hf hb ht] at h
            rcases write_cases cfg mu (deviceAddr mu dev addr) bs with
              ⟨_, hr⟩ | ⟨_, _, hr⟩ | ⟨_, _, hr⟩ <;> rw [hr] at h <;> cases h
  · rw [busWrite_misaligned ha] at h; cases h

theorem wf_busWrite {cfg : Config} {mu mu' : MemoryUnit} (hm : Memory.wf mu) {t : Transfer}
    {addr : Word} {w : Width} {bs : List Byte} (h : busWrite cfg mu t addr w bs = .ok mu') : Memory.wf mu' := by
  obtain ⟨dev, _, _, _, _, _, _, _, rfl⟩ := busWrite_ok h
  exact wf_storeBytes hm cfg _ bs

/-! ### Several units (20_memory.md R92) -/

@[simp] theorem length_unitsOfBytes (n count : Nat) (bs : List Byte) :
    (unitsOfBytes n count bs).length = count := by
  induction count generalizing bs with
  | zero => rfl
  | succ count ih => simp [unitsOfBytes, ih]

/-- Element `i` is made of the bytes from `i * n` on. -/
theorem getD_unitsOfBytes (n count i : Nat) (bs : List Byte) (h : i < count) :
    (unitsOfBytes n count bs).getD i 0 = wordOfBytes ((bs.drop (i * n)).take n) := by
  induction count generalizing i bs with
  | zero => omega
  | succ count ih =>
    cases i with
    | zero => simp [unitsOfBytes]
    | succ i =>
      rw [unitsOfBytes, List.getD_cons_succ, ih i _ (by omega), List.drop_drop,
        show n + i * n = (i + 1) * n by rw [Nat.succ_mul, Nat.add_comm]]

/-- The words of a range of the arena. -/
theorem unitsOfBytes_bytesAt (mu : MemoryUnit) (a n count : Nat) :
    unitsOfBytes n count (mu.bytesAt a (count * n)) =
      (List.range count).map fun i => wordOfBytes (mu.bytesAt (a + i * n) n) := by
  induction count generalizing a with
  | zero => rfl
  | succ count ih =>
    have htake : (mu.bytesAt a ((count + 1) * n)).take n = mu.bytesAt a n := by
      rw [bytesAt_eq_map, bytesAt_eq_map, ← List.map_take, List.take_range,
        Nat.min_eq_left (by rw [Nat.succ_mul]; omega)]
    have hdrop : (mu.bytesAt a ((count + 1) * n)).drop n = mu.bytesAt (a + n) (count * n) := by
      rw [bytesAt_eq_map, bytesAt_eq_map]
      apply List.ext_getElem
      · simp [Nat.succ_mul]
      · intro i h1 h2
        simp [Nat.add_assoc]
    rw [unitsOfBytes, htake, hdrop, ih, List.range_succ_eq_map, List.map_cons, List.map_map]
    simp only [Nat.zero_mul, Nat.add_zero, Function.comp_def, List.cons.injEq, true_and]
    refine List.map_congr_left fun i _ => ?_
    rw [show a + n + i * n = a + (i + 1) * n by rw [Nat.succ_mul]; omega]

/-- A refill that succeeds brings `PREFETCH_DEPTH` words, so at least one. -/
theorem fetchRefill_length {cfg : Config} {mu : MemoryUnit} {pc : Word} {ws : List Word}
    (h : fetchRefill cfg mu pc = .ok ws) : ws.length = cfg.prefetchDepth := by
  unfold fetchRefill readUnits at h
  cases hb : busRead cfg mu .fetch (fetchNeeds cfg) pc .word (cfg.prefetchDepth * Width.word.bytes) with
  | ok bs => rw [hb] at h; cases h; simp
  | fail st => rw [hb] at h; cases h
  | noRule k => rw [hb] at h; cases h

theorem fetchRefill_ne_nil {cfg : Config} {mu : MemoryUnit} {pc : Word} {ws : List Word}
    (h : fetchRefill cfg mu pc = .ok ws) : ws ≠ [] := by
  intro hn
  have := fetchRefill_length h
  simp [hn, Config.prefetchDepth] at this

end Sys2Proof.Machine
end

