-- ==== Sys2Proof/Laws/Encoding.lean ====
section
/-! SUPPORT. The fields of an encoded word: each field of each format is the one that was put in
(30_encoding.md R121 to R129). Later proofs use these instead of unfolding the formats. -/

set_option linter.unusedSimpArgs false

namespace Sys2Proof

@[simp] theorem opcodeOf_encR (f7 : BitVec 7) (rs2 rs1 : RegIdx) (f3 : BitVec 3) (rd : RegIdx) (op : BitVec 7) :
    opcodeOf (encR f7 rs2 rs1 f3 rd op) = op := by
  ext i hi
  simp only [opcodeOf, encR, BitVec.getElem_extractLsb', BitVec.getElem_append, BitVec.getLsbD_append,
    BitVec.getLsbD_extractLsb']
  grind

@[simp] theorem rdOf_encR (f7 : BitVec 7) (rs2 rs1 : RegIdx) (f3 : BitVec 3) (rd : RegIdx) (op : BitVec 7) :
    rdOf (encR f7 rs2 rs1 f3 rd op) = rd := by
  ext i hi
  simp only [rdOf, encR, BitVec.getElem_extractLsb', BitVec.getElem_append, BitVec.getLsbD_append,
    BitVec.getLsbD_extractLsb']
  grind

@[simp] theorem funct3Of_encR (f7 : BitVec 7) (rs2 rs1 : RegIdx) (f3 : BitVec 3) (rd : RegIdx) (op : BitVec 7) :
    funct3Of (encR f7 rs2 rs1 f3 rd op) = f3 := by
  ext i hi
  simp only [funct3Of, encR, BitVec.getElem_extractLsb', BitVec.getElem_append, BitVec.getLsbD_append,
    BitVec.getLsbD_extractLsb']
  grind

@[simp] theorem rs1Of_encR (f7 : BitVec 7) (rs2 rs1 : RegIdx) (f3 : BitVec 3) (rd : RegIdx) (op : BitVec 7) :
    rs1Of (encR f7 rs2 rs1 f3 rd op) = rs1 := by
  ext i hi
  simp only [rs1Of, encR, BitVec.getElem_extractLsb', BitVec.getElem_append, BitVec.getLsbD_append,
    BitVec.getLsbD_extractLsb']
  grind

@[simp] theorem rs2Of_encR (f7 : BitVec 7) (rs2 rs1 : RegIdx) (f3 : BitVec 3) (rd : RegIdx) (op : BitVec 7) :
    rs2Of (encR f7 rs2 rs1 f3 rd op) = rs2 := by
  ext i hi
  simp only [rs2Of, encR, BitVec.getElem_extractLsb', BitVec.getElem_append, BitVec.getLsbD_append,
    BitVec.getLsbD_extractLsb']
  grind

@[simp] theorem funct7Of_encR (f7 : BitVec 7) (rs2 rs1 : RegIdx) (f3 : BitVec 3) (rd : RegIdx) (op : BitVec 7) :
    funct7Of (encR f7 rs2 rs1 f3 rd op) = f7 := by
  ext i hi
  simp only [funct7Of, encR, BitVec.getElem_extractLsb', BitVec.getElem_append, BitVec.getLsbD_append,
    BitVec.getLsbD_extractLsb']
  grind

@[simp] theorem opcodeOf_encI (imm : BitVec 12) (rs1 : RegIdx) (f3 : BitVec 3) (rd : RegIdx) (op : BitVec 7) :
    opcodeOf (encI imm rs1 f3 rd op) = op := by
  ext i hi
  simp only [opcodeOf, encI, BitVec.getElem_extractLsb', BitVec.getElem_append, BitVec.getLsbD_append,
    BitVec.getLsbD_extractLsb']
  grind

@[simp] theorem rdOf_encI (imm : BitVec 12) (rs1 : RegIdx) (f3 : BitVec 3) (rd : RegIdx) (op : BitVec 7) :
    rdOf (encI imm rs1 f3 rd op) = rd := by
  ext i hi
  simp only [rdOf, encI, BitVec.getElem_extractLsb', BitVec.getElem_append, BitVec.getLsbD_append,
    BitVec.getLsbD_extractLsb']
  grind

@[simp] theorem funct3Of_encI (imm : BitVec 12) (rs1 : RegIdx) (f3 : BitVec 3) (rd : RegIdx) (op : BitVec 7) :
    funct3Of (encI imm rs1 f3 rd op) = f3 := by
  ext i hi
  simp only [funct3Of, encI, BitVec.getElem_extractLsb', BitVec.getElem_append, BitVec.getLsbD_append,
    BitVec.getLsbD_extractLsb']
  grind

@[simp] theorem rs1Of_encI (imm : BitVec 12) (rs1 : RegIdx) (f3 : BitVec 3) (rd : RegIdx) (op : BitVec 7) :
    rs1Of (encI imm rs1 f3 rd op) = rs1 := by
  ext i hi
  simp only [rs1Of, encI, BitVec.getElem_extractLsb', BitVec.getElem_append, BitVec.getLsbD_append,
    BitVec.getLsbD_extractLsb']
  grind

@[simp] theorem immIOf_encI (imm : BitVec 12) (rs1 : RegIdx) (f3 : BitVec 3) (rd : RegIdx) (op : BitVec 7) :
    immIOf (encI imm rs1 f3 rd op) = imm := by
  ext i hi
  simp only [immIOf, encI, BitVec.getElem_extractLsb', BitVec.getElem_append, BitVec.getLsbD_append,
    BitVec.getLsbD_extractLsb']
  grind

@[simp] theorem csrOf_encI (imm : BitVec 12) (rs1 : RegIdx) (f3 : BitVec 3) (rd : RegIdx) (op : BitVec 7) :
    csrOf (encI imm rs1 f3 rd op) = imm := by
  ext i hi
  simp only [csrOf, encI, BitVec.getElem_extractLsb', BitVec.getElem_append, BitVec.getLsbD_append,
    BitVec.getLsbD_extractLsb']
  grind

@[simp] theorem opcodeOf_encS (imm : BitVec 12) (rs2 rs1 : RegIdx) (f3 : BitVec 3) (op : BitVec 7) :
    opcodeOf (encS imm rs2 rs1 f3 op) = op := by
  ext i hi
  simp only [opcodeOf, encS, BitVec.getElem_extractLsb', BitVec.getElem_append, BitVec.getLsbD_append,
    BitVec.getLsbD_extractLsb']
  grind

@[simp] theorem funct3Of_encS (imm : BitVec 12) (rs2 rs1 : RegIdx) (f3 : BitVec 3) (op : BitVec 7) :
    funct3Of (encS imm rs2 rs1 f3 op) = f3 := by
  ext i hi
  simp only [funct3Of, encS, BitVec.getElem_extractLsb', BitVec.getElem_append, BitVec.getLsbD_append,
    BitVec.getLsbD_extractLsb']
  grind

@[simp] theorem rs1Of_encS (imm : BitVec 12) (rs2 rs1 : RegIdx) (f3 : BitVec 3) (op : BitVec 7) :
    rs1Of (encS imm rs2 rs1 f3 op) = rs1 := by
  ext i hi
  simp only [rs1Of, encS, BitVec.getElem_extractLsb', BitVec.getElem_append, BitVec.getLsbD_append,
    BitVec.getLsbD_extractLsb']
  grind

@[simp] theorem rs2Of_encS (imm : BitVec 12) (rs2 rs1 : RegIdx) (f3 : BitVec 3) (op : BitVec 7) :
    rs2Of (encS imm rs2 rs1 f3 op) = rs2 := by
  ext i hi
  simp only [rs2Of, encS, BitVec.getElem_extractLsb', BitVec.getElem_append, BitVec.getLsbD_append,
    BitVec.getLsbD_extractLsb']
  grind

@[simp] theorem immSOf_encS (imm : BitVec 12) (rs2 rs1 : RegIdx) (f3 : BitVec 3) (op : BitVec 7) :
    immSOf (encS imm rs2 rs1 f3 op) = imm := by
  apply BitVec.eq_of_getLsbD_eq
  intro i hi
  simp only [immSOf, encS, BitVec.getLsbD_append, BitVec.getLsbD_extractLsb']
  grind

@[simp] theorem opcodeOf_encB (off : BitVec 13) (rs2 rs1 : RegIdx) (f3 : BitVec 3) (op : BitVec 7) :
    opcodeOf (encB off rs2 rs1 f3 op) = op := by
  ext i hi
  simp only [opcodeOf, encB, BitVec.getElem_extractLsb', BitVec.getElem_append, BitVec.getLsbD_append,
    BitVec.getLsbD_extractLsb']
  grind

@[simp] theorem funct3Of_encB (off : BitVec 13) (rs2 rs1 : RegIdx) (f3 : BitVec 3) (op : BitVec 7) :
    funct3Of (encB off rs2 rs1 f3 op) = f3 := by
  ext i hi
  simp only [funct3Of, encB, BitVec.getElem_extractLsb', BitVec.getElem_append, BitVec.getLsbD_append,
    BitVec.getLsbD_extractLsb']
  grind

@[simp] theorem rs1Of_encB (off : BitVec 13) (rs2 rs1 : RegIdx) (f3 : BitVec 3) (op : BitVec 7) :
    rs1Of (encB off rs2 rs1 f3 op) = rs1 := by
  ext i hi
  simp only [rs1Of, encB, BitVec.getElem_extractLsb', BitVec.getElem_append, BitVec.getLsbD_append,
    BitVec.getLsbD_extractLsb']
  grind

@[simp] theorem rs2Of_encB (off : BitVec 13) (rs2 rs1 : RegIdx) (f3 : BitVec 3) (op : BitVec 7) :
    rs2Of (encB off rs2 rs1 f3 op) = rs2 := by
  ext i hi
  simp only [rs2Of, encB, BitVec.getElem_extractLsb', BitVec.getElem_append, BitVec.getLsbD_append,
    BitVec.getLsbD_extractLsb']
  grind

@[simp] theorem opcodeOf_encU (imm : BitVec 20) (rd : RegIdx) (op : BitVec 7) :
    opcodeOf (encU imm rd op) = op := by
  ext i hi
  simp only [opcodeOf, encU, BitVec.getElem_extractLsb', BitVec.getElem_append, BitVec.getLsbD_append,
    BitVec.getLsbD_extractLsb']
  grind

@[simp] theorem rdOf_encU (imm : BitVec 20) (rd : RegIdx) (op : BitVec 7) :
    rdOf (encU imm rd op) = rd := by
  ext i hi
  simp only [rdOf, encU, BitVec.getElem_extractLsb', BitVec.getElem_append, BitVec.getLsbD_append,
    BitVec.getLsbD_extractLsb']
  grind

@[simp] theorem immUOf_encU (imm : BitVec 20) (rd : RegIdx) (op : BitVec 7) :
    immUOf (encU imm rd op) = imm := by
  ext i hi
  simp only [immUOf, encU, BitVec.getElem_extractLsb', BitVec.getElem_append, BitVec.getLsbD_append,
    BitVec.getLsbD_extractLsb']
  grind

@[simp] theorem opcodeOf_encJ (off : BitVec 21) (rd : RegIdx) (op : BitVec 7) :
    opcodeOf (encJ off rd op) = op := by
  ext i hi
  simp only [opcodeOf, encJ, BitVec.getElem_extractLsb', BitVec.getElem_append, BitVec.getLsbD_append,
    BitVec.getLsbD_extractLsb']
  grind

@[simp] theorem rdOf_encJ (off : BitVec 21) (rd : RegIdx) (op : BitVec 7) :
    rdOf (encJ off rd op) = rd := by
  ext i hi
  simp only [rdOf, encJ, BitVec.getElem_extractLsb', BitVec.getElem_append, BitVec.getLsbD_append,
    BitVec.getLsbD_extractLsb']
  grind

/-- The B-type offset comes back whole when it is even (R126). -/
theorem immBOf_encB (off : BitVec 13) (rs2 rs1 : RegIdx) (f3 : BitVec 3) (op : BitVec 7)
    (h : branchOffsetOk off = true) : immBOf (encB off rs2 rs1 f3 op) = off := by
  have h0 : off.getLsbD 0 = false := by simpa [branchOffsetOk] using h
  apply BitVec.eq_of_getLsbD_eq
  intro i hi
  simp only [immBOf, encB, BitVec.getLsbD_append, BitVec.getLsbD_extractLsb']
  interval_cases i <;> first | exact h0.symm | simp

/-- The J-type offset comes back whole when it is even (R128). -/
theorem immJOf_encJ (off : BitVec 21) (rd : RegIdx) (op : BitVec 7)
    (h : jumpOffsetOk off = true) : immJOf (encJ off rd op) = off := by
  have h0 : off.getLsbD 0 = false := by simpa [jumpOffsetOk] using h
  apply BitVec.eq_of_getLsbD_eq
  intro i hi
  simp only [immJOf, encJ, BitVec.getLsbD_append, BitVec.getLsbD_extractLsb']
  interval_cases i <;> first | exact h0.symm | simp

/-! ### A word is its fields -/

theorem encR_fields (w : Word) :
    encR (funct7Of w) (rs2Of w) (rs1Of w) (funct3Of w) (rdOf w) (opcodeOf w) = w := by
  apply BitVec.eq_of_getLsbD_eq
  intro i hi
  simp only [encR, funct7Of, rs2Of, rs1Of, funct3Of, rdOf, opcodeOf,
    BitVec.getLsbD_append, BitVec.getLsbD_extractLsb']
  interval_cases i <;> simp

theorem encI_fields (w : Word) :
    encI (immIOf w) (rs1Of w) (funct3Of w) (rdOf w) (opcodeOf w) = w := by
  apply BitVec.eq_of_getLsbD_eq
  intro i hi
  simp only [encI, immIOf, rs2Of, rs1Of, funct3Of, rdOf, opcodeOf,
    BitVec.getLsbD_append, BitVec.getLsbD_extractLsb']
  interval_cases i <;> simp

theorem encS_fields (w : Word) :
    encS (immSOf w) (rs2Of w) (rs1Of w) (funct3Of w) (opcodeOf w) = w := by
  apply BitVec.eq_of_getLsbD_eq
  intro i hi
  simp only [encS, immSOf, rs2Of, rs1Of, funct3Of, rdOf, opcodeOf,
    BitVec.getLsbD_append, BitVec.getLsbD_extractLsb']
  interval_cases i <;> simp

theorem encB_fields (w : Word) :
    encB (immBOf w) (rs2Of w) (rs1Of w) (funct3Of w) (opcodeOf w) = w := by
  apply BitVec.eq_of_getLsbD_eq
  intro i hi
  simp only [encB, immBOf, rs2Of, rs1Of, funct3Of, rdOf, opcodeOf,
    BitVec.getLsbD_append, BitVec.getLsbD_extractLsb']
  interval_cases i <;> simp

theorem encU_fields (w : Word) :
    encU (immUOf w) (rdOf w) (opcodeOf w) = w := by
  apply BitVec.eq_of_getLsbD_eq
  intro i hi
  simp only [encU, immUOf, rs2Of, rs1Of, funct3Of, rdOf, opcodeOf,
    BitVec.getLsbD_append, BitVec.getLsbD_extractLsb']
  interval_cases i <;> simp

theorem encJ_fields (w : Word) :
    encJ (immJOf w) (rdOf w) (opcodeOf w) = w := by
  apply BitVec.eq_of_getLsbD_eq
  intro i hi
  simp only [encJ, immJOf, rs2Of, rs1Of, funct3Of, rdOf, opcodeOf,
    BitVec.getLsbD_append, BitVec.getLsbD_extractLsb']
  interval_cases i <;> simp

theorem branchOffsetOk_immBOf (w : Word) : branchOffsetOk (immBOf w) = true := by
  unfold branchOffsetOk immBOf
  rw [BitVec.getLsbD_append]
  rfl

theorem jumpOffsetOk_immJOf (w : Word) : jumpOffsetOk (immJOf w) = true := by
  unfold jumpOffsetOk immJOf
  rw [BitVec.getLsbD_append]
  rfl

/-! ### The masks of the opcode table (30_encoding.md section 3) -/

theorem mask_opcode (w p : Word) (h : p &&& 0x7F#32 = p) :
    w &&& 0x7F#32 = p ↔ opcodeOf w = opcodeOf p := by
  constructor
  · intro e
    rw [← e]
    ext i hi
    simp only [opcodeOf, BitVec.getElem_extractLsb', BitVec.getLsbD_and]
    interval_cases i <;> simp
  · intro e
    rw [← h]
    apply BitVec.eq_of_getLsbD_eq
    intro i hi
    have hb := congrArg (fun v => v.getLsbD i) e
    simp only [opcodeOf, BitVec.getLsbD_extractLsb', Nat.zero_add] at hb
    simp only [BitVec.getLsbD_and]
    interval_cases i <;> simp_all

theorem mask_funct3 (w p : Word) (h : p &&& 0x707F#32 = p) :
    w &&& 0x707F#32 = p ↔ opcodeOf w = opcodeOf p ∧ funct3Of w = funct3Of p := by
  constructor
  · intro e
    rw [← e]
    constructor <;> ext i hi <;>
      simp only [opcodeOf, funct3Of, BitVec.getElem_extractLsb', BitVec.getLsbD_and] <;>
      interval_cases i <;> simp
  · rintro ⟨e, e3⟩
    rw [← h]
    apply BitVec.eq_of_getLsbD_eq
    intro i hi
    have hb := congrArg (fun v => v.getLsbD i) e
    have hb3 := congrArg (fun v => v.getLsbD (i - 12)) e3
    simp only [opcodeOf, funct3Of, BitVec.getLsbD_extractLsb', Nat.zero_add] at hb hb3
    simp only [BitVec.getLsbD_and]
    interval_cases i <;> simp_all

theorem mask_funct7 (w p : Word) (h : p &&& 0xFE00707F#32 = p) :
    w &&& 0xFE00707F#32 = p ↔
      opcodeOf w = opcodeOf p ∧ funct3Of w = funct3Of p ∧ funct7Of w = funct7Of p := by
  constructor
  · intro e
    rw [← e]
    refine ⟨?_, ?_, ?_⟩ <;> ext i hi <;>
      simp only [opcodeOf, funct3Of, funct7Of, BitVec.getElem_extractLsb', BitVec.getLsbD_and] <;>
      interval_cases i <;> simp
  · rintro ⟨e, e3, e7⟩
    rw [← h]
    apply BitVec.eq_of_getLsbD_eq
    intro i hi
    have hb := congrArg (fun v => v.getLsbD i) e
    have hb3 := congrArg (fun v => v.getLsbD (i - 12)) e3
    have hb7 := congrArg (fun v => v.getLsbD (i - 25)) e7
    simp only [opcodeOf, funct3Of, funct7Of, BitVec.getLsbD_extractLsb', Nat.zero_add] at hb hb3 hb7
    simp only [BitVec.getLsbD_and]
    interval_cases i <;> simp_all

end Sys2Proof
end

