-- ==== Sys2Proof/Laws/State.lean ====
section
/-! SUPPORT. One lemma for each field of each update of a core and of the machine, true by unfolding
once, so that no later proof unfolds a record update. -/

namespace Sys2Proof.Machine

/-! ### A core -/

@[simp] theorem Core_tick_id (cfg : Config) (c : Core) : (c.tick cfg).id = c.id := rfl
@[simp] theorem Core_tick_pc (cfg : Config) (c : Core) : (c.tick cfg).pc = c.pc := rfl
@[simp] theorem Core_tick_regs (cfg : Config) (c : Core) : (c.tick cfg).regs = c.regs := rfl
@[simp] theorem Core_tick_stage (cfg : Config) (c : Core) : (c.tick cfg).stage = c.stage := rfl
@[simp] theorem Core_tick_trapState (cfg : Config) (c : Core) : (c.tick cfg).trapState = c.trapState := rfl
@[simp] theorem Core_tick_prefetch (cfg : Config) (c : Core) : (c.tick cfg).prefetch = c.prefetch := rfl
@[simp] theorem Core_tick_d (cfg : Config) (c : Core) : (c.tick cfg).d = c.d := rfl
@[simp] theorem Core_tick_cycle (cfg : Config) (c : Core) :
    (c.tick cfg).cycle = (c.cycle + 1) % 2 ^ cfg.cycleWidth := rfl
@[simp] theorem Core_tick_halted (cfg : Config) (c : Core) : (c.tick cfg).halted = c.halted := rfl
@[simp] theorem Core_tick_trap (cfg : Config) (c : Core) : (c.tick cfg).trap = c.trap := rfl
@[simp] theorem Core_tick_csr (cfg : Config) (c : Core) : (c.tick cfg).csr = c.csr := rfl
@[simp] theorem Core_tick_hostResults (cfg : Config) (c : Core) : (c.tick cfg).hostResults = c.hostResults := rfl

@[simp] theorem Core_raise_id (e : Cause) (c : Core) : (c.raise e).id = c.id := rfl
@[simp] theorem Core_raise_pc (e : Cause) (c : Core) : (c.raise e).pc = c.pc := rfl
@[simp] theorem Core_raise_regs (e : Cause) (c : Core) : (c.raise e).regs = c.regs := rfl
@[simp] theorem Core_raise_stage (e : Cause) (c : Core) :
    (c.raise e).stage = .trap := rfl
@[simp] theorem Core_raise_trapState (e : Cause) (c : Core) :
    (c.raise e).trapState = .enter := rfl
@[simp] theorem Core_raise_prefetch (e : Cause) (c : Core) : (c.raise e).prefetch = c.prefetch := rfl
@[simp] theorem Core_raise_d (e : Cause) (c : Core) : (c.raise e).d = c.d := rfl
@[simp] theorem Core_raise_cycle (e : Cause) (c : Core) : (c.raise e).cycle = c.cycle := rfl
@[simp] theorem Core_raise_halted (e : Cause) (c : Core) : (c.raise e).halted = c.halted := rfl
@[simp] theorem Core_raise_trap (e : Cause) (c : Core) :
    (c.raise e).trap = { c.trap with cause := e } := rfl
@[simp] theorem Core_raise_csr (e : Cause) (c : Core) : (c.raise e).csr = c.csr := rfl
@[simp] theorem Core_raise_hostResults (e : Cause) (c : Core) : (c.raise e).hostResults = c.hostResults := rfl

@[simp] theorem Core_enterTrap_id (cfg : Config) (c : Core) : (c.enterTrap cfg).id = c.id := rfl
@[simp] theorem Core_enterTrap_pc (cfg : Config) (c : Core) :
    (c.enterTrap cfg).pc = cfg.trapVector := rfl
@[simp] theorem Core_enterTrap_regs (cfg : Config) (c : Core) : (c.enterTrap cfg).regs = c.regs := rfl
@[simp] theorem Core_enterTrap_stage (cfg : Config) (c : Core) :
    (c.enterTrap cfg).stage = .trap := rfl
@[simp] theorem Core_enterTrap_trapState (cfg : Config) (c : Core) :
    (c.enterTrap cfg).trapState = .handle := rfl
@[simp] theorem Core_enterTrap_prefetch (cfg : Config) (c : Core) :
    (c.enterTrap cfg).prefetch = [] := rfl
@[simp] theorem Core_enterTrap_d (cfg : Config) (c : Core) : (c.enterTrap cfg).d = c.d := rfl
@[simp] theorem Core_enterTrap_cycle (cfg : Config) (c : Core) :
    (c.enterTrap cfg).cycle = (c.cycle + 1) % 2 ^ cfg.cycleWidth := rfl
@[simp] theorem Core_enterTrap_halted (cfg : Config) (c : Core) : (c.enterTrap cfg).halted = c.halted := rfl
@[simp] theorem Core_enterTrap_trap (cfg : Config) (c : Core) :
    (c.enterTrap cfg).trap = { c.trap with snapshot := c.regs.set 0 0, savedPc := c.pc } := rfl
@[simp] theorem Core_enterTrap_csr (cfg : Config) (c : Core) :
    (c.enterTrap cfg).csr = (c.csr.write 0x341 c.pc).write 0x342 c.trap.cause.code := rfl
@[simp] theorem Core_enterTrap_hostResults (cfg : Config) (c : Core) :
    (c.enterTrap cfg).hostResults = [] := rfl

@[simp] theorem Core_exitTrap_id (cfg : Config) (c : Core) : (c.exitTrap cfg).id = c.id := rfl
@[simp] theorem Core_exitTrap_pc (cfg : Config) (c : Core) :
    (c.exitTrap cfg).pc = nextPc (c.csr.read 0x341) := rfl
@[simp] theorem Core_exitTrap_regs (cfg : Config) (c : Core) :
    (c.exitTrap cfg).regs = c.trap.snapshot.set 0 c.regs[0] := rfl
@[simp] theorem Core_exitTrap_stage (cfg : Config) (c : Core) :
    (c.exitTrap cfg).stage = .fetch := rfl
@[simp] theorem Core_exitTrap_trapState (cfg : Config) (c : Core) :
    (c.exitTrap cfg).trapState = .none := rfl
@[simp] theorem Core_exitTrap_prefetch (cfg : Config) (c : Core) :
    (c.exitTrap cfg).prefetch = [] := rfl
@[simp] theorem Core_exitTrap_d (cfg : Config) (c : Core) : (c.exitTrap cfg).d = c.d := rfl
@[simp] theorem Core_exitTrap_cycle (cfg : Config) (c : Core) :
    (c.exitTrap cfg).cycle = (c.cycle + 1) % 2 ^ cfg.cycleWidth := rfl
@[simp] theorem Core_exitTrap_halted (cfg : Config) (c : Core) : (c.exitTrap cfg).halted = c.halted := rfl
@[simp] theorem Core_exitTrap_trap (cfg : Config) (c : Core) : (c.exitTrap cfg).trap = c.trap := rfl
@[simp] theorem Core_exitTrap_csr (cfg : Config) (c : Core) : (c.exitTrap cfg).csr = c.csr := rfl
@[simp] theorem Core_exitTrap_hostResults (cfg : Config) (c : Core) : (c.exitTrap cfg).hostResults = c.hostResults := rfl

@[simp] theorem Core_answerTrap_id (cfg : Config) (b : Bool) (a0 : Option Word) (c : Core) : (c.answerTrap cfg b a0).id = c.id := rfl
@[simp] theorem Core_answerTrap_pc (cfg : Config) (b : Bool) (a0 : Option Word) (c : Core) : (c.answerTrap cfg b a0).pc = c.pc := rfl
@[simp] theorem Core_answerTrap_regs (cfg : Config) (b : Bool) (a0 : Option Word) (c : Core) : (c.answerTrap cfg b a0).regs = c.regs := rfl
@[simp] theorem Core_answerTrap_stage (cfg : Config) (b : Bool) (a0 : Option Word) (c : Core) : (c.answerTrap cfg b a0).stage = c.stage := rfl
@[simp] theorem Core_answerTrap_trapState (cfg : Config) (b : Bool) (a0 : Option Word) (c : Core) :
    (c.answerTrap cfg b a0).trapState = if b then .exit else .handle := rfl
@[simp] theorem Core_answerTrap_prefetch (cfg : Config) (b : Bool) (a0 : Option Word) (c : Core) : (c.answerTrap cfg b a0).prefetch = c.prefetch := rfl
@[simp] theorem Core_answerTrap_d (cfg : Config) (b : Bool) (a0 : Option Word) (c : Core) : (c.answerTrap cfg b a0).d = c.d := rfl
@[simp] theorem Core_answerTrap_cycle (cfg : Config) (b : Bool) (a0 : Option Word) (c : Core) :
    (c.answerTrap cfg b a0).cycle = (c.cycle + 1) % 2 ^ cfg.cycleWidth := rfl
@[simp] theorem Core_answerTrap_halted (cfg : Config) (b : Bool) (a0 : Option Word) (c : Core) :
    (c.answerTrap cfg b a0).halted = !b := rfl
@[simp] theorem Core_answerTrap_csr (cfg : Config) (b : Bool) (a0 : Option Word) (c : Core) : (c.answerTrap cfg b a0).csr = c.csr := rfl
@[simp] theorem Core_answerTrap_hostResults (cfg : Config) (b : Bool) (a0 : Option Word) (c : Core) :
    (c.answerTrap cfg b a0).hostResults = [] := rfl

/-! ### Registers -/

/-- A read after a write: the value at the register written, if it is not register 0; every other
register as before (10_state.md R22, R23). -/
theorem Core.x_setX (c : Core) (i r : RegIdx) (v : Word) :
    (c.setX i v).x r = if r = i ∧ r ≠ 0 then v else c.x r := by
  unfold Core.setX Core.x
  by_cases hi : i = 0 <;> by_cases hr : r = 0 <;> simp_all [Vector.getElem_set]
  by_cases h : i = r
  · simp [h]
  · have : i.toNat ≠ r.toNat := fun e => h (BitVec.eq_of_toNat_eq e)
    simp [this, Ne.symm h]

@[simp] theorem Core.x_zero (c : Core) : c.x 0 = 0 := rfl

/-- A register read depends on the register storage only. -/
theorem Core.x_congr {c c' : Core} (h : c'.regs = c.regs) (r : RegIdx) : c'.x r = c.x r := by
  unfold Core.x; rw [h]

@[simp] theorem Core_setX_id (c : Core) (i : RegIdx) (v : Word) :
    (c.setX i v).id = c.id := by unfold Core.setX; split <;> rfl
@[simp] theorem Core_setX_pc (c : Core) (i : RegIdx) (v : Word) :
    (c.setX i v).pc = c.pc := by unfold Core.setX; split <;> rfl
@[simp] theorem Core_setX_stage (c : Core) (i : RegIdx) (v : Word) :
    (c.setX i v).stage = c.stage := by unfold Core.setX; split <;> rfl
@[simp] theorem Core_setX_trapState (c : Core) (i : RegIdx) (v : Word) :
    (c.setX i v).trapState = c.trapState := by unfold Core.setX; split <;> rfl
@[simp] theorem Core_setX_prefetch (c : Core) (i : RegIdx) (v : Word) :
    (c.setX i v).prefetch = c.prefetch := by unfold Core.setX; split <;> rfl
@[simp] theorem Core_setX_d (c : Core) (i : RegIdx) (v : Word) :
    (c.setX i v).d = c.d := by unfold Core.setX; split <;> rfl
@[simp] theorem Core_setX_cycle (c : Core) (i : RegIdx) (v : Word) :
    (c.setX i v).cycle = c.cycle := by unfold Core.setX; split <;> rfl
@[simp] theorem Core_setX_halted (c : Core) (i : RegIdx) (v : Word) :
    (c.setX i v).halted = c.halted := by unfold Core.setX; split <;> rfl
@[simp] theorem Core_setX_trap (c : Core) (i : RegIdx) (v : Word) :
    (c.setX i v).trap = c.trap := by unfold Core.setX; split <;> rfl
@[simp] theorem Core_setX_csr (c : Core) (i : RegIdx) (v : Word) :
    (c.setX i v).csr = c.csr := by unfold Core.setX; split <;> rfl
@[simp] theorem Core_setX_hostResults (c : Core) (i : RegIdx) (v : Word) :
    (c.setX i v).hostResults = c.hostResults := by unfold Core.setX; split <;> rfl

/-! ### The commits of WRITEBACK -/

@[simp] theorem Core_commitCsr_id (c : Core) : c.commitCsr.id = c.id := by
  unfold Core.commitCsr; split <;> rfl
@[simp] theorem Core_commitCsr_pc (c : Core) : c.commitCsr.pc = c.pc := by
  unfold Core.commitCsr; split <;> rfl
@[simp] theorem Core_commitCsr_regs (c : Core) : c.commitCsr.regs = c.regs := by
  unfold Core.commitCsr; split <;> rfl
@[simp] theorem Core_commitCsr_stage (c : Core) : c.commitCsr.stage = c.stage := by
  unfold Core.commitCsr; split <;> rfl
@[simp] theorem Core_commitCsr_trapState (c : Core) : c.commitCsr.trapState = c.trapState := by
  unfold Core.commitCsr; split <;> rfl
@[simp] theorem Core_commitCsr_prefetch (c : Core) : c.commitCsr.prefetch = c.prefetch := by
  unfold Core.commitCsr; split <;> rfl
@[simp] theorem Core_commitCsr_d (c : Core) : c.commitCsr.d = c.d := by
  unfold Core.commitCsr; split <;> rfl
@[simp] theorem Core_commitCsr_cycle (c : Core) : c.commitCsr.cycle = c.cycle := by
  unfold Core.commitCsr; split <;> rfl
@[simp] theorem Core_commitCsr_halted (c : Core) : c.commitCsr.halted = c.halted := by
  unfold Core.commitCsr; split <;> rfl
@[simp] theorem Core_commitCsr_trap (c : Core) : c.commitCsr.trap = c.trap := by
  unfold Core.commitCsr; split <;> rfl
@[simp] theorem Core_commitCsr_hostResults (c : Core) : c.commitCsr.hostResults = c.hostResults := by
  unfold Core.commitCsr; split <;> rfl
@[simp] theorem Core_commitRd_id (c : Core) : c.commitRd.id = c.id := by
  unfold Core.commitRd; split <;> simp
@[simp] theorem Core_commitRd_pc (c : Core) : c.commitRd.pc = c.pc := by
  unfold Core.commitRd; split <;> simp
@[simp] theorem Core_commitRd_stage (c : Core) : c.commitRd.stage = c.stage := by
  unfold Core.commitRd; split <;> simp
@[simp] theorem Core_commitRd_trapState (c : Core) : c.commitRd.trapState = c.trapState := by
  unfold Core.commitRd; split <;> simp
@[simp] theorem Core_commitRd_prefetch (c : Core) : c.commitRd.prefetch = c.prefetch := by
  unfold Core.commitRd; split <;> simp
@[simp] theorem Core_commitRd_d (c : Core) : c.commitRd.d = c.d := by
  unfold Core.commitRd; split <;> simp
@[simp] theorem Core_commitRd_cycle (c : Core) : c.commitRd.cycle = c.cycle := by
  unfold Core.commitRd; split <;> simp
@[simp] theorem Core_commitRd_halted (c : Core) : c.commitRd.halted = c.halted := by
  unfold Core.commitRd; split <;> simp
@[simp] theorem Core_commitRd_trap (c : Core) : c.commitRd.trap = c.trap := by
  unfold Core.commitRd; split <;> simp
@[simp] theorem Core_commitRd_csr (c : Core) : c.commitRd.csr = c.csr := by
  unfold Core.commitRd; split <;> simp
@[simp] theorem Core_commitRd_hostResults (c : Core) : c.commitRd.hostResults = c.hostResults := by
  unfold Core.commitRd; split <;> simp
@[simp] theorem Core_commitPc_id (c : Core) : c.commitPc.id = c.id := by
  unfold Core.commitPc; split <;> rfl
@[simp] theorem Core_commitPc_regs (c : Core) : c.commitPc.regs = c.regs := by
  unfold Core.commitPc; split <;> rfl
@[simp] theorem Core_commitPc_stage (c : Core) : c.commitPc.stage = c.stage := by
  unfold Core.commitPc; split <;> rfl
@[simp] theorem Core_commitPc_trapState (c : Core) : c.commitPc.trapState = c.trapState := by
  unfold Core.commitPc; split <;> rfl
@[simp] theorem Core_commitPc_d (c : Core) : c.commitPc.d = c.d := by
  unfold Core.commitPc; split <;> rfl
@[simp] theorem Core_commitPc_cycle (c : Core) : c.commitPc.cycle = c.cycle := by
  unfold Core.commitPc; split <;> rfl
@[simp] theorem Core_commitPc_halted (c : Core) : c.commitPc.halted = c.halted := by
  unfold Core.commitPc; split <;> rfl
@[simp] theorem Core_commitPc_trap (c : Core) : c.commitPc.trap = c.trap := by
  unfold Core.commitPc; split <;> rfl
@[simp] theorem Core_commitPc_csr (c : Core) : c.commitPc.csr = c.csr := by
  unfold Core.commitPc; split <;> rfl
@[simp] theorem Core_commitPc_hostResults (c : Core) : c.commitPc.hostResults = c.hostResults := by
  unfold Core.commitPc; split <;> rfl

/-! ### The machine -/

@[simp] theorem State_advance_cfg (s : State) (c : Core) (n : Stage) : (s.advance c n).cfg = s.cfg := rfl
@[simp] theorem State_advance_lower (s : State) (c : Core) (n : Stage) : (s.advance c n).lower = s.lower := rfl
@[simp] theorem State_advance_core (s : State) (c : Core) (n : Stage) :
    (s.advance c n).core = { c.tick s.cfg with stage := n } := rfl
@[simp] theorem State_advance_upper (s : State) (c : Core) (n : Stage) : (s.advance c n).upper = s.upper := rfl
@[simp] theorem State_advance_mu (s : State) (c : Core) (n : Stage) : (s.advance c n).mu = s.mu := rfl
@[simp] theorem State_advance_handler (s : State) (c : Core) (n : Stage) : (s.advance c n).handler = s.handler := rfl
@[simp] theorem State_advance_schedule (s : State) (c : Core) (n : Stage) : (s.advance c n).schedule = s.schedule := rfl

@[simp] theorem State_raise_cfg (s : State) (e : Cause) : (s.raise e).cfg = s.cfg := rfl
@[simp] theorem State_raise_lower (s : State) (e : Cause) : (s.raise e).lower = s.lower := rfl
@[simp] theorem State_raise_core (s : State) (e : Cause) :
    (s.raise e).core = (s.core.raise e).tick s.cfg := rfl
@[simp] theorem State_raise_upper (s : State) (e : Cause) : (s.raise e).upper = s.upper := rfl
@[simp] theorem State_raise_mu (s : State) (e : Cause) : (s.raise e).mu = s.mu := rfl
@[simp] theorem State_raise_handler (s : State) (e : Cause) : (s.raise e).handler = s.handler := rfl
@[simp] theorem State_raise_schedule (s : State) (e : Cause) : (s.raise e).schedule = s.schedule := rfl

@[simp] theorem State_enterTrap_cfg (s : State) : (s.enterTrap).cfg = s.cfg := rfl
@[simp] theorem State_enterTrap_lower (s : State) : (s.enterTrap).lower = s.lower := rfl
@[simp] theorem State_enterTrap_core (s : State) :
    (s.enterTrap).core = s.core.enterTrap s.cfg := rfl
@[simp] theorem State_enterTrap_upper (s : State) : (s.enterTrap).upper = s.upper := rfl
@[simp] theorem State_enterTrap_mu (s : State) : (s.enterTrap).mu = s.mu := rfl
@[simp] theorem State_enterTrap_handler (s : State) : (s.enterTrap).handler = s.handler := rfl
@[simp] theorem State_enterTrap_schedule (s : State) : (s.enterTrap).schedule = s.schedule := rfl

@[simp] theorem State_exitTrap_cfg (s : State) : (s.exitTrap).cfg = s.cfg := rfl
@[simp] theorem State_exitTrap_lower (s : State) : (s.exitTrap).lower = s.lower := rfl
@[simp] theorem State_exitTrap_core (s : State) :
    (s.exitTrap).core = s.core.exitTrap s.cfg := rfl
@[simp] theorem State_exitTrap_upper (s : State) : (s.exitTrap).upper = s.upper := rfl
@[simp] theorem State_exitTrap_mu (s : State) : (s.exitTrap).mu = s.mu := rfl
@[simp] theorem State_exitTrap_handler (s : State) : (s.exitTrap).handler = s.handler := rfl
@[simp] theorem State_exitTrap_schedule (s : State) : (s.exitTrap).schedule = s.schedule := rfl

@[simp] theorem State_writebackStage_cfg (s : State) : (s.writebackStage).cfg = s.cfg := rfl
@[simp] theorem State_writebackStage_lower (s : State) : (s.writebackStage).lower = s.lower := rfl
@[simp] theorem State_writebackStage_core (s : State) :
    (s.writebackStage).core = { s.core.commitCsr.commitRd.commitPc.tick s.cfg with stage := .fetch } := rfl
@[simp] theorem State_writebackStage_upper (s : State) : (s.writebackStage).upper = s.upper := rfl
@[simp] theorem State_writebackStage_mu (s : State) : (s.writebackStage).mu = s.mu := rfl
@[simp] theorem State_writebackStage_handler (s : State) : (s.writebackStage).handler = s.handler := rfl
@[simp] theorem State_writebackStage_schedule (s : State) : (s.writebackStage).schedule = s.schedule := rfl

/-! ### The decoded record -/

@[simp] theorem Decoded_fill_ir (d : Decoded) (x : RegIdx → Word) : (d.fill x).ir = d.ir := rfl
@[simp] theorem Decoded_fill_opcode (d : Decoded) (x : RegIdx → Word) :
    (d.fill x).opcode = opcodeOf d.ir := rfl
@[simp] theorem Decoded_fill_opType (d : Decoded) (x : RegIdx → Word) :
    (d.fill x).opType = typeTable (opcodeOf d.ir) := rfl
@[simp] theorem Decoded_fill_rd (d : Decoded) (x : RegIdx → Word) :
    (d.fill x).rd = rdOf d.ir := rfl
@[simp] theorem Decoded_fill_rs1 (d : Decoded) (x : RegIdx → Word) :
    (d.fill x).rs1 = rs1Of d.ir := rfl
@[simp] theorem Decoded_fill_rs2 (d : Decoded) (x : RegIdx → Word) :
    (d.fill x).rs2 = rs2Of d.ir := rfl
@[simp] theorem Decoded_fill_rs1v (d : Decoded) (x : RegIdx → Word) :
    (d.fill x).rs1v = x (rs1Of d.ir) := rfl
@[simp] theorem Decoded_fill_rs2v (d : Decoded) (x : RegIdx → Word) :
    (d.fill x).rs2v = x (rs2Of d.ir) := rfl
@[simp] theorem Decoded_fill_funct3 (d : Decoded) (x : RegIdx → Word) :
    (d.fill x).funct3 = funct3Of d.ir := rfl
@[simp] theorem Decoded_fill_funct7 (d : Decoded) (x : RegIdx → Word) :
    (d.fill x).funct7 = funct7Of d.ir := rfl
@[simp] theorem Decoded_fill_immI (d : Decoded) (x : RegIdx → Word) :
    (d.fill x).immI = imm12 (immIOf d.ir) := rfl
@[simp] theorem Decoded_fill_immS (d : Decoded) (x : RegIdx → Word) :
    (d.fill x).immS = imm12 (immSOf d.ir) := rfl
@[simp] theorem Decoded_fill_immB (d : Decoded) (x : RegIdx → Word) :
    (d.fill x).immB = immBranch (immBOf d.ir) := rfl
@[simp] theorem Decoded_fill_immU (d : Decoded) (x : RegIdx → Word) :
    (d.fill x).immU = (immUOf d.ir).setWidth 32 := rfl
@[simp] theorem Decoded_fill_immJ (d : Decoded) (x : RegIdx → Word) :
    (d.fill x).immJ = immJump (immJOf d.ir) := rfl
@[simp] theorem Decoded_fill_csr (d : Decoded) (x : RegIdx → Word) :
    (d.fill x).csr = csrOf d.ir := rfl
@[simp] theorem Decoded_fill_shamt (d : Decoded) (x : RegIdx → Word) :
    (d.fill x).shamt = rs2Of d.ir := rfl
@[simp] theorem Decoded_fill_aluOut (d : Decoded) (x : RegIdx → Word) : (d.fill x).aluOut = d.aluOut := rfl
@[simp] theorem Decoded_fill_memOffset (d : Decoded) (x : RegIdx → Word) : (d.fill x).memOffset = d.memOffset := rfl
@[simp] theorem Decoded_fill_memWidth (d : Decoded) (x : RegIdx → Word) : (d.fill x).memWidth = d.memWidth := rfl
@[simp] theorem Decoded_fill_memSigned (d : Decoded) (x : RegIdx → Word) : (d.fill x).memSigned = d.memSigned := rfl
@[simp] theorem Decoded_fill_jumpTarget (d : Decoded) (x : RegIdx → Word) : (d.fill x).jumpTarget = d.jumpTarget := rfl
@[simp] theorem Decoded_fill_isJump (d : Decoded) (x : RegIdx → Word) : (d.fill x).isJump = d.isJump := rfl
@[simp] theorem Decoded_fill_writeRd (d : Decoded) (x : RegIdx → Word) : (d.fill x).writeRd = d.writeRd := rfl
@[simp] theorem Decoded_fill_readMem (d : Decoded) (x : RegIdx → Word) : (d.fill x).readMem = d.readMem := rfl
@[simp] theorem Decoded_fill_writeMem (d : Decoded) (x : RegIdx → Word) : (d.fill x).writeMem = d.writeMem := rfl
@[simp] theorem Decoded_fill_csrWrite (d : Decoded) (x : RegIdx → Word) : (d.fill x).csrWrite = d.csrWrite := rfl
@[simp] theorem Decoded_fill_csrNew (d : Decoded) (x : RegIdx → Word) : (d.fill x).csrNew = d.csrNew := rfl

@[simp] theorem Decoded_cleared_ir (d : Decoded) : (d.cleared).ir = d.ir := rfl
@[simp] theorem Decoded_cleared_opcode (d : Decoded) : (d.cleared).opcode = d.opcode := rfl
@[simp] theorem Decoded_cleared_opType (d : Decoded) : (d.cleared).opType = d.opType := rfl
@[simp] theorem Decoded_cleared_rd (d : Decoded) : (d.cleared).rd = d.rd := rfl
@[simp] theorem Decoded_cleared_rs1 (d : Decoded) : (d.cleared).rs1 = d.rs1 := rfl
@[simp] theorem Decoded_cleared_rs2 (d : Decoded) : (d.cleared).rs2 = d.rs2 := rfl
@[simp] theorem Decoded_cleared_rs1v (d : Decoded) : (d.cleared).rs1v = d.rs1v := rfl
@[simp] theorem Decoded_cleared_rs2v (d : Decoded) : (d.cleared).rs2v = d.rs2v := rfl
@[simp] theorem Decoded_cleared_funct3 (d : Decoded) : (d.cleared).funct3 = d.funct3 := rfl
@[simp] theorem Decoded_cleared_funct7 (d : Decoded) : (d.cleared).funct7 = d.funct7 := rfl
@[simp] theorem Decoded_cleared_immI (d : Decoded) : (d.cleared).immI = d.immI := rfl
@[simp] theorem Decoded_cleared_immS (d : Decoded) : (d.cleared).immS = d.immS := rfl
@[simp] theorem Decoded_cleared_immB (d : Decoded) : (d.cleared).immB = d.immB := rfl
@[simp] theorem Decoded_cleared_immU (d : Decoded) : (d.cleared).immU = d.immU := rfl
@[simp] theorem Decoded_cleared_immJ (d : Decoded) : (d.cleared).immJ = d.immJ := rfl
@[simp] theorem Decoded_cleared_csr (d : Decoded) : (d.cleared).csr = d.csr := rfl
@[simp] theorem Decoded_cleared_shamt (d : Decoded) : (d.cleared).shamt = d.shamt := rfl
@[simp] theorem Decoded_cleared_aluOut (d : Decoded) :
    (d.cleared).aluOut = 0 := rfl
@[simp] theorem Decoded_cleared_memOffset (d : Decoded) :
    (d.cleared).memOffset = 0 := rfl
@[simp] theorem Decoded_cleared_memWidth (d : Decoded) : (d.cleared).memWidth = d.memWidth := rfl
@[simp] theorem Decoded_cleared_memSigned (d : Decoded) : (d.cleared).memSigned = d.memSigned := rfl
@[simp] theorem Decoded_cleared_jumpTarget (d : Decoded) :
    (d.cleared).jumpTarget = 0 := rfl
@[simp] theorem Decoded_cleared_isJump (d : Decoded) :
    (d.cleared).isJump = false := rfl
@[simp] theorem Decoded_cleared_writeRd (d : Decoded) :
    (d.cleared).writeRd = false := rfl
@[simp] theorem Decoded_cleared_readMem (d : Decoded) :
    (d.cleared).readMem = false := rfl
@[simp] theorem Decoded_cleared_writeMem (d : Decoded) :
    (d.cleared).writeMem = false := rfl
@[simp] theorem Decoded_cleared_csrWrite (d : Decoded) :
    (d.cleared).csrWrite = false := rfl
@[simp] theorem Decoded_cleared_csrNew (d : Decoded) : (d.cleared).csrNew = d.csrNew := rfl

end Sys2Proof.Machine
end

