-- ==== Sys2Proof/Laws/Ops.lean ====
section
/-! SUPPORT. What each shared operation of Machine/Ops.lean does, said once: the CSR file, the sequence
of stages, DECODE of an encoded instruction, the whole instruction by the answer of its EXECUTE
block, WRITEBACK, and entering a trap. -/

namespace Sys2Proof.Machine

/-! ### CSRs (10_state.md R40) -/

/-- A CSR is plain storage: a read gives the last value written at its address. -/
theorem CsrFile.read_write {f : CsrFile} (hf : Cells.wf 0 f.extra) (a b : CsrAddr) (v : Word) :
    (f.write a v).read b = if b = a then v else f.read b := by
  unfold CsrFile.write
  by_cases hba : b = a
  · subst b
    rw [if_pos rfl]
    repeat' split
    all_goals simp only [CsrFile.read, *, if_true, if_false]
    all_goals first
      | exact Cells.get_set_eq 0 a.toNat v f.extra hf
      | rfl
  · have hn : b.toNat ≠ a.toNat := fun h => hba (BitVec.eq_of_toNat_eq h)
    rw [if_neg hba]
    repeat' split
    all_goals first
      | (subst a; simp only [CsrFile.read, hba, if_false])
      | simp only [CsrFile.read, Cells.get_set_ne 0 a.toNat b.toNat v f.extra hn]

/-- The write of one of the two trap CSRs needs no premise: neither is in `extra`. -/
theorem CsrFile.read_write_trap (f : CsrFile) (pc code : Word) (a : CsrAddr) :
    ((f.write 0x341 pc).write 0x342 code).read a =
      if a = 0x341 then pc else if a = 0x342 then code else f.read a := by
  unfold CsrFile.write CsrFile.read
  simp only [BitVec.reduceEq, if_false, if_true]
  repeat' split
  all_goals simp_all

theorem CsrFile.extra_write_trap (f : CsrFile) (pc code : Word) :
    ((f.write 0x341 pc).write 0x342 code).extra = f.extra := by
  simp [CsrFile.write]

/-! ### The sequence of stages (40_pipeline_stages.md R172, R173) -/

theorem andThen_raised {s : State} (h : s.core.stage = .trap) (k : State → Result) :
    andThen (.next s) k = .next s.enterTrap := by
  simp [andThen, h]

theorem andThen_next {s : State} (h : s.core.stage ≠ .trap) (k : State → Result) :
    andThen (.next s) k = k s := by
  simp [andThen, h]

/-- A sequence that answers a next state: its first part did, and either raised or went on. -/
theorem andThen_eq_next {r : Result} {k : State → Result} {t : State} (h : andThen r k = .next t) :
    ∃ s, r = .next s ∧
      ((s.core.stage = .trap ∧ t = s.enterTrap) ∨ (s.core.stage ≠ .trap ∧ k s = .next t)) := by
  cases r with
  | next s =>
    by_cases hs : s.core.stage = .trap
    · rw [andThen_raised hs] at h; cases h; exact ⟨s, rfl, .inl ⟨hs, rfl⟩⟩
    · rw [andThen_next hs] at h; exact ⟨s, rfl, .inr ⟨hs, h⟩⟩
  | fault f => cases h
  | refused x => cases h

/-! ### DECODE of an encoded instruction -/

/-- No instruction has an opcode of type Unknown (30_encoding.md R123). -/
theorem typeTable_encode (i : Instr) : typeTable (opcodeOf (encode i)) ≠ .Unknown := by
  cases i <;> simp [encode] <;> decide

/-- The state after DECODE of `i`, where FETCH had left its word. -/
def State.decoded (s : State) (i : Instr) : State :=
  { s with core := { s.core with
      d := Decoded.fill { s.core.d with ir := encode i } s.core.x
      cycle := (s.core.cycle + 1) % 2 ^ s.cfg.cycleWidth
      stage := .execute } }

/-- An instruction is DECODE, EXECUTE by its block, and what follows. -/
theorem runInstr_eq (i : Instr) (block : Config → Core → Executed) (s : State) :
    runInstr i block s =
      match block s.cfg (s.decoded i).core with
      | .done d => ((s.decoded i).executeStage (.done d)).afterExecute
      | .raised e => .next ((s.decoded i).executeStage (.raised e)).enterTrap := by
  have hd : State.decodeStage { s with core := { s.core with
      d := { s.core.d with ir := encode i } } } = s.decoded i := by
    simp only [State.decodeStage, typeTable_encode, if_false]
    rfl
  have h0 : runInstr i block s = andThen (.next (s.decoded i)) fun s1 =>
      andThen (.next (s1.executeStage (block s1.cfg s1.core))) State.afterExecute :=
    congrArg (fun x => andThen (.next x) fun s1 =>
      andThen (.next (s1.executeStage (block s1.cfg s1.core))) State.afterExecute) hd
  rw [h0, andThen_next (by simp [State.decoded])]
  have hc : (s.decoded i).cfg = s.cfg := rfl
  rw [hc]
  cases block s.cfg (s.decoded i).core with
  | done d => rw [andThen_next (by simp [State.executeStage])]
  | raised e => rw [andThen_raised (by simp [State.executeStage])]

/-! ### Entering a trap (60_exceptions.md R310, R311) -/

theorem snapshot_set (regs : Vector Word 32) (r : RegIdx) :
    (regs.set 0 0)[r.toNat] = if r = 0 then 0 else regs[r.toNat] := by
  rw [Vector.getElem_set]
  by_cases h : r = 0
  · simp [h]
  · have : 0 ≠ r.toNat := fun e => h (BitVec.eq_of_toNat_eq (by simpa using e.symm))
    rw [if_neg this, if_neg h]

/-- ENTER, from any state: what it writes and what it keeps. -/
theorem trapEntered_enterTrap (s : State) : TrapEntered s s.enterTrap s.core.trap.cause 1 where
  others := ⟨rfl, rfl, rfl, rfl, rfl⟩
  mu := rfl
  regs _ := rfl
  pc := rfl
  prefetch := rfl
  stage := rfl
  trapState := rfl
  snapshot r := snapshot_set s.core.regs r
  savedPc := rfl
  cause := rfl
  csr a := CsrFile.read_write_trap s.core.csr s.core.pc s.core.trap.cause.code a
  cycle := rfl
  id := rfl
  halted := rfl
  hostResults := rfl

/-- A stage that raised, and then ENTER, `n` steps after `s`, where what lies between has kept all that
a trap keeps. -/
theorem trapEntered_of_raised {s u : State} {e : Cause} {n : Nat} (ho : OthersKept s u)
    (hmu : u.mu = s.mu) (hregs : u.core.regs = s.core.regs) (hpc : u.core.pc = s.core.pc)
    (hcsr : u.core.csr = s.core.csr) (hid : u.core.id = s.core.id)
    (hh : u.core.halted = s.core.halted)
    (hcy : u.core.cycle % 2 ^ s.cfg.cycleWidth = (s.core.cycle + n) % 2 ^ s.cfg.cycleWidth) :
    TrapEntered s (u.raise e).enterTrap e (n + 2) where
  others := ⟨ho.cfg, ho.lower, ho.upper, ho.handler, ho.schedule⟩
  mu := hmu
  regs r := Core.x_congr (by simp [hregs]) r
  pc := by simp [ho.cfg]
  prefetch := rfl
  stage := rfl
  trapState := rfl
  snapshot r := by
    have := snapshot_set u.core.regs r
    simp only [State_enterTrap_core, Core_enterTrap_trap, State_raise_core, Core_tick_regs,
      Core_raise_regs]
    rw [this, hregs]
    rfl
  savedPc := hpc
  cause := rfl
  csr a := by
    have h := CsrFile.read_write_trap u.core.csr u.core.pc e.code a
    rw [hpc, hcsr] at h
    rw [← h, ← hpc, ← hcsr]
    rfl
  cycle := by
    have h := Nat.ModEq.add_right 2 hcy
    simpa [ho.cfg, Nat.add_assoc, Nat.ModEq] using h
  id := hid
  halted := hh
  hostResults := rfl

/-! ### WRITEBACK (40_pipeline_stages.md R170) -/

theorem writeback_x (c : Core) (r : RegIdx) :
    c.commitCsr.commitRd.commitPc.x r =
      if c.d.writeRd = true ∧ r = c.d.rd ∧ r ≠ 0 then c.d.aluOut else c.x r := by
  rw [Core.x_congr (Core_commitPc_regs _)]
  have h1 : ∀ r, c.commitCsr.x r = c.x r := Core.x_congr (Core_commitCsr_regs c)
  unfold Core.commitRd
  rw [Core_commitCsr_d]
  split
  · next h => rw [Core.x_setX, h1]; simp [h]
  · next h => rw [h1]; simp [h]

theorem writeback_pc (c : Core) :
    c.commitCsr.commitRd.commitPc.pc = if c.d.isJump then c.d.jumpTarget else nextPc c.pc := by
  unfold Core.commitPc
  simp only [Core_commitRd_d, Core_commitCsr_d]
  split <;> simp

theorem writeback_prefetch (c : Core) :
    c.commitCsr.commitRd.commitPc.prefetch = if c.d.isJump then [] else c.prefetch := by
  unfold Core.commitPc
  simp only [Core_commitRd_d, Core_commitCsr_d]
  split <;> simp

theorem writeback_csr (c : Core) :
    c.commitCsr.commitRd.commitPc.csr =
      if c.d.csrWrite then c.csr.write c.d.csr c.d.csrNew else c.csr := by
  simp only [Core_commitPc_csr, Core_commitRd_csr]
  unfold Core.commitCsr
  split <;> rfl

/-- WRITEBACK after the four stages before it, all kept but the record. -/
theorem retired_writeback {s u : State} (ho : OthersKept s u) (hregs : u.core.regs = s.core.regs)
    (hpc : u.core.pc = s.core.pc) (hq : u.core.prefetch = s.core.prefetch)
    (hid : u.core.id = s.core.id) (hh : u.core.halted = s.core.halted)
    (ht : u.core.trap = s.core.trap) (hts : u.core.trapState = s.core.trapState)
    (hhr : u.core.hostResults = s.core.hostResults)
    (hcy : u.core.cycle = (s.core.cycle + 3) % 2 ^ s.cfg.cycleWidth) {rd : RegIdx} {v : Word}
    (hrd : ∀ r : RegIdx, (u.core.d.writeRd = true ∧ r = u.core.d.rd ∧ r ≠ 0) ↔ (r = rd ∧ r ≠ 0))
    (hv : ∀ r : RegIdx, r = rd ∧ r ≠ 0 → u.core.d.aluOut = v) :
    Retired s u.writebackStage rd v
      (if u.core.d.isJump then u.core.d.jumpTarget else s.core.pc + 4)
      (if u.core.d.isJump then [] else s.core.prefetch) where
  others := ⟨ho.cfg, ho.lower, ho.upper, ho.handler, ho.schedule⟩
  regs r := by
    have h := writeback_x u.core r
    rw [show u.writebackStage.core.x r = u.core.commitCsr.commitRd.commitPc.x r from rfl, h]
    by_cases hr : r = rd ∧ r ≠ 0
    · rw [if_pos ((hrd r).mpr hr), if_pos hr, hv r hr]
    · rw [if_neg (fun h' => hr ((hrd r).mp h')), if_neg hr, Core.x_congr hregs]
  pc := by
    rw [show u.writebackStage.core.pc = u.core.commitCsr.commitRd.commitPc.pc from rfl,
      writeback_pc, hpc, nextPc]
  prefetch := by
    rw [show u.writebackStage.core.prefetch = u.core.commitCsr.commitRd.commitPc.prefetch from rfl,
      writeback_prefetch, hq]
  stage := rfl
  cycle := by simp [hcy, ho.cfg, Nat.add_assoc]
  id := by simp [hid]
  halted := by simp [hh]
  trap := by simp [ht]
  trapState := by simp [hts]
  hostResults := by simp [hhr]

/-! ### Whole instructions, by the answer of EXECUTE -/

/-- An instruction whose EXECUTE block raises takes that trap: three steps after FETCH. -/
theorem runInstr_raised {i : Instr} {block : Config → Core → Executed} {s : State} {e : Cause}
    (h : block s.cfg (s.decoded i).core = .raised e) :
    ∃ t, runInstr i block s = .next t ∧ TrapEntered s t e 3 := by
  refine ⟨_, by rw [runInstr_eq, h], ?_⟩
  exact trapEntered_of_raised
    (u := { s.decoded i with core := { (s.decoded i).core with d := (s.decoded i).core.d.cleared } })
    (n := 1) ⟨rfl, rfl, rfl, rfl, rfl⟩ rfl rfl rfl rfl rfl rfl (Nat.mod_mod _ _)

/-- An instruction whose EXECUTE block asks for no memory access completes. -/
theorem runInstr_done {i : Instr} {block : Config → Core → Executed} {s : State} {d : Decoded}
    (h : block s.cfg (s.decoded i).core = .done d) (hr : d.readMem = false)
    (hw : d.writeMem = false) {rd : RegIdx} {v : Word}
    (hrd : ∀ r : RegIdx, (d.writeRd = true ∧ r = d.rd ∧ r ≠ 0) ↔ (r = rd ∧ r ≠ 0))
    (hv : ∀ r : RegIdx, r = rd ∧ r ≠ 0 → d.aluOut = v) :
    ∃ t, runInstr i block s = .next t ∧
      Retired s t rd v (if d.isJump then d.jumpTarget else s.core.pc + 4)
        (if d.isJump then [] else s.core.prefetch) ∧
      t.core.csr = (if d.csrWrite then s.core.csr.write d.csr d.csrNew else s.core.csr) ∧
      t.mu = s.mu := by
  have he : State.afterExecute ((s.decoded i).executeStage (.done d)) =
      .next (State.writebackStage
        (((s.decoded i).executeStage (.done d)).advance
          ((s.decoded i).executeStage (.done d)).core .writeback)) := by
    unfold State.afterExecute State.memoryStage
    have hd : ((s.decoded i).executeStage (.done d)).core.d = d := rfl
    simp only [hd, hr, hw, Bool.false_eq_true, if_false]
    rw [andThen_next (by simp)]
  have hrun := runInstr_eq i block s
  rw [h] at hrun
  refine ⟨_, hrun.trans he, ?_, ?_, rfl⟩
  · refine retired_writeback (s := s)
      (u := ((s.decoded i).executeStage (.done d)).advance
        ((s.decoded i).executeStage (.done d)).core .writeback)
      ⟨rfl, rfl, rfl, rfl, rfl⟩ rfl rfl rfl rfl rfl rfl rfl rfl ?_ hrd hv
    simp [State.executeStage, State.decoded, Nat.add_assoc]
  · exact writeback_csr _

/-- An instruction whose EXECUTE block asks for a load, by the answer of the bus. -/
theorem runInstr_load {i : Instr} {block : Config → Core → Executed} {s : State} {d : Decoded}
    (h : block s.cfg (s.decoded i).core = .done d) (hr : d.readMem = true)
    (hj : d.isJump = false) (hc : d.csrWrite = false) {rd : RegIdx}
    (hrd : ∀ r : RegIdx, (d.writeRd = true ∧ r = d.rd ∧ r ≠ 0) ↔ (r = rd ∧ r ≠ 0)) :
    (∀ v, memRead s.cfg s.mu d.memOffset d.memWidth = .ok v →
      ∃ t, runInstr i block s = .next t ∧
        Retired s t rd (extendLoaded d.memSigned d.memWidth v) (s.core.pc + 4) s.core.prefetch ∧
        t.core.csr = s.core.csr ∧ t.mu = s.mu) ∧
    (∀ st, memRead s.cfg s.mu d.memOffset d.memWidth = .fail st →
      ∃ t, runInstr i block s = .next t ∧ TrapEntered s t (loadCause st) 4) ∧
    (∀ k, memRead s.cfg s.mu d.memOffset d.memWidth = .noRule k →
      runInstr i block s = .refused (.deviceWithoutRule k)) := by
  have hrun := runInstr_eq i block s
  rw [h] at hrun
  refine ⟨fun v hv => ?_, fun st hv => ?_, fun k hv => ?_⟩ <;>
    have he := hrun <;>
    simp only [State.afterExecute, State.memoryStage] at he <;>
    rw [show ((s.decoded i).executeStage (.done d)).core.d = d from rfl,
      show ((s.decoded i).executeStage (.done d)).cfg = s.cfg from rfl,
      show ((s.decoded i).executeStage (.done d)).mu = s.mu from rfl, if_pos hr, hv] at he
  · rw [andThen_next (by simp)] at he
    refine ⟨_, he, ?_, ?_, rfl⟩
    · have hret := retired_writeback (s := s)
        (u := ((s.decoded i).executeStage (.done d)).advance
          { ((s.decoded i).executeStage (.done d)).core with
            d := { d with aluOut := extendLoaded d.memSigned d.memWidth v } } .writeback)
        (v := extendLoaded d.memSigned d.memWidth v)
        ⟨rfl, rfl, rfl, rfl, rfl⟩ rfl rfl rfl rfl rfl rfl rfl rfl
        (by simp [State.executeStage, State.decoded, Nat.add_assoc]) hrd (fun _ _ => rfl)
      have hj' : (((s.decoded i).executeStage (.done d)).advance
          { ((s.decoded i).executeStage (.done d)).core with
            d := { d with aluOut := extendLoaded d.memSigned d.memWidth v } } .writeback).core.d.isJump
          = false := hj
      rw [hj'] at hret
      exact hret
    · refine (writeback_csr _).trans ?_
      exact if_neg (by simp [hc])
  · rw [andThen_raised (by simp)] at he
    exact ⟨_, he, trapEntered_of_raised (u := (s.decoded i).executeStage (.done d)) (n := 2)
      ⟨rfl, rfl, rfl, rfl, rfl⟩ rfl rfl rfl rfl rfl rfl
      (by simp [State.executeStage, State.decoded, Nat.add_assoc])⟩
  · exact he

/-- An instruction whose EXECUTE block asks for a store, by the answer of the bus. -/
theorem runInstr_store {i : Instr} {block : Config → Core → Executed} {s : State} {d : Decoded}
    (h : block s.cfg (s.decoded i).core = .done d) (hr : d.readMem = false)
    (hw : d.writeMem = true) (hj : d.isJump = false) (hc : d.csrWrite = false)
    (hd : d.writeRd = false) :
    (∀ mu, memWrite s.cfg s.mu d.memOffset d.memWidth d.aluOut = .ok mu →
      ∃ t, runInstr i block s = .next t ∧
        Retired s t 0 0 (s.core.pc + 4) s.core.prefetch ∧
        t.core.csr = s.core.csr ∧ t.mu = mu) ∧
    (∀ st, memWrite s.cfg s.mu d.memOffset d.memWidth d.aluOut = .fail st →
      ∃ t, runInstr i block s = .next t ∧ TrapEntered s t (storeCause st) 4) ∧
    (∀ k, memWrite s.cfg s.mu d.memOffset d.memWidth d.aluOut = .noRule k →
      runInstr i block s = .refused (.deviceWithoutRule k)) := by
  have hrun := runInstr_eq i block s
  rw [h] at hrun
  refine ⟨fun mu hv => ?_, fun st hv => ?_, fun k hv => ?_⟩ <;>
    have he := hrun <;>
    simp only [State.afterExecute, State.memoryStage] at he <;>
    rw [show ((s.decoded i).executeStage (.done d)).core.d = d from rfl,
      show ((s.decoded i).executeStage (.done d)).cfg = s.cfg from rfl,
      show ((s.decoded i).executeStage (.done d)).mu = s.mu from rfl,
      if_neg (by simp [hr]), if_pos hw, hv] at he
  · rw [andThen_next (by simp)] at he
    refine ⟨_, he, ?_, ?_, rfl⟩
    · have hret := retired_writeback (s := s)
        (u := State.advance { (s.decoded i).executeStage (.done d) with mu := mu }
          ((s.decoded i).executeStage (.done d)).core .writeback) (rd := 0) (v := 0)
        ⟨rfl, rfl, rfl, rfl, rfl⟩ rfl rfl rfl rfl rfl rfl rfl rfl
        (by simp [State.executeStage, State.decoded, Nat.add_assoc])
        (fun r => ⟨fun h' => absurd (hd.symm.trans h'.1) (by simp), fun h' => absurd h'.1 h'.2⟩)
        (fun r hr0 => absurd hr0.1 hr0.2)
      have hj' : (State.advance { (s.decoded i).executeStage (.done d) with mu := mu }
          ((s.decoded i).executeStage (.done d)).core .writeback).core.d.isJump = false := hj
      rw [hj'] at hret
      exact hret
    · refine (writeback_csr _).trans ?_
      exact if_neg (fun h' => absurd (hc.symm.trans h') (by simp))
  · rw [andThen_raised (by simp)] at he
    exact ⟨_, he, trapEntered_of_raised (u := (s.decoded i).executeStage (.done d)) (n := 2)
      ⟨rfl, rfl, rfl, rfl, rfl⟩ rfl rfl rfl rfl rfl rfl
      (by simp [State.executeStage, State.decoded, Nat.add_assoc])⟩
  · exact he

end Sys2Proof.Machine
end

