-- ==== Sys2Proof/Laws/Access.lean ====
section
/-! SUPPORT. What the memory operations do, in the terms of Safety.lean: the permission check of a range,
a store, an access that reaches its bytes, the refill of the prefetch queue, the growth of the arena,
and the host's operations, which keep the canonical form. -/

namespace Sys2Proof.Machine

/-! ### Permissions of a range -/

theorem allow_iff_permitted (mu : MemoryUnit) (acc : Access) (a n : Nat) :
    mu.allow [acc] a n = true ↔ Permitted mu acc a n := by
  rw [allow_iff]; simp [Permitted]

/-- What a fetch asks of every byte (20_memory.md R94). -/
theorem allow_fetchNeeds (cfg : Config) (mu : MemoryUnit) (a n : Nat) :
    mu.allow (fetchNeeds cfg) a n = true ↔
      Permitted mu .read a n ∧ (cfg.fetchRequiresExec = true → Permitted mu .exec a n) := by
  rw [allow_iff]
  unfold fetchNeeds Permitted
  cases cfg.fetchRequiresExec
  · simp
  · simp only [if_true, List.mem_cons, List.not_mem_nil, or_false, forall_eq_or_imp, forall_eq,
      forall_const]
    exact ⟨fun h => ⟨fun k hk => (h k hk).1, fun k hk => (h k hk).2⟩,
      fun h k hk => ⟨h.1 k hk, h.2 k hk⟩⟩

/-! ### A store (20_memory.md R66) -/

/-- The bytes, the permissions and the dirty pages after a store of any bytes. -/
theorem storeBytes_spec (cfg : Config) {mu : MemoryUnit} (hm : Memory.wf mu) (a : Nat)
    (bs : List Byte) :
    (∀ k, k < bs.length → (mu.storeBytes cfg a bs).byteAt (a + k) = bs.getD k 0) ∧
    (∀ k, k < bs.length → (mu.storeBytes cfg a bs).permAt (a + k) =
      if (mu.permAt (a + k)).raw then ⟨true, true, (mu.permAt (a + k)).exec, false⟩
      else mu.permAt (a + k)) ∧
    (∀ b, b < a ∨ a + bs.length ≤ b → (mu.storeBytes cfg a bs).byteAt b = mu.byteAt b) ∧
    (∀ b, b < a ∨ a + bs.length ≤ b → (mu.storeBytes cfg a bs).permAt b = mu.permAt b) ∧
    (∀ p, (mu.storeBytes cfg a bs).isDirty p = true ↔
      mu.isDirty p = true ∨ ∃ k, k < bs.length ∧ p = (a + k - mu.base) / cfg.pageSize) := by
  refine ⟨fun k hk => ?_, fun k hk => ?_, fun b hb => ?_, fun b hb => ?_, fun p => ?_⟩
  · rw [storeBytes_byteAt hm, if_pos (by omega)]; congr 1; omega
  · rw [storeBytes_permAt hm, if_pos (by omega)]; rfl
  · rw [storeBytes_byteAt hm, if_neg (by omega)]
  · rw [storeBytes_permAt hm, if_neg (by omega)]
  · simp only [MemoryUnit.isDirty, List.contains_iff_mem]
    exact storeBytes_dirty cfg mu a bs p

/-- A store of the low bytes of a word is what `Stored` says. -/
theorem stored_storeBytes (cfg : Config) {mu : MemoryUnit} (hm : Memory.wf mu) (a n : Nat)
    (v : Word) : Stored cfg mu (mu.storeBytes cfg a (bytesOfWord n v)) a n v := by
  obtain ⟨h1, h2, h3, h4, h5⟩ := storeBytes_spec cfg hm a (bytesOfWord n v)
  obtain ⟨h6, h7, h8, h9⟩ := storeBytes_bounds cfg mu a (bytesOfWord n v)
  rw [length_bytesOfWord] at h1 h2 h3 h4 h5
  exact ⟨fun k hk => by rw [h1 k hk, getD_bytesOfWord _ _ _ hk], h2, h3, h4, h5, h6, h7, h8, h9⟩

/-- Masking a value to its width changes none of the bytes stored (43_load_store.md R257). -/
theorem bytesOfWord_mask (w : Width) (v : Word) :
    bytesOfWord w.bytes (maskToWidth w v) = bytesOfWord w.bytes v := by
  cases w <;> simp only [Width.bytes, bytesOfWord, maskToWidth, List.cons.injEq, and_true]
  · grind
  · refine ⟨by grind, ?_⟩
    ext i hi
    simp only [BitVec.getElem_setWidth, BitVec.getLsbD_ushiftRight, BitVec.getLsbD_setWidth]
    simp [show 8 + i < 16 by omega, show 8 + i < 32 by omega]

/-! ### Accesses that reach their bytes -/

theorem memRead_reaches {s : State} {ea : Word} {w : Width} {dev : Device} (h : Reaches s ea w dev)
    (hp : Permitted s.mu .read (deviceAddr s.mu dev ea) w.bytes) :
    memRead s.cfg s.mu ea w =
      .ok (wordOfBytes (s.mu.bytesAt (deviceAddr s.mu dev ea) w.bytes)) := by
  rw [memRead, busRead_device h.aligned h.routed h.backed rfl, MemoryUnit.read,
    (inBounds_iff ..).2 h.inBounds, (allow_iff_permitted ..).2 hp]
  rfl

theorem memWrite_reaches {s : State} {ea : Word} {w : Width} {dev : Device} {v : Word}
    (h : Reaches s ea w dev) (hf : dev.writeFlag = true)
    (hp : Permitted s.mu .write (deviceAddr s.mu dev ea) w.bytes) :
    memWrite s.cfg s.mu ea w v =
      .ok (s.mu.storeBytes s.cfg (deviceAddr s.mu dev ea) (bytesOfWord w.bytes v)) := by
  rw [memWrite, busWrite_device h.aligned h.routed hf h.backed rfl, MemoryUnit.write,
    length_bytesOfWord, (inBounds_iff ..).2 h.inBounds, (allow_iff_permitted ..).2 hp]
  rfl

/-- The refill of a queue whose whole window can be fetched (20_memory.md R92, R94). -/
theorem fetchRefill_reaches {s : State} {dev : Device} (h : Reaches s s.core.pc .word dev)
    (hw : FetchWindow s dev) :
    fetchRefill s.cfg s.mu s.core.pc =
      .ok ((List.range s.cfg.prefetchDepth).map fun k =>
        s.mu.wordAt (deviceAddr s.mu dev s.core.pc + 4 * k)) := by
  unfold fetchRefill readUnits
  have hn : s.cfg.prefetchDepth * Width.word.bytes = 4 * s.cfg.prefetchDepth := Nat.mul_comm _ _
  rw [hn, busRead_device h.aligned h.routed h.backed
      ((inDevice_fetch_iff ..).2 ⟨⟨hw.inDevice, hw.inSpace⟩, hw.base⟩), MemoryUnit.read,
    (inBounds_iff ..).2 ⟨h.inBounds.1, hw.inArena,
      by rw [deviceAddr_of_base h.routed hw.base]; exact hw.inSpace⟩,
    (allow_fetchNeeds ..).2 ⟨hw.readable, hw.executable⟩]
  simp only [Bool.not_true, Bool.false_eq_true, if_false, BusResult.ofMu, BusResult.map]
  rw [Nat.mul_comm 4, show Width.word.bytes = 4 from rfl, unitsOfBytes_bytesAt]
  congr 1
  refine List.map_congr_left fun k _ => ?_
  simp only [MemoryUnit.bytesAt, wordOfBytes_four, MemoryUnit.wordAt, Nat.mul_comm 4]

/-! ### The host's operations -/

/-- The arena after it has grown by `n` bytes (20_memory.md R63): what was there is kept, and a new byte
has the empty permission. -/
theorem grow_spec {mu : MemoryUnit} (hm : Memory.wf mu) (n : Nat) :
    (mu.grow n).base = mu.base ∧ (mu.grow n).size = mu.size + n ∧
    (mu.grow n).currVaddr = mu.currVaddr ∧ (mu.grow n).dirty = mu.dirty ∧
    (∀ a, a < mu.base + mu.size ∨ mu.base + mu.size + n ≤ a →
      (mu.grow n).byteAt a = mu.byteAt a) ∧
    (∀ a, (mu.grow n).permAt a =
      if mu.base + mu.size ≤ a ∧ a < mu.base + mu.size + n then Perm.none else mu.permAt a) := by
  induction n generalizing mu with
  | zero => exact ⟨rfl, rfl, rfl, rfl, fun _ _ => rfl, fun a => by rw [if_neg (by omega)]; rfl⟩
  | succ n ih =>
    have hl : mu.limit = mu.base + mu.size := rfl
    obtain ⟨h1, h2, h3, h4, h5, h6⟩ := ih
      (mu := { (mu.setByte mu.limit (Config.freeByte mu.fresh)).setPermAt mu.limit Perm.none with
        size := mu.size + 1, fresh := mu.fresh + 1 })
      (wf_setPermAt (wf_setByte hm _ _) _ _)
    refine ⟨h1, h2.trans (Nat.add_right_comm mu.size 1 n), h3, h4, fun a ha => ?_, fun a => ?_⟩
    · refine (h5 a (show a < mu.base + (mu.size + 1) ∨ mu.base + (mu.size + 1) + n ≤ a by
        omega)).trans ?_
      refine (setByte_byteAt hm mu.limit a _).trans ?_
      rw [if_neg (by omega)]
    · refine (h6 a).trans ?_
      have hb : MemoryUnit.permAt { (mu.setByte mu.limit (Config.freeByte mu.fresh)).setPermAt
          mu.limit Perm.none with size := mu.size + 1, fresh := mu.fresh + 1 } a =
          if a = mu.limit then Perm.none else mu.permAt a :=
        (setPermAt_permAt (wf_setByte hm _ _) mu.limit a Perm.none).trans (by simp)
      rw [hb, hl]
      show (if mu.base + (mu.size + 1) ≤ a ∧ a < mu.base + (mu.size + 1) + n then Perm.none else _)
        = _
      by_cases c1 : mu.base + (mu.size + 1) ≤ a ∧ a < mu.base + (mu.size + 1) + n
      · rw [if_pos c1, if_pos (by omega)]
      · by_cases c2 : a = mu.base + mu.size
        · rw [if_neg c1, if_pos c2, if_pos (by omega)]
        · rw [if_neg c1, if_neg c2, if_neg (by omega)]

/-- The MemoryUnit after a host read is the one before. -/
theorem readAnswer_mu {mu : MemoryUnit} {r : BusResult (List Word)} {x : MemoryUnit × HostResult}
    (h : readAnswer mu r = .ok x) : x.1 = mu := by
  cases r <;> simp only [readAnswer, Except.ok.injEq, reduceCtorEq] at h <;> subst h <;> rfl

/-- The MemoryUnit after a host write is the one before, or the one the bus answered. -/
theorem writeAnswer_mu {mu : MemoryUnit} {r : BusResult MemoryUnit} {x : MemoryUnit × HostResult}
    (h : writeAnswer mu r = .ok x) : x.1 = mu ∨ r = .ok x.1 := by
  cases r <;> simp only [writeAnswer, Except.ok.injEq, reduceCtorEq] at h <;> subst h <;>
    first | exact .inl rfl | exact .inr rfl

/-- Every operation of the host keeps the canonical form. -/
theorem wf_hostOp {cfg : Config} {mu : MemoryUnit} (hm : Memory.wf mu) {o : HostOp}
    {x : MemoryUnit × HostResult} (h : hostOp cfg mu o = .ok x) : Memory.wf x.1 := by
  cases o with
  | readSingle addr w => rw [readAnswer_mu h]; exact hm
  | readMultiple addr count w => rw [readAnswer_mu h]; exact hm
  | writeSingle addr w v =>
    rcases writeAnswer_mu h with e | e
    · rw [e]; exact hm
    · exact wf_busWrite hm e
  | writeMultiple addr w vs =>
    rcases writeAnswer_mu h with e | e
    · rw [e]; exact hm
    · exact wf_busWrite hm e
  | allocate size p => cases h; exact wf_allocate hm size p
  | addMemory addr size p => cases h; exact wf_addMemory hm cfg addr size p
  | setPerm addr len p => cases h; exact wf_setPerm hm addr len p

end Sys2Proof.Machine
end

