-- ==== Sys2Proof/Laws/Instr.lean ====
section
/-! SUPPORT. Every instruction as its EXECUTE block put through the stages, and what the operand forms
of Machine/Operands.lean are worth as numbers. -/

namespace Sys2Proof.Machine

/-- The meaning of every instruction is its EXECUTE block put through the stages. -/
theorem exec_eq_runInstr (i : Instr) (s : State) : exec i s = runInstr i (executeBlock i) s := by
  cases i <;> rfl

/-- A 12-bit immediate is worth its signed value (00_scope.md R11). -/
theorem imm12_eq (imm : BitVec 12) : imm12 imm = BitVec.ofInt 32 (immValue imm) := by
  unfold imm12 immValue
  apply BitVec.eq_of_toInt_eq
  rw [BitVec.toInt_signExtend_of_le (by omega), BitVec.toInt_ofInt]
  have := imm.isLt
  rw [BitVec.toInt_eq_toNat_cond]
  split <;> split <;> rw [Int.bmod_def] <;> split <;> omega

/-- Adding an offset to a word, as integers modulo 2^32. -/
theorem add_ofInt (a : Word) (i : Int) : a + BitVec.ofInt 32 i = BitVec.ofInt 32 (a.toNat + i) := by
  rw [BitVec.ofInt_add, BitVec.ofInt_natCast, BitVec.ofNat_toNat, BitVec.setWidth_eq]

theorem immBranch_eq (offset : BitVec 13) : immBranch offset = BitVec.ofInt 32 offset.toInt :=
  rfl

theorem immJump_eq (offset : BitVec 21) : immJump offset = BitVec.ofInt 32 offset.toInt :=
  rfl

/-- The amount of a register shift is taken modulo 32 (41_integer_computational.md R213). -/
theorem shiftAmount_eq (v : Word) : shiftAmount v = v.toNat % 32 := by
  unfold shiftAmount
  rw [BitVec.toNat_and]
  exact Nat.and_two_pow_sub_one_eq_mod v.toNat 5

/-- An EXECUTE block that only writes a result gives its instruction the shape of every rule of
41_integer_computational.md. -/
theorem aluRule_of_writeResult {i : Instr} {rd rs1 rs2 : RegIdx} {f : Word → Word → Word → Word}
    {s : State} {g : Core → Word} (hb : ∀ cfg c, executeBlock i cfg c = writeResult c (g c))
    (hg : ∀ c, g c = f c.pc c.d.rs1v c.d.rs2v) (hrd : rdOf (encode i) = rd)
    (hf : f s.core.pc (s.core.x (rs1Of (encode i))) (s.core.x (rs2Of (encode i))) =
      f s.core.pc (s.core.x rs1) (s.core.x rs2)) : AluRule i rd rs1 rs2 f s := by
  have hb' : ∀ cfg c, executeBlock i cfg c =
      .done { c.d.cleared with aluOut := f c.pc c.d.rs1v c.d.rs2v, writeRd := true } :=
    fun cfg c => by rw [hb, hg]; rfl
  refine ⟨hb', ?_⟩
  obtain ⟨t, h1, h2, h3, h4⟩ := runInstr_done (i := i) (block := executeBlock i) (s := s)
    (hb' _ _) rfl rfl (rd := rd) (v := f s.core.pc (s.core.x rs1) (s.core.x rs2))
    (fun r => by simp [State.decoded, hrd]) (fun r _ => hf)
  exact ⟨t, (exec_eq_runInstr i s).trans h1, h2, h3, h4⟩

end Sys2Proof.Machine
end

