-- ==== Sys2Proof/Laws/PerInstr.lean ====
section
/-! SUPPORT. The families of statements made for every instruction. `OpcodeRow`: the word of an
instruction is selected by that instruction's own row of the opcode table, `w & mask = match`
(30_encoding.md section 3), whatever its operands. -/

namespace Sys2Proof.Laws.OpcodeRow

/-- The instruction's word is selected by its own row of the opcode table. -/
def Statement (i : Instr) : Prop := encode i &&& i.row.mask = i.row.pattern

theorem lui (rd : RegIdx) (imm20 : BitVec 20) :
    Statement (.lui rd imm20) :=
  (mask_opcode _ 0x00000037 (by decide)).2 (by
    simp only [encode, opcodeOf_encU]; decide)

theorem auipc (rd : RegIdx) (imm20 : BitVec 20) :
    Statement (.auipc rd imm20) :=
  (mask_opcode _ 0x00000017 (by decide)).2 (by
    simp only [encode, opcodeOf_encU]; decide)

theorem addi (rd rs1 : RegIdx) (imm : BitVec 12) :
    Statement (.addi rd rs1 imm) :=
  (mask_funct3 _ 0x00000013 (by decide)).2 (by
    simp only [encode, opcodeOf_encI, funct3Of_encI]; decide)

theorem slti (rd rs1 : RegIdx) (imm : BitVec 12) :
    Statement (.slti rd rs1 imm) :=
  (mask_funct3 _ 0x00002013 (by decide)).2 (by
    simp only [encode, opcodeOf_encI, funct3Of_encI]; decide)

theorem sltiu (rd rs1 : RegIdx) (imm : BitVec 12) :
    Statement (.sltiu rd rs1 imm) :=
  (mask_funct3 _ 0x00003013 (by decide)).2 (by
    simp only [encode, opcodeOf_encI, funct3Of_encI]; decide)

theorem xori (rd rs1 : RegIdx) (imm : BitVec 12) :
    Statement (.xori rd rs1 imm) :=
  (mask_funct3 _ 0x00004013 (by decide)).2 (by
    simp only [encode, opcodeOf_encI, funct3Of_encI]; decide)

theorem ori (rd rs1 : RegIdx) (imm : BitVec 12) :
    Statement (.ori rd rs1 imm) :=
  (mask_funct3 _ 0x00006013 (by decide)).2 (by
    simp only [encode, opcodeOf_encI, funct3Of_encI]; decide)

theorem andi (rd rs1 : RegIdx) (imm : BitVec 12) :
    Statement (.andi rd rs1 imm) :=
  (mask_funct3 _ 0x00007013 (by decide)).2 (by
    simp only [encode, opcodeOf_encI, funct3Of_encI]; decide)

theorem slli (rd rs1 : RegIdx) (shamt : BitVec 5) :
    Statement (.slli rd rs1 shamt) :=
  (mask_funct7 _ 0x00001013 (by decide)).2 (by
    simp only [encode, opcodeOf_encR, funct3Of_encR, funct7Of_encR]; decide)

theorem srli (rd rs1 : RegIdx) (shamt : BitVec 5) :
    Statement (.srli rd rs1 shamt) :=
  (mask_funct7 _ 0x00005013 (by decide)).2 (by
    simp only [encode, opcodeOf_encR, funct3Of_encR, funct7Of_encR]; decide)

theorem srai (rd rs1 : RegIdx) (shamt : BitVec 5) :
    Statement (.srai rd rs1 shamt) :=
  (mask_funct7 _ 0x40005013 (by decide)).2 (by
    simp only [encode, opcodeOf_encR, funct3Of_encR, funct7Of_encR]; decide)

theorem add (rd rs1 rs2 : RegIdx) :
    Statement (.add rd rs1 rs2) :=
  (mask_funct7 _ 0x00000033 (by decide)).2 (by
    simp only [encode, opcodeOf_encR, funct3Of_encR, funct7Of_encR]; decide)

theorem sub (rd rs1 rs2 : RegIdx) :
    Statement (.sub rd rs1 rs2) :=
  (mask_funct7 _ 0x40000033 (by decide)).2 (by
    simp only [encode, opcodeOf_encR, funct3Of_encR, funct7Of_encR]; decide)

theorem sll (rd rs1 rs2 : RegIdx) :
    Statement (.sll rd rs1 rs2) :=
  (mask_funct7 _ 0x00001033 (by decide)).2 (by
    simp only [encode, opcodeOf_encR, funct3Of_encR, funct7Of_encR]; decide)

theorem slt (rd rs1 rs2 : RegIdx) :
    Statement (.slt rd rs1 rs2) :=
  (mask_funct7 _ 0x00002033 (by decide)).2 (by
    simp only [encode, opcodeOf_encR, funct3Of_encR, funct7Of_encR]; decide)

theorem sltu (rd rs1 rs2 : RegIdx) :
    Statement (.sltu rd rs1 rs2) :=
  (mask_funct7 _ 0x00003033 (by decide)).2 (by
    simp only [encode, opcodeOf_encR, funct3Of_encR, funct7Of_encR]; decide)

theorem xor (rd rs1 rs2 : RegIdx) :
    Statement (.xor rd rs1 rs2) :=
  (mask_funct7 _ 0x00004033 (by decide)).2 (by
    simp only [encode, opcodeOf_encR, funct3Of_encR, funct7Of_encR]; decide)

theorem srl (rd rs1 rs2 : RegIdx) :
    Statement (.srl rd rs1 rs2) :=
  (mask_funct7 _ 0x00005033 (by decide)).2 (by
    simp only [encode, opcodeOf_encR, funct3Of_encR, funct7Of_encR]; decide)

theorem sra (rd rs1 rs2 : RegIdx) :
    Statement (.sra rd rs1 rs2) :=
  (mask_funct7 _ 0x40005033 (by decide)).2 (by
    simp only [encode, opcodeOf_encR, funct3Of_encR, funct7Of_encR]; decide)

theorem or (rd rs1 rs2 : RegIdx) :
    Statement (.or rd rs1 rs2) :=
  (mask_funct7 _ 0x00006033 (by decide)).2 (by
    simp only [encode, opcodeOf_encR, funct3Of_encR, funct7Of_encR]; decide)

theorem and (rd rs1 rs2 : RegIdx) :
    Statement (.and rd rs1 rs2) :=
  (mask_funct7 _ 0x00007033 (by decide)).2 (by
    simp only [encode, opcodeOf_encR, funct3Of_encR, funct7Of_encR]; decide)

theorem jal (rd : RegIdx) (offset : BitVec 21) :
    Statement (.jal rd offset) :=
  (mask_opcode _ 0x0000006F (by decide)).2 (by
    simp only [encode, opcodeOf_encJ]; decide)

theorem jalr (rd rs1 : RegIdx) (imm : BitVec 12) :
    Statement (.jalr rd rs1 imm) :=
  (mask_funct3 _ 0x00000067 (by decide)).2 (by
    simp only [encode, opcodeOf_encI, funct3Of_encI]; decide)

theorem beq (rs1 rs2 : RegIdx) (offset : BitVec 13) :
    Statement (.beq rs1 rs2 offset) :=
  (mask_funct3 _ 0x00000063 (by decide)).2 (by
    simp only [encode, opcodeOf_encB, funct3Of_encB]; decide)

theorem bne (rs1 rs2 : RegIdx) (offset : BitVec 13) :
    Statement (.bne rs1 rs2 offset) :=
  (mask_funct3 _ 0x00001063 (by decide)).2 (by
    simp only [encode, opcodeOf_encB, funct3Of_encB]; decide)

theorem blt (rs1 rs2 : RegIdx) (offset : BitVec 13) :
    Statement (.blt rs1 rs2 offset) :=
  (mask_funct3 _ 0x00004063 (by decide)).2 (by
    simp only [encode, opcodeOf_encB, funct3Of_encB]; decide)

theorem bge (rs1 rs2 : RegIdx) (offset : BitVec 13) :
    Statement (.bge rs1 rs2 offset) :=
  (mask_funct3 _ 0x00005063 (by decide)).2 (by
    simp only [encode, opcodeOf_encB, funct3Of_encB]; decide)

theorem bltu (rs1 rs2 : RegIdx) (offset : BitVec 13) :
    Statement (.bltu rs1 rs2 offset) :=
  (mask_funct3 _ 0x00006063 (by decide)).2 (by
    simp only [encode, opcodeOf_encB, funct3Of_encB]; decide)

theorem bgeu (rs1 rs2 : RegIdx) (offset : BitVec 13) :
    Statement (.bgeu rs1 rs2 offset) :=
  (mask_funct3 _ 0x00007063 (by decide)).2 (by
    simp only [encode, opcodeOf_encB, funct3Of_encB]; decide)

theorem lb (rd rs1 : RegIdx) (imm : BitVec 12) :
    Statement (.lb rd rs1 imm) :=
  (mask_funct3 _ 0x00000003 (by decide)).2 (by
    simp only [encode, opcodeOf_encI, funct3Of_encI]; decide)

theorem lh (rd rs1 : RegIdx) (imm : BitVec 12) :
    Statement (.lh rd rs1 imm) :=
  (mask_funct3 _ 0x00001003 (by decide)).2 (by
    simp only [encode, opcodeOf_encI, funct3Of_encI]; decide)

theorem lw (rd rs1 : RegIdx) (imm : BitVec 12) :
    Statement (.lw rd rs1 imm) :=
  (mask_funct3 _ 0x00002003 (by decide)).2 (by
    simp only [encode, opcodeOf_encI, funct3Of_encI]; decide)

theorem lbu (rd rs1 : RegIdx) (imm : BitVec 12) :
    Statement (.lbu rd rs1 imm) :=
  (mask_funct3 _ 0x00004003 (by decide)).2 (by
    simp only [encode, opcodeOf_encI, funct3Of_encI]; decide)

theorem lhu (rd rs1 : RegIdx) (imm : BitVec 12) :
    Statement (.lhu rd rs1 imm) :=
  (mask_funct3 _ 0x00005003 (by decide)).2 (by
    simp only [encode, opcodeOf_encI, funct3Of_encI]; decide)

theorem sb (rs2 rs1 : RegIdx) (imm : BitVec 12) :
    Statement (.sb rs2 rs1 imm) :=
  (mask_funct3 _ 0x00000023 (by decide)).2 (by
    simp only [encode, opcodeOf_encS, funct3Of_encS]; decide)

theorem sh (rs2 rs1 : RegIdx) (imm : BitVec 12) :
    Statement (.sh rs2 rs1 imm) :=
  (mask_funct3 _ 0x00001023 (by decide)).2 (by
    simp only [encode, opcodeOf_encS, funct3Of_encS]; decide)

theorem sw (rs2 rs1 : RegIdx) (imm : BitVec 12) :
    Statement (.sw rs2 rs1 imm) :=
  (mask_funct3 _ 0x00002023 (by decide)).2 (by
    simp only [encode, opcodeOf_encS, funct3Of_encS]; decide)

theorem ecall :
    Statement (.ecall) :=
  by unfold Statement; decide

theorem csrrw (rd : RegIdx) (csr : CsrAddr) (rs1 : RegIdx) :
    Statement (.csrrw rd csr rs1) :=
  (mask_funct3 _ 0x00001073 (by decide)).2 (by
    simp only [encode, opcodeOf_encI, funct3Of_encI]; decide)

theorem csrrs (rd : RegIdx) (csr : CsrAddr) (rs1 : RegIdx) :
    Statement (.csrrs rd csr rs1) :=
  (mask_funct3 _ 0x00002073 (by decide)).2 (by
    simp only [encode, opcodeOf_encI, funct3Of_encI]; decide)

theorem csrrc (rd : RegIdx) (csr : CsrAddr) (rs1 : RegIdx) :
    Statement (.csrrc rd csr rs1) :=
  (mask_funct3 _ 0x00003073 (by decide)).2 (by
    simp only [encode, opcodeOf_encI, funct3Of_encI]; decide)

theorem csrrwi (rd : RegIdx) (csr : CsrAddr) (uimm : BitVec 5) :
    Statement (.csrrwi rd csr uimm) :=
  (mask_funct3 _ 0x00005073 (by decide)).2 (by
    simp only [encode, opcodeOf_encI, funct3Of_encI]; decide)

theorem csrrsi (rd : RegIdx) (csr : CsrAddr) (uimm : BitVec 5) :
    Statement (.csrrsi rd csr uimm) :=
  (mask_funct3 _ 0x00006073 (by decide)).2 (by
    simp only [encode, opcodeOf_encI, funct3Of_encI]; decide)

theorem csrrci (rd : RegIdx) (csr : CsrAddr) (uimm : BitVec 5) :
    Statement (.csrrci rd csr uimm) :=
  (mask_funct3 _ 0x00007073 (by decide)).2 (by
    simp only [encode, opcodeOf_encI, funct3Of_encI]; decide)

end Sys2Proof.Laws.OpcodeRow
end

