-- ==== Sys2Proof/Laws/Stages.lean ====
section
/-! SUPPORT. Everything one stage step can do, said once (40_pipeline_stages.md R150), and what each of
the two granularities makes of it (log 3). -/

namespace Sys2Proof.Machine

/-- What a stage step that answers a next state has done, by the stage it started in. -/
inductive StageMove (s : State) : State → Prop
  | fetchQueued (w : Word) (rest : List Word) (hs : s.core.stage = .fetch)
      (hq : s.core.prefetch = w :: rest) : StageMove s (s.takeWord w rest)
  | fetchRefilled (ws : List Word) (hs : s.core.stage = .fetch) (hq : s.core.prefetch = [])
      (hr : fetchRefill s.cfg s.mu s.core.pc = .ok ws) :
      StageMove s (s.takeWord (ws.headD 0) ws.tail)
  | fetchFailed (st : BusStatus) (hs : s.core.stage = .fetch) (hq : s.core.prefetch = [])
      (hr : fetchRefill s.cfg s.mu s.core.pc = .fail st) : StageMove s (s.raise (fetchCause st))
  | decoded (hs : s.core.stage = .decode) : StageMove s s.decodeStage
  | executed (hs : s.core.stage = .execute) :
      StageMove s (s.executeStage (executeWord s.cfg s.core))
  | loaded (v : Word) (hs : s.core.stage = .memory) (hr : s.core.d.readMem = true)
      (hm : memRead s.cfg s.mu s.core.d.memOffset s.core.d.memWidth = .ok v) :
      StageMove s (s.advance { s.core with d := { s.core.d with
        aluOut := extendLoaded s.core.d.memSigned s.core.d.memWidth v } } .writeback)
  | loadFailed (st : BusStatus) (hs : s.core.stage = .memory) (hr : s.core.d.readMem = true)
      (hm : memRead s.cfg s.mu s.core.d.memOffset s.core.d.memWidth = .fail st) :
      StageMove s (s.raise (loadCause st))
  | stored (mu : MemoryUnit) (hs : s.core.stage = .memory) (hr : s.core.d.readMem = false)
      (hw : s.core.d.writeMem = true)
      (hm : memWrite s.cfg s.mu s.core.d.memOffset s.core.d.memWidth s.core.d.aluOut = .ok mu) :
      StageMove s ({ s with mu := mu }.advance s.core .writeback)
  | storeFailed (st : BusStatus) (hs : s.core.stage = .memory) (hr : s.core.d.readMem = false)
      (hw : s.core.d.writeMem = true)
      (hm : memWrite s.cfg s.mu s.core.d.memOffset s.core.d.memWidth s.core.d.aluOut = .fail st) :
      StageMove s (s.raise (storeCause st))
  | noAccess (hs : s.core.stage = .memory) (hr : s.core.d.readMem = false)
      (hw : s.core.d.writeMem = false) : StageMove s (s.advance s.core .writeback)
  | wroteBack (hs : s.core.stage = .writeback) : StageMove s s.writebackStage
  | entered (hs : s.core.stage = .trap)
      (ht : s.core.trapState = .none ∨ s.core.trapState = .enter) : StageMove s s.enterTrap
  | answered (continue_ : Bool) (a0 : Option Word) (h : Handler) (hs : s.core.stage = .trap)
      (ht : s.core.trapState = .handle)
      (hn : s.handler.next s.core.view s.mu s.core.hostResults = (.answer continue_ a0, h)) :
      StageMove s { s with core := s.core.answerTrap s.cfg continue_ a0, handler := h }
  | hostActed (o : HostOp) (h : Handler) (mu : MemoryUnit) (r : HostResult)
      (hs : s.core.stage = .trap) (ht : s.core.trapState = .handle)
      (hn : s.handler.next s.core.view s.mu s.core.hostResults = (.op o, h))
      (ho : hostOp s.cfg s.mu o = .ok (mu, r)) :
      StageMove s { s with
        mu := mu, handler := h
        core := { s.core with hostResults := s.core.hostResults ++ [r] } }
  | exited (hs : s.core.stage = .trap) (ht : s.core.trapState = .exit) : StageMove s s.exitTrap

/-- A stage step that answers a next state is one of these. -/
theorem stageMove {s t : State} (h : s.stageStep = .next t) : StageMove s t := by
  unfold State.stageStep at h
  split at h
  · next hs =>
    unfold State.fetchStage at h
    split at h
    · next hq => cases h; exact .fetchQueued _ _ hs hq
    · next hq =>
      split at h
      · next hr => cases h; exact .fetchRefilled _ hs hq hr
      · next hr => cases h; exact .fetchFailed _ hs hq hr
      · cases h
  · next hs => cases h; exact .decoded hs
  · next hs => cases h; exact .executed hs
  · next hs =>
    unfold State.memoryStage at h
    split at h
    · next hr =>
      split at h
      · next hm => cases h; exact .loaded _ hs hr hm
      · next hm => cases h; exact .loadFailed _ hs hr hm
      · cases h
    · next hr =>
      split at h
      · next hw =>
        split at h
        · next hm => cases h; exact .stored _ hs (by simpa using hr) hw hm
        · next hm => cases h; exact .storeFailed _ hs (by simpa using hr) hw hm
        · cases h
      · next hw => cases h; exact .noAccess hs (by simpa using hr) (by simpa using hw)
  · next hs => cases h; exact .wroteBack hs
  · next hs =>
    unfold State.trapStep at h
    split at h
    · next ht => cases h; exact .entered hs (.inl ht)
    · next ht => cases h; exact .entered hs (.inr ht)
    · next ht =>
      unfold State.handleTrap at h
      split at h
      · next hn => cases h; exact .answered _ _ _ hs ht hn
      · next hn =>
        split at h
        · next ho => cases h; exact .hostActed _ _ _ _ hs ht hn ho
        · cases h
    · next ht => cases h; exact .exited hs ht

/-- The step whose stage is known. -/
theorem stageStep_fetch {s : State} (h : s.core.stage = .fetch) : s.stageStep = s.fetchStage := by
  simp [State.stageStep, h]

theorem stageStep_decode {s : State} (h : s.core.stage = .decode) :
    s.stageStep = .next s.decodeStage := by
  simp [State.stageStep, h]

theorem stageStep_execute {s : State} (h : s.core.stage = .execute) :
    s.stageStep = .next (s.executeStage (executeWord s.cfg s.core)) := by
  simp [State.stageStep, h]

theorem stageStep_memory {s : State} (h : s.core.stage = .memory) :
    s.stageStep = s.memoryStage := by
  simp [State.stageStep, h]

theorem stageStep_writeback {s : State} (h : s.core.stage = .writeback) :
    s.stageStep = .next s.writebackStage := by
  simp [State.stageStep, h]

theorem stageStep_trap {s : State} (h : s.core.stage = .trap) : s.stageStep = s.trapStep := by
  simp [State.stageStep, h]

/-- A stage step touches one core, the MemoryUnit and the handler. -/
theorem StageMove.kept {s t : State} (h : StageMove s t) :
    t.cfg = s.cfg ∧ t.lower = s.lower ∧ t.upper = s.upper ∧ t.schedule = s.schedule ∧
      t.core.id = s.core.id := by
  cases h with
  | decoded hs => unfold State.decodeStage; split <;> exact ⟨rfl, rfl, rfl, rfl, rfl⟩
  | executed hs =>
    unfold State.executeStage; split <;> exact ⟨rfl, rfl, rfl, rfl, rfl⟩
  | wroteBack hs => exact ⟨rfl, rfl, rfl, rfl, by simp⟩
  | _ => exact ⟨rfl, rfl, rfl, rfl, rfl⟩

/-- A stage step outside TRAP halts no core. -/
theorem StageMove.halted {s t : State} (h : StageMove s t) (hs : s.core.stage ≠ .trap) :
    t.core.halted = s.core.halted := by
  cases h with
  | decoded _ => unfold State.decodeStage; split <;> rfl
  | executed _ => unfold State.executeStage; split <;> rfl
  | wroteBack _ => simp
  | answered _ _ _ ht => exact absurd ht hs
  | _ => rfl

/-- EXIT restores registers 1 to 31 from the snapshot (60_exceptions.md R313). -/
theorem exitTrap_x (s : State) {r : RegIdx} (hr : r ≠ 0) :
    s.exitTrap.core.x r = s.core.trap.snapshot[r.toNat] := by
  have h : s.exitTrap.core.x r = (s.core.trap.snapshot.set 0 s.core.regs[0])[r.toNat] := if_neg hr
  rw [h, Vector.getElem_set, if_neg]
  exact fun e => hr (BitVec.eq_of_toNat_eq (by simpa using e.symm))

end Sys2Proof.Machine
end

