-- ==== Sys2Proof/Laws/Turns.lean ====
section
/-! SUPPORT. Which core a step is a step of (40_pipeline_stages.md R174, R175): giving the turn to a core,
a scheduled turn, and a step with no turn scheduled. -/

namespace Sys2Proof.Machine

theorem cores_current (s : State) : s.cores[s.lower.length]? = some s.core := by
  simp [State.cores]

/-- Giving the turn to a core: that core is the current one, and nothing else has changed. -/
theorem focus_spec {k : Nat} {s s' : State} (h : s.focus k = some s') :
    s.cores[k]? = some s'.core ∧ s'.cores = s.cores ∧ s'.lower.length = k ∧ s'.mu = s.mu ∧
      s'.cfg = s.cfg ∧ s'.handler = s.handler ∧ s'.schedule = s.schedule := by
  unfold State.focus at h
  split at h
  · cases h
  · next c hc =>
    cases h
    have hk : k < s.cores.length := by
      by_contra hn
      rw [List.getElem?_eq_none (by omega)] at hc
      cases hc
    refine ⟨hc, ?_, by simp [List.length_take]; omega, rfl, rfl, rfl, rfl⟩
    rw [List.getElem?_eq_getElem hk] at hc
    have hd := List.drop_eq_getElem_cons hk
    rw [Option.some.inj hc] at hd
    have ht := List.take_append_drop k s.cores
    rw [hd] at ht
    exact ht

theorem focus_of_getElem {k : Nat} {s : State} {c : Core} (h : s.cores[k]? = some c) :
    ∃ s', s.focus k = some s' ∧ s'.core = c := by
  unfold State.focus
  rw [h]
  exact ⟨_, rfl, rfl⟩

theorem focus_current (s : State) : s.focus s.lower.length = some s := by
  unfold State.focus
  rw [cores_current]
  simp [State.cores]

/-- Where only the current core has changed, every other core is as before. -/
theorem cores_other {s t : State} (hl : t.lower = s.lower) (hu : t.upper = s.upper) {j : Nat}
    (hj : j ≠ s.lower.length) : t.cores[j]? = s.cores[j]? := by
  unfold State.cores
  rw [hl, hu]
  by_cases h : j < s.lower.length
  · rw [List.getElem?_append_left h, List.getElem?_append_left h]
  · rw [List.getElem?_append_right (by omega), List.getElem?_append_right (by omega)]
    obtain ⟨m, hm⟩ : ∃ m, j - s.lower.length = m + 1 := ⟨j - s.lower.length - 1, by omega⟩
    rw [hm]
    rfl

/-- A scheduled turn passes, or is one stage step of a core that is not halted. -/
theorem turn_cases {k : Nat} {s t : State} (h : s.turn k = .next t) :
    t = s ∨ ∃ s', s.focus k = some s' ∧ s'.core.halted = false ∧ s'.stageStep = .next t := by
  unfold State.turn at h
  split at h
  · cases h; exact .inl rfl
  · next s' hf =>
    split at h
    · cases h; exact .inl rfl
    · next hh => exact .inr ⟨s', hf, by simpa using hh, h⟩

theorem turn_eq {k : Nat} {s s' : State} (hf : s.focus k = some s') (h : s'.core.halted = false) :
    s.turn k = s'.stageStep := by
  unfold State.turn
  rw [hf]
  simp [h]

theorem firstRunning_some {cs : List Core} {k : Nat} (h : firstRunning cs = some k) :
    ∃ c, cs[k]? = some c ∧ c.halted = false := by
  induction cs generalizing k with
  | nil => cases h
  | cons c cs ih =>
    unfold firstRunning at h
    split at h
    · obtain ⟨j, hj, rfl⟩ := Option.map_eq_some_iff.1 h
      simpa using ih hj
    · next hc => cases h; exact ⟨c, rfl, by simpa using hc⟩

theorem firstRunning_none {cs : List Core} : firstRunning cs = none ↔ ∀ c ∈ cs, c.halted = true := by
  induction cs with
  | nil => simp [firstRunning]
  | cons c cs ih => unfold firstRunning; split <;> simp_all

/-- A step with no turn scheduled is a whole-instruction step of a core that is not halted. -/
theorem runOn_cases {s t : State} (h : s.runOn = .next t) :
    ∃ k s', s.focus k = some s' ∧ s'.core.halted = false ∧ s'.runCore = .next t := by
  unfold State.runOn at h
  split at h
  · split at h
    · cases h
    · next k hk =>
      split at h
      · cases h
      · next s' hf =>
        obtain ⟨c, hc, hc'⟩ := firstRunning_some hk
        rw [(focus_spec hf).1] at hc
        cases hc
        exact ⟨k, s', hf, hc', h⟩
  · next hh => exact ⟨_, s, focus_current s, by simpa using hh, h⟩

theorem step_runOn {s : State} (h : s.schedule = []) (t : State) :
    s.machineStep = .next t ↔ s.runOn = .next t := by
  unfold State.machineStep
  rw [h]

end Sys2Proof.Machine
end

