-- ==== Sys2Proof/Tests/Slice0.lean ====
section
/-! SUPPORT. The model's own tests. Words are written out from the encodings of 30_encoding.md, and the
expected values are those of spec/95_test_vectors.md (its row is named at each) or follow from the
rule named. The `witness_` theorems show, for every statement with hypotheses, a state and operands
that meet them, clause by clause. -/

namespace Sys2Proof.Tests

-- one theorem at a time: each small evaluation would otherwise get a thread of its own
set_option Elab.async false

open Sys2Proof Sys2Proof.Machine

/-! ### Well-formedness: an odd offset has no encoding, in each of the two formats -/

theorem test_wf_refuses_odd_branch :
    [Instr.beq 1 2 3, .bne 1 2 3, .blt 1 2 3, .bge 1 2 3, .bltu 1 2 3, .bgeu 1 2 3].map Instr.wf =
      List.replicate 6 false := by decide

theorem test_wf_refuses_odd_jal : (Instr.jal 1 5).wf = false := by decide

theorem test_wf_accepts_even : (Instr.jal 1 4).wf = true ∧ (Instr.beq 1 2 (-4096)).wf = true := by
  decide

/-! ### Decoding, bit by bit from the formats of R122 and the codes of R130 to R137 -/

theorem test_decode_lui : decodeWord 0b00010010001101000101_00101_0110111 =
    .ok (.lui 5 0x12345) := by decide
theorem test_decode_auipc : decodeWord 0b11111111111111111110_00110_0010111 =
    .ok (.auipc 6 0xFFFFE) := by decide
theorem test_decode_addi : decodeWord 0b100000000001_00110_000_00101_0010011 =
    .ok (.addi 5 6 0x801) := by decide
theorem test_decode_slti : decodeWord 0b000000000011_00110_010_00101_0010011 =
    .ok (.slti 5 6 3) := by decide
theorem test_decode_sltiu : decodeWord 0b000000000011_00110_011_00101_0010011 =
    .ok (.sltiu 5 6 3) := by decide
theorem test_decode_xori : decodeWord 0b000000000011_00110_100_00101_0010011 =
    .ok (.xori 5 6 3) := by decide
theorem test_decode_ori : decodeWord 0b000000000011_00110_110_00101_0010011 =
    .ok (.ori 5 6 3) := by decide
theorem test_decode_andi : decodeWord 0b000000000011_00110_111_00101_0010011 =
    .ok (.andi 5 6 3) := by decide
theorem test_decode_slli : decodeWord 0b0000000_10001_00110_001_00101_0010011 =
    .ok (.slli 5 6 17) := by decide
theorem test_decode_srli : decodeWord 0b0000000_10001_00110_101_00101_0010011 =
    .ok (.srli 5 6 17) := by decide
theorem test_decode_srai : decodeWord 0b0100000_10001_00110_101_00101_0010011 =
    .ok (.srai 5 6 17) := by decide
theorem test_decode_add : decodeWord 0b0000000_00111_00110_000_00101_0110011 =
    .ok (.add 5 6 7) := by decide
theorem test_decode_sub : decodeWord 0b0100000_00111_00110_000_00101_0110011 =
    .ok (.sub 5 6 7) := by decide
theorem test_decode_sll : decodeWord 0b0000000_00111_00110_001_00101_0110011 =
    .ok (.sll 5 6 7) := by decide
theorem test_decode_slt : decodeWord 0b0000000_00111_00110_010_00101_0110011 =
    .ok (.slt 5 6 7) := by decide
theorem test_decode_sltu : decodeWord 0b0000000_00111_00110_011_00101_0110011 =
    .ok (.sltu 5 6 7) := by decide
theorem test_decode_xor : decodeWord 0b0000000_00111_00110_100_00101_0110011 =
    .ok (.xor 5 6 7) := by decide
theorem test_decode_srl : decodeWord 0b0000000_00111_00110_101_00101_0110011 =
    .ok (.srl 5 6 7) := by decide
theorem test_decode_sra : decodeWord 0b0100000_00111_00110_101_00101_0110011 =
    .ok (.sra 5 6 7) := by decide
theorem test_decode_or : decodeWord 0b0000000_00111_00110_110_00101_0110011 =
    .ok (.or 5 6 7) := by decide
theorem test_decode_and : decodeWord 0b0000000_00111_00110_111_00101_0110011 =
    .ok (.and 5 6 7) := by decide

/-- imm[20] 1, imm[10:1] 0000000110, imm[11] 1, imm[19:12] 00000010, by R128. -/
theorem test_decode_jal : decodeWord 0b1_0000000110_1_00000010_00001_1101111 =
    .ok (.jal 1 0x10280C) := by decide
theorem test_decode_jalr : decodeWord 0b111111111100_00110_000_00101_1100111 =
    .ok (.jalr 5 6 (-4)) := by decide

/-- imm[12] 1, imm[10:5] 000011, imm[4:1] 1001, imm[11] 1, by R126. -/
theorem test_decode_beq : decodeWord 0b1_000011_00110_00101_000_1001_1_1100011 =
    .ok (.beq 5 6 0x1872) := by decide
theorem test_decode_bne : decodeWord 0b0_000000_00110_00101_001_0110_0_1100011 =
    .ok (.bne 5 6 12) := by decide
theorem test_decode_blt : decodeWord 0b0_000000_00110_00101_100_0110_0_1100011 =
    .ok (.blt 5 6 12) := by decide
theorem test_decode_bge : decodeWord 0b0_000000_00110_00101_101_0110_0_1100011 =
    .ok (.bge 5 6 12) := by decide
theorem test_decode_bltu : decodeWord 0b0_000000_00110_00101_110_0110_0_1100011 =
    .ok (.bltu 5 6 12) := by decide
theorem test_decode_bgeu : decodeWord 0b0_000000_00110_00101_111_0110_0_1100011 =
    .ok (.bgeu 5 6 12) := by decide
theorem test_decode_lb : decodeWord 0b000000000011_00110_000_00101_0000011 =
    .ok (.lb 5 6 3) := by decide
theorem test_decode_lh : decodeWord 0b000000000011_00110_001_00101_0000011 =
    .ok (.lh 5 6 3) := by decide
theorem test_decode_lw : decodeWord 0b000000000011_00110_010_00101_0000011 =
    .ok (.lw 5 6 3) := by decide
theorem test_decode_lbu : decodeWord 0b000000000011_00110_100_00101_0000011 =
    .ok (.lbu 5 6 3) := by decide
theorem test_decode_lhu : decodeWord 0b000000000011_00110_101_00101_0000011 =
    .ok (.lhu 5 6 3) := by decide

/-- imm[11:5] 1000001, imm[4:0] 00010, by R125. -/
theorem test_decode_sb : decodeWord 0b1000001_00111_00110_000_00010_0100011 =
    .ok (.sb 7 6 0x822) := by decide
theorem test_decode_sh : decodeWord 0b1000001_00111_00110_001_00010_0100011 =
    .ok (.sh 7 6 0x822) := by decide
theorem test_decode_sw : decodeWord 0b1000001_00111_00110_010_00010_0100011 =
    .ok (.sw 7 6 0x822) := by decide
theorem test_decode_ecall : decodeWord 0b000000000000_00000_000_00000_1110011 =
    .ok .ecall := by decide
theorem test_decode_csrrw : decodeWord 0b001101000001_00110_001_00101_1110011 =
    .ok (.csrrw 5 0x341 6) := by decide
theorem test_decode_csrrs : decodeWord 0b001101000001_00110_010_00101_1110011 =
    .ok (.csrrs 5 0x341 6) := by decide
theorem test_decode_csrrc : decodeWord 0b001101000001_00110_011_00101_1110011 =
    .ok (.csrrc 5 0x341 6) := by decide
theorem test_decode_csrrwi : decodeWord 0b001101000001_10001_101_00101_1110011 =
    .ok (.csrrwi 5 0x341 17) := by decide
theorem test_decode_csrrsi : decodeWord 0b001101000001_10001_110_00101_1110011 =
    .ok (.csrrsi 5 0x341 17) := by decide
theorem test_decode_csrrci : decodeWord 0b001101000001_10001_111_00101_1110011 =
    .ok (.csrrci 5 0x341 17) := by decide

/-- Reserved words are refused, by kind: IL1, IL3, IC46, IC48, CT11, CT22, LS21, LS43, SY17, SY18,
SY21. -/
theorem test_decode_refuses :
    [(0x00000000 : Word), 0x0062A2AF].map decodeWord =
      List.replicate 2 (.error .unknownOpcode) ∧
    [(0x02431293 : Word), 0x027302B3, 0x000290E7, 0x00002063, 0x00033283, 0x00733023, 0x300342F3,
      0x00100073, 0x000000F3].map decodeWord = List.replicate 9 (.error .badFunctionCode) := by
  decide

/-- Bytes are in the order of R120 and R100, the least significant one first, and what follows the
word is left (LUI of IC1). -/
theorem test_decode_bytes :
    decodeBytes [0xB7, 0x52, 0x34, 0x12, 0xAA] = .ok (.lui 5 0x12345, [0xAA]) ∧
    decodeBytes [0xB7, 0x52, 0x34] = .error .truncated := by decide

/-! ### One step each, on the platform of 95_test_vectors.md section 0 -/

/-- A readable, writable byte. -/
def rw : Perm := ⟨true, true, false, false⟩

/-- A readable, executable byte. -/
def rx : Perm := ⟨true, false, true, false⟩

/-- The arena of the vectors: the word at 0x1000 is code, and the eight bytes of LS1 to LS9 lie at
0x2000. -/
def testMem : MemoryUnit :=
  { MemoryUnit.init Config.platform with
    data := [(0x1000, 0x13), (0x2000, 0x80), (0x2001, 0xFF), (0x2003, 0x80), (0x2004, 0x44),
      (0x2005, 0x33), (0x2006, 0x22), (0x2007, 0x11)]
    perm := [(0x1000, rx), (0x1001, rx), (0x1002, rx), (0x1003, rx), (0x2000, rw), (0x2001, rw),
      (0x2002, rw), (0x2003, rw), (0x2004, rw), (0x2005, rw), (0x2006, rw), (0x2007, rw)] }

/-- The machine of the vectors, with these registers. -/
def testState (regs : List (RegIdx × Word)) : State :=
  { State.reset with
    mu := testMem, core := regs.foldl (fun c p => c.setX p.1 p.2) State.reset.core }

def nextOf : Result → Option State
  | .next s => some s
  | .fault _ => none
  | .refused _ => none

/-- The core after one step that runs the word `w`. -/
def coreAfter (w : Nat) (regs : List (RegIdx × Word)) : Option Core :=
  (nextOf (step ((testState regs).withFetchWord 32 w))).map fun s => s.core

/-- The MemoryUnit after one step that runs the word `w`. -/
def memAfter (w : Nat) (regs : List (RegIdx × Word)) : Option MemoryUnit :=
  (nextOf (step ((testState regs).withFetchWord 32 w))).map fun s => s.mu

/-- The core after one step that runs the word `w`, where the CSR `a` held `v`. -/
def coreAfterCsr (a : CsrAddr) (v : Word) (w : Nat) (regs : List (RegIdx × Word)) : Option Core :=
  let s := testState regs
  (nextOf (step (State.withFetchWord
    { s with core := { s.core with csr := s.core.csr.write a v } } 32 w))).map fun s => s.core

/-- IC1 -/
theorem test_lui :
    (coreAfter 0x123452B7 []).map (fun c => (c.x 5, c.pc)) =
      some (0x12345000, 0x1004) := by
  decide +kernel

/-- IC3 -/
theorem test_lui_x0 :
    (coreAfter 0x12345037 []).map (fun c => (c.x 0, c.pc)) =
      some (0, 0x1004) := by
  decide +kernel

/-- IC5 -/
theorem test_auipc :
    (coreAfter 0xFFFFF317 [(6, 0x55)]).map (fun c => (c.x 6, c.pc)) =
      some (0, 0x1004) := by
  decide +kernel

/-- IC6 -/
theorem test_addi :
    (coreAfter 0x06430293 [(6, 0xFFFFFFF0)]).map (fun c => (c.x 5, c.pc)) =
      some (0x54, 0x1004) := by
  decide +kernel

/-- IC9 -/
theorem test_addi_negative :
    (coreAfter 0x80030293 [(6, 0x800), (5, 0x55)]).map (fun c => (c.x 5, c.pc)) =
      some (0, 0x1004) := by
  decide +kernel

/-- IC11 -/
theorem test_slti :
    (coreAfter 0xFFF32293 [(6, 0xFFFFFFFE)]).map (fun c => (c.x 5, c.pc)) =
      some (1, 0x1004) := by
  decide +kernel

/-- IC13 -/
theorem test_slti_min :
    (coreAfter 0x7FF32293 [(6, 0x80000000)]).map (fun c => (c.x 5, c.pc)) =
      some (1, 0x1004) := by
  decide +kernel

/-- IC14 -/
theorem test_sltiu :
    (coreAfter 0xFFF33293 [(6, 0xFFFFFFFE)]).map (fun c => (c.x 5, c.pc)) =
      some (1, 0x1004) := by
  decide +kernel

/-- IC17 -/
theorem test_sltiu_zero :
    (coreAfter 0x00033293 [(6, 0), (5, 0x55)]).map (fun c => (c.x 5, c.pc)) =
      some (0, 0x1004) := by
  decide +kernel

/-- IC18 -/
theorem test_xori :
    (coreAfter 0xFFF34293 [(6, 0x12345678)]).map (fun c => (c.x 5, c.pc)) =
      some (0xEDCBA987, 0x1004) := by
  decide +kernel

/-- IC20 -/
theorem test_ori :
    (coreAfter 0xF0036293 [(6, 0x12)]).map (fun c => (c.x 5, c.pc)) =
      some (0xFFFFFF12, 0x1004) := by
  decide +kernel

/-- IC22 -/
theorem test_andi :
    (coreAfter 0xF0037293 [(6, 0x12345678)]).map (fun c => (c.x 5, c.pc)) =
      some (0x12345600, 0x1004) := by
  decide +kernel

/-- IC23 -/
theorem test_slli :
    (coreAfter 0x00431293 [(6, 0xF2345678)]).map (fun c => (c.x 5, c.pc)) =
      some (0x23456780, 0x1004) := by
  decide +kernel

/-- IC24 -/
theorem test_slli_31 :
    (coreAfter 0x01F31293 [(6, 3)]).map (fun c => (c.x 5, c.pc)) =
      some (0x80000000, 0x1004) := by
  decide +kernel

/-- IC26 -/
theorem test_srli :
    (coreAfter 0x00435293 [(6, 0xF2345678)]).map (fun c => (c.x 5, c.pc)) =
      some (0x0F234567, 0x1004) := by
  decide +kernel

/-- IC27 -/
theorem test_srli_31 :
    (coreAfter 0x01F35293 [(6, 0x80000000)]).map (fun c => (c.x 5, c.pc)) =
      some (1, 0x1004) := by
  decide +kernel

/-- IC28 -/
theorem test_srai :
    (coreAfter 0x40435293 [(6, 0xF2345678)]).map (fun c => (c.x 5, c.pc)) =
      some (0xFF234567, 0x1004) := by
  decide +kernel

/-- IC29 -/
theorem test_srai_31 :
    (coreAfter 0x41F35293 [(6, 0x80000000)]).map (fun c => (c.x 5, c.pc)) =
      some (0xFFFFFFFF, 0x1004) := by
  decide +kernel

/-- IC31 -/
theorem test_add :
    (coreAfter 0x007302B3 [(6, 0xFFFFFFFF), (7, 2)]).map (fun c => (c.x 5, c.pc)) =
      some (1, 0x1004) := by
  decide +kernel

/-- IC32 -/
theorem test_add_same :
    (coreAfter 0x005282B3 [(5, 0x80000001)]).map (fun c => (c.x 5, c.pc)) =
      some (2, 0x1004) := by
  decide +kernel

/-- IC34 -/
theorem test_sub :
    (coreAfter 0x407302B3 [(6, 0x80000000), (7, 1)]).map (fun c => (c.x 5, c.pc)) =
      some (0x7FFFFFFF, 0x1004) := by
  decide +kernel

/-- IC35 -/
theorem test_sll :
    (coreAfter 0x007312B3 [(6, 1), (7, 0x21)]).map (fun c => (c.x 5, c.pc)) =
      some (2, 0x1004) := by
  decide +kernel

/-- IC36 -/
theorem test_slt :
    (coreAfter 0x007322B3 [(6, 0x80000000), (7, 0x7FFFFFFF)]).map (fun c => (c.x 5, c.pc)) =
      some (1, 0x1004) := by
  decide +kernel

/-- IC38 -/
theorem test_sltu :
    (coreAfter 0x007332B3 [(6, 0x80000000), (7, 0x7FFFFFFF), (5, 0x55)]).map (fun c => (c.x 5, c.pc)) =
      some (0, 0x1004) := by
  decide +kernel

/-- IC40 -/
theorem test_xor :
    (coreAfter 0x007342B3 [(6, 0xFF00FF00), (7, 0x0FF00FF0)]).map (fun c => (c.x 5, c.pc)) =
      some (0xF0F0F0F0, 0x1004) := by
  decide +kernel

/-- IC41 -/
theorem test_srl :
    (coreAfter 0x007352B3 [(6, 0x80000000), (7, 0xFFFFFFFF)]).map (fun c => (c.x 5, c.pc)) =
      some (1, 0x1004) := by
  decide +kernel

/-- IC42 -/
theorem test_sra :
    (coreAfter 0x407352B3 [(6, 0x80000000), (7, 0xFFFFFFFF)]).map (fun c => (c.x 5, c.pc)) =
      some (0xFFFFFFFF, 0x1004) := by
  decide +kernel

/-- IC44 -/
theorem test_or :
    (coreAfter 0x007362B3 [(6, 0xFF00FF00), (7, 0x0FF00FF0)]).map (fun c => (c.x 5, c.pc)) =
      some (0xFFF0FFF0, 0x1004) := by
  decide +kernel

/-- IC45 -/
theorem test_and :
    (coreAfter 0x007372B3 [(6, 0xFF00FF00), (7, 0x0FF00FF0)]).map (fun c => (c.x 5, c.pc)) =
      some (0x0F000F00, 0x1004) := by
  decide +kernel

/-- CT1 -/
theorem test_jal :
    (coreAfter 0x010000EF []).map (fun c => (c.x 1, c.pc)) =
      some (0x1004, 0x1010) := by
  decide +kernel

/-- CT5 -/
theorem test_jal_back :
    (coreAfter 0x800FF0EF []).map (fun c => (c.x 1, c.pc)) =
      some (0x1004, 0) := by
  decide +kernel

/-- CT7 -/
theorem test_jalr :
    (coreAfter 0xFFC080E7 [(1, 0x1024)]).map (fun c => (c.x 1, c.pc)) =
      some (0x1004, 0x1020) := by
  decide +kernel

/-- CT9 -/
theorem test_jalr_odd :
    (coreAfter 0x000280E7 [(5, 0x1021)]).map (fun c => (c.x 1, c.pc)) =
      some (0x1004, 0x1021) := by
  decide +kernel

/-- CT12c -/
theorem test_beq :
    (coreAfter 0x00628663 [(5, 7), (6, 7)]).map (fun c => c.pc) =
      some 0x100C := by
  decide +kernel

/-- CT12a -/
theorem test_beq_not :
    (coreAfter 0x00628663 [(5, 0xFFFFFFFF), (6, 1)]).map (fun c => c.pc) =
      some 0x1004 := by
  decide +kernel

/-- CT13b -/
theorem test_bne :
    (coreAfter 0x00629663 [(5, 1), (6, 0xFFFFFFFF)]).map (fun c => c.pc) =
      some 0x100C := by
  decide +kernel

/-- CT13c -/
theorem test_bne_not :
    (coreAfter 0x00629663 [(5, 7), (6, 7)]).map (fun c => c.pc) =
      some 0x1004 := by
  decide +kernel

/-- CT14a -/
theorem test_blt :
    (coreAfter 0x0062C663 [(5, 0xFFFFFFFF), (6, 1)]).map (fun c => c.pc) =
      some 0x100C := by
  decide +kernel

/-- CT14c -/
theorem test_blt_not :
    (coreAfter 0x0062C663 [(5, 7), (6, 7)]).map (fun c => c.pc) =
      some 0x1004 := by
  decide +kernel

/-- CT15c -/
theorem test_bge :
    (coreAfter 0x0062D663 [(5, 7), (6, 7)]).map (fun c => c.pc) =
      some 0x100C := by
  decide +kernel

/-- CT15a -/
theorem test_bge_not :
    (coreAfter 0x0062D663 [(5, 0xFFFFFFFF), (6, 1)]).map (fun c => c.pc) =
      some 0x1004 := by
  decide +kernel

/-- CT16b -/
theorem test_bltu :
    (coreAfter 0x0062E663 [(5, 1), (6, 0xFFFFFFFF)]).map (fun c => c.pc) =
      some 0x100C := by
  decide +kernel

/-- CT16c -/
theorem test_bltu_not :
    (coreAfter 0x0062E663 [(5, 7), (6, 7)]).map (fun c => c.pc) =
      some 0x1004 := by
  decide +kernel

/-- CT17c -/
theorem test_bgeu :
    (coreAfter 0x0062F663 [(5, 7), (6, 7)]).map (fun c => c.pc) =
      some 0x100C := by
  decide +kernel

/-- CT17b -/
theorem test_bgeu_not :
    (coreAfter 0x0062F663 [(5, 1), (6, 0xFFFFFFFF)]).map (fun c => c.pc) =
      some 0x1004 := by
  decide +kernel

/-- LS1 -/
theorem test_lb :
    (coreAfter 0x00030283 [(6, 0x2000)]).map (fun c => (c.x 5, c.pc)) =
      some (0xFFFFFF80, 0x1004) := by
  decide +kernel

/-- LS2 -/
theorem test_lbu :
    (coreAfter 0x00034283 [(6, 0x2000)]).map (fun c => (c.x 5, c.pc)) =
      some (0x80, 0x1004) := by
  decide +kernel

/-- LS4 -/
theorem test_lh :
    (coreAfter 0x00231283 [(6, 0x2000)]).map (fun c => (c.x 5, c.pc)) =
      some (0xFFFF8000, 0x1004) := by
  decide +kernel

/-- LS5 -/
theorem test_lhu :
    (coreAfter 0x00235283 [(6, 0x2000)]).map (fun c => (c.x 5, c.pc)) =
      some (0x8000, 0x1004) := by
  decide +kernel

/-- LS9 -/
theorem test_lw :
    (coreAfter 0x00432303 [(6, 0x2000)]).map (fun c => (c.x 6, c.pc)) =
      some (0x11223344, 0x1004) := by
  decide +kernel

/-- LS11 -/
theorem test_lh_misaligned :
    (coreAfter 0x00131283 [(6, 0x2000)]).map (fun c => (c.trap.cause, c.csr.mepc, c.csr.mcause, c.trapState)) =
      some (.loadAddrMisaligned, 0x1000, 4, .handle) := by
  decide +kernel

/-- LS13 -/
theorem test_lw_unreadable :
    (coreAfter 0x00032283 [(6, 0x2100)]).map (fun c => (c.trap.cause, c.csr.mepc, c.csr.mcause, c.trapState)) =
      some (.loadAccessFault, 0x1000, 5, .handle) := by
  decide +kernel

/-- LS17 -/
theorem test_lb_wraps :
    (coreAfter 0x00130283 [(6, 0xFFFFFFFF)]).map (fun c => (c.trap.cause, c.csr.mepc, c.csr.mcause, c.trapState)) =
      some (.loadAccessFault, 0x1000, 5, .handle) := by
  decide +kernel

/-- LS34 -/
theorem test_sh_misaligned :
    (coreAfter 0x007310A3 [(6, 0x2100), (7, 1)]).map (fun c => (c.trap.cause, c.csr.mepc, c.csr.mcause, c.trapState)) =
      some (.storeAddrMisaligned, 0x1000, 6, .handle) := by
  decide +kernel

/-- LS36 -/
theorem test_sw_code :
    (coreAfter 0x00732023 [(6, 0x1000), (7, 1)]).map (fun c => (c.trap.cause, c.csr.mepc, c.csr.mcause, c.trapState)) =
      some (.storeAccessFault, 0x1000, 7, .handle) := by
  decide +kernel

/-- SY1 -/
theorem test_ecall :
    (coreAfter 0x00000073 [(17, 0x5D)]).map (fun c => (c.trap.cause, c.csr.mepc, c.csr.mcause, c.trapState)) =
      some (.envCallUmode, 0x1000, 8, .handle) := by
  decide +kernel

/-- SY14 -/
theorem test_csr_unimplemented :
    (coreAfter 0x305022F3 []).map (fun c => (c.trap.cause, c.csr.mepc, c.csr.mcause, c.trapState)) =
      some (.illegalInstruction, 0x1000, 2, .handle) := by
  decide +kernel

/-- SY18 -/
theorem test_ebreak :
    (coreAfter 0x00100073 []).map (fun c => (c.trap.cause, c.csr.mepc, c.csr.mcause, c.trapState)) =
      some (.illegalInstruction, 0x1000, 2, .handle) := by
  decide +kernel

/-- SY22 -/
theorem test_fence :
    (coreAfter 0x0FF0000F []).map (fun c => (c.trap.cause, c.csr.mepc, c.csr.mcause, c.trapState)) =
      some (.illegalInstruction, 0x1000, 2, .handle) := by
  decide +kernel

/-- LS30 -/
theorem test_sb :
    (memAfter 0x007301A3 [(6, 0x2100), (7, 0x123456AB)]).map (fun m => (m.byteAt 0x2103, m.permAt 0x2103, m.permAt 0x2102)) =
      some (0xAB, ⟨true, true, false, false⟩, ⟨false, true, false, true⟩) := by
  decide +kernel

/-- LS31 -/
theorem test_sh :
    (memAfter 0x00731123 [(6, 0x2100), (7, 0x1234CDEF)]).map (fun m => (m.byteAt 0x2102, m.byteAt 0x2103, m.byteAt 0x2104)) =
      some (0xEF, 0xCD, 0) := by
  decide +kernel

/-- LS32 -/
theorem test_sw :
    (memAfter 0xFE732E23 [(6, 0x2104), (7, 0x89ABCDEF)]).map (fun m => [m.byteAt 0x2100, m.byteAt 0x2101, m.byteAt 0x2102, m.byteAt 0x2103]) =
      some [0xEF, 0xCD, 0xAB, 0x89] := by
  decide +kernel

/-- SY4 -/
theorem test_csrrw :
    (coreAfterCsr 0x300 0xF 0x300292F3 [(5, 0xAAAA5555)]).map (fun c => (c.x 5, c.csr.read 0x300)) =
      some (0xF, 0xAAAA5555) := by
  decide +kernel

/-- SY6 -/
theorem test_csrrs :
    (coreAfterCsr 0x304 8 0x304322F3 [(6, 0x880)]).map (fun c => (c.x 5, c.csr.read 0x304)) =
      some (8, 0x888) := by
  decide +kernel

/-- SY5 -/
theorem test_csrrs_x0 :
    (coreAfterCsr 0x342 8 0x342022F3 []).map (fun c => (c.x 5, c.csr.read 0x342)) =
      some (8, 8) := by
  decide +kernel

/-- SY8 -/
theorem test_csrrc :
    (coreAfterCsr 0x300 0xF 0x300332F3 [(6, 5)]).map (fun c => (c.x 5, c.csr.read 0x300)) =
      some (0xF, 0xA) := by
  decide +kernel

/-- SY9 -/
theorem test_csrrwi :
    (coreAfterCsr 0x304 0xFFFFFFFF 0x304452F3 []).map (fun c => (c.x 5, c.csr.read 0x304)) =
      some (0xFFFFFFFF, 8) := by
  decide +kernel

/-- SY11 -/
theorem test_csrrsi :
    (coreAfterCsr 0x300 0 0x300462F3 [(5, 0x55)]).map (fun c => (c.x 5, c.csr.read 0x300)) =
      some (0, 8) := by
  decide +kernel

/-- SY13 -/
theorem test_csrrci :
    (coreAfterCsr 0x300 0xF 0x30047073 []).map (fun c => (c.x 0, c.csr.read 0x300)) =
      some (0, 7) := by
  decide +kernel

/-! ### Further steps of the machine -/

/-- FP7: a window that may not be read is not fetched, and FP10: a misaligned one is not either. -/
theorem test_fetch_traps :
    ((nextOf (step { testState [] with core := { State.reset.core with pc := 0x2100 } })).map
      fun s => (s.core.trap.cause, s.core.csr.mepc, s.core.cycle)) =
        some (.instructionAccessFault, 0x2100, 2) ∧
    ((nextOf (step { testState [] with core := { State.reset.core with pc := 0x1002 } })).map
      fun s => (s.core.trap.cause, s.core.csr.mepc, s.core.cycle)) =
        some (.instructionAddrMisalign, 0x1002, 2) := by
  decide +kernel

/-- The word at 0x1000, fetched from memory, runs (R151). -/
theorem test_fetch_runs :
    ((nextOf (step (testState []))).map fun s => (s.core.pc, s.core.cycle, s.core.d.ir)) =
      some (0x1004, 5, 0x13) := by
  decide +kernel

/-- A core in HANDLE, after an ECALL at 0x1004 with `x10 = 7` (TR1, step 9). -/
def handling : State :=
  let s := testState [(10, 7), (17, 64)]
  { s with core := { s.core with
      pc := 0, stage := .trap, trapState := .handle
      csr := { s.core.csr with mepc := 0x1004, mcause := 8 }
      trap := ⟨s.core.regs, 0x1004, .envCallUmode⟩ } }

/-- TR1, step 10: the answer `(true, 0x2A)` changes slot 10 of the snapshot, and `x10` not yet. -/
theorem test_handle :
    ((nextOf (step { handling with handler := .script [.answer true (some 0x2A)] })).map fun s =>
      (s.core.trapState, s.core.trap.snapshot[10], s.core.x 10)) = some (.exit, 0x2A, 7) := by
  decide +kernel

/-- TR1, step 26: an answer of false halts the core in HANDLE. -/
theorem test_halt :
    ((nextOf (step handling)).map fun s => (s.core.trapState, s.core.halted, s.core.cycle)) =
      some (.handle, true, 1) := by
  decide +kernel

/-- TR1, step 11: EXIT. -/
theorem test_exit :
    ((nextOf (step { handling with core := { handling.core with
        trapState := .exit
        trap := { handling.core.trap with snapshot := handling.core.regs.set 10 0x2A } } })).map
      fun s => (s.core.x 10, s.core.x 17, s.core.pc, s.core.stage)) =
        some (0x2A, 64, 0x1008, .fetch) := by
  decide +kernel

/-- MU2, MU4, MU5, MU7: the host's operations. -/
theorem test_host_operations :
    (testMem.addMemory Config.platform 0x0800 16 rw).1 = false ∧
    ((testMem.addMemory Config.platform 0x3FFF 2 rx).2.size,
      (testMem.addMemory Config.platform 0x3FFF 2 rx).2.permAt 0x4000) = (0x3001, rx) ∧
    ((testMem.allocate 20 rw).1, (testMem.allocate 20 rw).2.currVaddr,
      (testMem.allocate 20 rw).2.permAt 0x3013, (testMem.allocate 20 rw).2.permAt 0x3014) =
        (some 0x3000, 0x3020, rw, Perm.afterInit) := by
  decide +kernel

/-- A scheduled turn is one stage (R175): core 1 of two fetches, and core 0 stays. -/
theorem test_turn :
    ((nextOf (step { testState [] with
        schedule := [1], upper := [Core.reset 1 0x1000] })).map fun s =>
      s.cores.map fun c => (c.id, c.stage, c.cycle)) = some [(0, .fetch, 0), (1, .decode, 1)] := by
  decide +kernel

/-- R364: no step when every core is halted. -/
theorem test_all_halted :
    step { handling with core := { handling.core with halted := true } } = .fault .allHalted :=
  rfl

/-! ### Witnesses: the hypotheses of every statement can be met -/

/-- Three devices: memory beyond the arena's end, a read-only one, and one without a rule. -/
def wCfg : Config :=
  { Config.platform with
    devices := [⟨0x1000, 0x4000, true, true, true, .ram⟩, ⟨0x8000, 0x1000, true, false, true, .rom⟩,
      ⟨0xA000, 0x100, true, true, false, .video⟩] }

/-- The arena's first word is code, its last word is data that may be read and written, and the byte
at 0x2000 may be neither. Every other byte is as after `init`. -/
def wMu : MemoryUnit :=
  { MemoryUnit.init wCfg with
    data := [(0x1000, 0x13), (0x3FFD, 0x80), (0x3FFF, 0xFF)]
    perm := [(0x1000, rx), (0x1001, rx), (0x1002, rx), (0x1003, rx), (0x2000, Perm.none),
      (0x3FFC, rw), (0x3FFD, rw), (0x3FFE, rw), (0x3FFF, rw)] }

/-- A machine about to fetch at `pc` with `x6 = a` and an empty queue. -/
def wState (pc a : Word) : State :=
  { State.boot wCfg with mu := wMu, core := { (Core.reset 0 pc).setX 6 a with csr := .reset } }

/-- The same machine inside an instruction. -/
def wAt (stage : Stage) (d : Decoded) : State :=
  { wState 0x1000 0 with core := { (wState 0x1000 0).core with stage := stage, d := d } }

/-- The same machine inside a trap that an ECALL took. -/
def wTrap (ts : TrapState) : State :=
  { wState 0 0 with core := { (wState 0 0).core with
      stage := .trap, trapState := ts
      csr := { CsrFile.reset with mepc := 0x1000, mcause := 8 }
      trap := ⟨(Vector.replicate 32 0).set 5 9, 0x1000, .envCallUmode⟩ } }

/-- A device that ends after the first word of the arena's code, with a window of two words. -/
def wShort : State :=
  { wState 0x1000 0 with cfg := { wCfg with
      prefetchMore := 1, fetchRequiresExec := false
      devices := [⟨0x1000, 4, true, true, true, .ram⟩] } }

def wRam : Device := ⟨0x1000, 0x4000, true, true, true, .ram⟩

theorem wf_wMu : Memory.wf wMu := by decide

theorem wf_wCsr : Cells.wf 0 (wState 0x1000 0).core.csr.extra := by decide

/-- Reaches the last byte, halfword and word of the arena. -/
theorem witness_Reaches :
    Reaches (wState 0x1000 0x3FFF) (effectiveAddr 0x3FFF 0) .byte wRam ∧
    Reaches (wState 0x1000 0x3FFE) (effectiveAddr 0x3FFE 0) .halfword wRam ∧
    Reaches (wState 0x1000 0x3FFC) (effectiveAddr 0x3FFC 0) .word wRam := by
  refine ⟨⟨?_, ?_, ?_, ?_⟩, ⟨?_, ?_, ?_, ?_⟩, ⟨?_, ?_, ?_, ?_⟩⟩ <;> decide

theorem witness_ResetCores : (State.boot wCfg).cores[0]? = some (Core.reset 0 0x1000) := rfl

theorem witness_RegisterZero : (31 : RegIdx) ≠ 0 ∧ (0 : RegIdx) ≠ 31 := by decide

theorem witness_OnlyWritebackAndExitWriteRegisters :
    (∃ t, (wAt .writeback { Decoded.reset with writeRd := true, rd := 5, aluOut := 7 }).stageStep =
      .next t ∧ t.core.x 5 = 7 ∧ (wState 0x1000 0).core.x 5 = 0) ∧
    (∃ t, (wTrap .exit).stageStep = .next t ∧ t.core.x 5 = 9 ∧ (wTrap .exit).core.x 5 = 0) :=
  ⟨⟨_, rfl, by decide, by decide⟩, ⟨_, rfl, by decide, by decide⟩⟩

/-- Out of bounds by one byte at each end, and past 2^32; a byte without READ; the last bytes of the
arena. -/
theorem witness_MemoryRead :
    ¬InBounds wMu 0x0FFF 1 ∧ ¬InBounds wMu 0x3FFC 5 ∧
    ¬InBounds { wMu with size := 2 ^ 33 } (2 ^ 32 - 1) 2 ∧
    InBounds wMu 0x3FFC 4 ∧ Permitted wMu .read 0x3FFC 4 ∧
    InBounds wMu 0x3FFB 5 ∧ ¬Permitted wMu .read 0x3FFB 5 := by
  unfold Permitted; decide

theorem witness_MemoryWrite :
    Memory.wf wMu ∧ ¬InBounds wMu 0x0FFF 1 ∧
    InBounds wMu 0x3FFB 5 ∧ Permitted wMu .write 0x3FFB 5 ∧
    InBounds wMu 0x1FFF 2 ∧ ¬Permitted wMu .write 0x1FFF 2 := by
  refine ⟨wf_wMu, ?_⟩
  unfold Permitted
  decide

/-- A write that ends at the arena's end, of one RAW byte and four readable ones; a RAW byte that was
not readable, inside and outside a range. -/
theorem witness_RawPromotion :
    Memory.wf wMu ∧ (∃ mu', wMu.write wCfg 0x3FFB [1, 2, 3, 4, 5] = .ok mu') ∧
    (∀ k, k < 5 →
      (wMu.permAt (0x3FFB + k)).read = true ∨ (wMu.permAt (0x3FFB + k)).raw = true) ∧
    (0x3FFA ≤ 0x3FFA ∧ 0x3FFA < 0x3FFA + 2 ∧ (wMu.permAt 0x3FFA).read = false ∧
      (0x3FFA < 0x3FFB ∨ 0x3FFB + 5 ≤ 0x3FFA)) := by
  refine ⟨wf_wMu, ⟨_, rfl⟩, ?_, ?_⟩ <;> decide

theorem witness_AddMemory :
    Memory.wf wMu ∧ 0x0FFF < wMu.base ∧ wCfg.memLimit < 2 ^ 32 - 1 + 2 ∧
    2 ^ 32 < 2 ^ 32 - 1 + 2 ∧ (wMu.base ≤ 0x1000 ∧ 2 ^ 32 - 2 + 2 ≤ wCfg.memLimit ∧
      2 ^ 32 - 2 + 2 ≤ 2 ^ 32) := by
  refine ⟨wf_wMu, ?_⟩; decide

/-- A block that ends at the arena's end, and one that is 16 bytes too long. -/
theorem witness_AllocateAndSetPerm :
    Memory.wf wMu ∧ (0x1000 % 16 = 0 ∧ 0xFF1 ≤ 0x1000 ∧ 0x1000 < 0xFF1 + 16) ∧
    wMu.currVaddr + 0x1000 ≤ wMu.base + wMu.size ∧
    (0x1010 % 16 = 0 ∧ 0x1001 ≤ 0x1010 ∧ 0x1010 < 0x1001 + 16) ∧
    wMu.base + wMu.size < wMu.currVaddr + 0x1010 ∧ wMu.currVaddr + 0x1000 ≤ 2 ^ 32 ∧
    InBounds wMu 0x3FFF 1 ∧ ¬InBounds wMu 0x3FFF 2 := by
  refine ⟨wf_wMu, ?_⟩; decide

/-- One address for each clause of the bus rules: misaligned, no device, no rule, beyond the arena,
not readable, read-only, and the arena's last word. -/
theorem witness_BusOrder :
    (0x3FFE : Word).toNat % Width.word.bytes ≠ 0 ∧ findDevice wCfg 0x5000 = none ∧
    (∃ dev, findDevice wCfg 0xA0FC = some dev ∧ dev.kind.memoryBacked = false ∧
      dev.writeFlag = true) ∧
    (findDevice wCfg 0x4000 = some wRam ∧
      ¬InBounds wMu (wMu.base + (0x4000 - wRam.base)) 4) ∧
    (findDevice wCfg 0x2000 = some wRam ∧ wRam.kind.memoryBacked = true ∧
      ¬Permitted wMu .read 0x2000 4 ∧ ¬Permitted wMu .write 0x2000 4) ∧
    (∃ dev, findDevice wCfg 0x8000 = some dev ∧ dev.writeFlag = false) ∧
    (findDevice wCfg 0x3FFC = some wRam ∧ wRam.writeFlag = true ∧
      Permitted wMu .read 0x3FFC 4 ∧ Permitted wMu .write 0x3FFC 4) := by
  unfold Permitted
  exact ⟨by decide, by decide, ⟨_, rfl, rfl, rfl⟩, by decide, by decide, ⟨_, rfl, rfl⟩, by decide⟩

/-- Reads and writes of several units: past the device but in the arena, past 2^32, past the arena,
with a byte that is denied, and the arena's last word, halfword by halfword. -/
theorem witness_BusOrderMulti :
    (findDevice wShort.cfg 0x1000 = some ⟨0x1000, 4, true, true, true, .ram⟩ ∧
      ¬(0x1000 + 2 * Width.word.bytes ≤ 0x1000 + 4) ∧
      0x1000 + 2 * Width.word.bytes ≤ wMu.base + wMu.size) ∧
    ¬((0xFFFFFFFC : Word).toNat + 2 * Width.word.bytes ≤ 2 ^ 32) ∧
    ¬InBounds wMu (wMu.base + (0x3FFC - wRam.base)) (2 * Width.word.bytes) ∧
    (findDevice wCfg 0x3FF8 = some wRam ∧ ¬Permitted wMu .read 0x3FF8 (2 * Width.word.bytes)) ∧
    (findDevice wCfg 0x1FFE = some wRam ∧
      ¬Permitted wMu .write 0x1FFE (2 * Width.halfword.bytes)) ∧
    (0x3FFC + 2 * Width.halfword.bytes ≤ wRam.base + wRam.size ∧
      Permitted wMu .read 0x3FFC (2 * Width.halfword.bytes) ∧
      Permitted wMu .write 0x3FFC (2 * Width.halfword.bytes)) := by
  unfold Permitted
  decide

theorem witness_DecodeEncode :
    (Instr.jal 31 (-1048576)).wf = true ∧ (Instr.beq 31 31 4094).wf = true ∧
    (Instr.csrrci 31 0xFFF 31).wf = true := by decide

theorem witness_EncodeDecode : decodeWord 0xFE731CE3 = .ok (.bne 6 7 (-8)) := by decide

theorem witness_LoadsComplete :
    Reaches (wState 0x1000 0x3FFF) (effectiveAddr ((wState 0x1000 0x3FFF).core.x 6) 0) .byte wRam ∧
    Permitted wMu .read 0x3FFF 1 ∧
    Reaches (wState 0x1000 0x3FFE) (effectiveAddr ((wState 0x1000 0x3FFE).core.x 6) 0) .halfword
      wRam ∧ Permitted wMu .read 0x3FFE 2 ∧
    Reaches (wState 0x1000 0x3FFC) (effectiveAddr ((wState 0x1000 0x3FFC).core.x 6) 0) .word wRam ∧
    Permitted wMu .read 0x3FFC 4 :=
  ⟨witness_Reaches.1, by unfold Permitted; decide, witness_Reaches.2.1,
    by unfold Permitted; decide, witness_Reaches.2.2, by unfold Permitted; decide⟩

/-- The clauses of `LoadsTrap`, each at an address of its own. -/
theorem witness_LoadsTrap :
    loadOf (.lw 5 6 0) = some (6, 0, .word) ∧ loadOf (.lhu 5 6 0) = some (6, 0, .halfword) ∧
    (effectiveAddr 0x3FFD 0).toNat % Width.halfword.bytes ≠ 0 ∧
    findDevice wCfg (effectiveAddr 0x0FFC 0) = none ∧
    (∃ dev, findDevice wCfg (effectiveAddr 0xA000 0) = some dev ∧
      dev.kind.memoryBacked = false) ∧
    (findDevice wCfg (effectiveAddr 0x3FF8 0) = some wRam ∧ ¬Permitted wMu .read 0x3FF8 4) := by
  unfold Permitted
  exact ⟨rfl, rfl, by decide, by decide, ⟨_, rfl, rfl⟩, by decide⟩

theorem witness_StoresComplete :
    Memory.wf (wState 0x1000 0x3FFF).mu ∧ wRam.writeFlag = true ∧
    Reaches (wState 0x1000 0x3FFF) (effectiveAddr ((wState 0x1000 0x3FFF).core.x 6) 0) .byte wRam ∧
    Permitted wMu .write 0x3FFF 1 ∧
    Reaches (wState 0x1000 0x3FFE) (effectiveAddr ((wState 0x1000 0x3FFE).core.x 6) 0) .halfword
      wRam ∧ Permitted wMu .write 0x3FFE 2 ∧
    Reaches (wState 0x1000 0x3FFC) (effectiveAddr ((wState 0x1000 0x3FFC).core.x 6) 0) .word wRam ∧
    Permitted wMu .write 0x3FFC 4 :=
  ⟨wf_wMu, rfl, witness_Reaches.1, by unfold Permitted; decide, witness_Reaches.2.1,
    by unfold Permitted; decide, witness_Reaches.2.2, by unfold Permitted; decide⟩

theorem witness_StoresTrap :
    storeOf (.sw 7 6 0) = some (6, 0, .word) ∧
    (effectiveAddr 0x3FFE 0).toNat % Width.word.bytes ≠ 0 ∧
    findDevice wCfg (effectiveAddr 0x5000 0) = none ∧
    (∃ dev, findDevice wCfg (effectiveAddr 0x8FFC 0) = some dev ∧ dev.writeFlag = false) ∧
    (∃ dev, findDevice wCfg (effectiveAddr 0xA0FC 0) = some dev ∧ dev.writeFlag = true ∧
      dev.kind.memoryBacked = false) ∧
    (findDevice wCfg (effectiveAddr 0x1000 0) = some wRam ∧ ¬Permitted wMu .write 0x1000 4) := by
  unfold Permitted
  exact ⟨rfl, by decide, by decide, ⟨_, rfl, rfl⟩, ⟨_, rfl, rfl, rfl⟩, by decide⟩

theorem witness_StoreThenLoad :
    Memory.wf (wState 0x1000 0x3FFC).mu ∧ wRam.writeFlag = true ∧
    Reaches (wState 0x1000 0x3FFC) (effectiveAddr ((wState 0x1000 0x3FFC).core.x 6) 0) .word wRam ∧
    Permitted wMu .write 0x3FFC 4 ∧
    (∀ k, k < 4 → (wMu.permAt (0x3FFC + k)).read = true ∨ (wMu.permAt (0x3FFC + k)).raw = true) ∧
    (nextOf (exec (.sw 7 6 0) (wState 0x1000 0x3FFC))).isSome = true :=
  ⟨wf_wMu, rfl, witness_Reaches.2.2, by unfold Permitted; decide, by decide, by decide +kernel⟩

theorem witness_CsrForms :
    Cells.wf 0 (wState 0x1000 0).core.csr.extra ∧
    implementsCsr (wState 0x1000 0).cfg 0x341 = true ∧
    implementsCsr (wState 0x1000 0).cfg 0x344 = true :=
  ⟨wf_wCsr, by decide, by decide⟩

theorem witness_CsrUnimplemented :
    csrAddrOf (.csrrsi 5 0x343 0) = some 0x343 ∧ (0x343 : CsrAddr) ∉ wCfg.csrSet ∧
    (0x343 : CsrAddr) ≠ 0x341 ∧ (0x343 : CsrAddr) ≠ 0x342 := by decide

theorem aboutToFetch_wState (pc a : Word) : AboutToFetch (wState pc a) := ⟨rfl, rfl, rfl⟩

/-- The machine with two words in its queue. -/
def wQueued (w : Word) : State :=
  { wState 0x1000 0 with core := { (wState 0x1000 0).core with prefetch := [w, 0x13] } }

theorem witness_StepRunsQueued :
    AboutToFetch (wQueued 0x073) ∧ (wQueued 0x073).core.prefetch = 0x073 :: [0x13] ∧
    decodeWord 0x073 = .ok .ecall :=
  ⟨⟨rfl, rfl, rfl⟩, rfl, by decide⟩

/-- The first word of the arena, which is all its code. -/
theorem witness_StepRunsFetched :
    AboutToFetch (wState 0x1000 0) ∧ (wState 0x1000 0).core.prefetch = [] ∧
    Reaches (wState 0x1000 0) 0x1000 .word wRam ∧
    FetchWindow (wState 0x1000 0) wRam ∧
    decodeBytes [wMu.byteAt 0x1000, wMu.byteAt 0x1001, wMu.byteAt 0x1002, wMu.byteAt 0x1003] =
      .ok (.addi 0 0 0, []) := by
  refine ⟨aboutToFetch_wState _ _, rfl, ⟨?_, ?_, ?_, ?_⟩, ⟨?_, ?_, ?_, ?_, ?_, fun _ => ?_⟩, ?_⟩ <;>
    (try unfold Permitted) <;> decide

/-- A refill that runs past its device fails, and one that lies in it does not (R151, U18). -/
theorem test_refill_in_one_device :
    fetchRefill { wShort.cfg with prefetchMore := 0 } wMu 0x1000 = .ok [0x13] ∧
    fetchRefill wShort.cfg wMu 0x1000 = .fail .deviceFailure ∧
    findDevice wShort.cfg 0x1000 = some ⟨0x1000, 4, true, true, true, .ram⟩ := by decide

/-- A fetch through a device whose base is not the arena's fails, where its alias could be fetched
(R357). -/
theorem test_fetch_needs_arena_base :
    let cfg := { wShort.cfg with prefetchMore := 0, devices := [⟨0xFFC, 4, true, true, true, .ram⟩] }
    fetchRefill cfg wMu 0xFFC = .fail .deviceFailure ∧
    memRead cfg wMu 0xFFC .word = .ok 0x13 := by decide

/-- A range past 2^32 is out of bounds, whatever the arena and `MEM_LIMIT` (R70). -/
theorem test_past_address_space :
    let mu := { wMu with size := 2 ^ 33, currVaddr := 2 ^ 32 - 16 }
    let cfg := { wCfg with memLimit := 2 ^ 33 }
    (mu.setPerm (2 ^ 32 - 1) 2 rw).1 = false ∧ (mu.setPerm (2 ^ 32 - 1) 1 rw).1 = true ∧
    (mu.addMemory cfg (2 ^ 32 - 1) 2 rw).1 = false ∧ (mu.allocate 17 rw).1 = none ∧
    (mu.allocate 16 rw).1 = some (2 ^ 32 - 16) := by decide

/-- Misaligned; no device; no rule; one word beyond the code; a window past its device. -/
theorem witness_FetchTraps :
    AboutToFetch (wState 0x1001 0) ∧ (0x1001 : Word).toNat % 4 ≠ 0 ∧
    findDevice wCfg 0x7FFC = none ∧
    (∃ dev, findDevice wCfg 0xA000 = some dev ∧ dev.kind.memoryBacked = false) ∧
    findDevice wCfg 0x1004 = some wRam ∧ wRam.kind.memoryBacked = true ∧
    ¬FetchWindow (wState 0x1004 0) wRam ∧
    AboutToFetch wShort ∧ ¬FetchWindow wShort ⟨0x1000, 4, true, true, true, .ram⟩ := by
  have h1 : ¬Permitted (wState 0x1004 0).mu .read (deviceAddr (wState 0x1004 0).mu wRam 0x1004)
      (4 * wCfg.prefetchDepth) := by unfold Permitted; decide
  exact ⟨aboutToFetch_wState _ _, by decide, by decide, ⟨_, rfl, rfl⟩, by decide, rfl,
    fun h => h1 h.readable, ⟨rfl, rfl, rfl⟩, fun h => absurd h.inDevice (by decide)⟩

theorem witness_EveryWordRunsOrTraps :
    AboutToFetch (wQueued 0) ∧ (wQueued 0).core.prefetch = 0 :: [0x13] ∧
    decodeWord 0 = .error .unknownOpcode ∧ decodeWord 0x13 = .ok (.addi 0 0 0) :=
  ⟨⟨rfl, rfl, rfl⟩, rfl, by decide, by decide⟩

/-- A stage that goes on and one that raises. -/
theorem witness_StageWrapper :
    (∃ t, (wQueued 0x13).stageStep = .next t ∧ t.core.stage = .decode) ∧
    (∃ t, (wAt .decode Decoded.reset).stageStep = .next t ∧ t.core.stage = .trap) :=
  ⟨⟨_, rfl, rfl⟩, ⟨_, rfl, by decide⟩⟩

theorem witness_DecodeStage :
    (wAt .decode { Decoded.reset with ir := 0x13 }).core.stage = .decode ∧
    typeTable ((0x13 : Word).extractLsb' 0 7) ≠ .Unknown ∧
    typeTable ((0 : Word).extractLsb' 0 7) = .Unknown := by decide

/-- A record that loads, or stores, or does neither. -/
def wAccess (r w : Bool) (a : Word) : State :=
  wAt .memory { Decoded.reset with readMem := r, writeMem := w, memOffset := a, memWidth := .word }

theorem witness_MemoryStage :
    (∃ d, executeBlock (.sw 7 6 0) wCfg (wAt .execute Decoded.reset).core = .done d) ∧
    (wAccess true false 0x3FFC).core.stage = .memory ∧
    memRead wCfg wMu 0x3FFC .word = .ok 0xFF008000 ∧
    memRead wCfg wMu 0x3FFD .word = .fail .readMisaligned ∧
    memRead wCfg wMu 0x2000 .word = .fail .accessDenied ∧
    (∃ mu, memWrite wCfg wMu 0x3FFC .word 0 = .ok mu) ∧
    memWrite wCfg wMu 0x3FFD .word 0 = .fail .writeMisaligned ∧
    memWrite wCfg wMu 0x4000 .word 0 = .fail .deviceFailure ∧
    (wAccess false false 0).core.d.readMem = false ∧
    (wAccess false false 0).core.d.writeMem = false :=
  ⟨⟨_, rfl⟩, rfl, by decide, by decide, by decide, ⟨_, rfl⟩, by decide, by decide, rfl, rfl⟩

theorem witness_WritebackStage :
    Cells.wf 0 (wAt .writeback Decoded.reset).core.csr.extra ∧
    (wAt .writeback Decoded.reset).core.stage = .writeback := ⟨wf_wCsr, rfl⟩

theorem witness_TrapStates :
    ((wTrap .enter).core.stage = .trap ∧ (wTrap .enter).core.trapState = .enter) ∧
    ((wTrap .exit).core.stage = .trap ∧ (wTrap .exit).core.trapState = .exit) := by decide

/-- The machine in HANDLE, with the handler that answers so. -/
def wHandle (continue_ : Bool) (a0 : Option Word) : State :=
  { wTrap .handle with handler := .script [.answer continue_ a0] }

theorem witness_HandleAnswer (continue_ : Bool) (a0 : Option Word) :
    (wHandle continue_ a0).core.stage = .trap ∧ (wHandle continue_ a0).core.trapState = .handle ∧
    (wHandle continue_ a0).handler.next (wHandle continue_ a0).core.view (wHandle continue_ a0).mu
      (wHandle continue_ a0).core.hostResults = (.answer continue_ a0, .script []) :=
  ⟨rfl, rfl, rfl⟩

/-- Operations of the host: a write that is done, one that fails, and one on a device with no rule. -/
theorem witness_HandleOperation (o : HostOp) :
    (State.handler { wTrap .handle with handler := .script [.op o] }).next
      (wTrap .handle).core.view wMu [] = (.op o, .script []) ∧
    (∃ mu, hostOp wCfg wMu (.writeSingle 0x3FFC .byte 1) = .ok (mu, .written)) ∧
    hostOp wCfg wMu (.setPerm 0x3FFF 2 rw) = .ok (wMu, .done false) ∧
    (∃ mu, hostOp wCfg wMu (.allocate 16 rw) = .ok (mu, .block (some 0x3000))) ∧
    hostOp wCfg wMu (.readSingle 0xA000 .byte) = .error .video :=
  ⟨rfl, ⟨_, rfl⟩, rfl, ⟨_, rfl⟩, rfl⟩

/-- A machine whose handler continues after every trap. -/
def wContinue (pc : Word) : State :=
  { wState pc 0 with handler := .script [.answer true none] }

theorem witness_EcallRoundTrip :
    (wContinue 0x1000).schedule = [] ∧ (wContinue 0x1000).core.halted = false ∧
    ∃ t, exec .ecall (wContinue 0x1000) = .next t ∧
      (wContinue 0x1000).handler.next t.core.view wMu [] = (.answer true none, .script []) :=
  ⟨rfl, rfl, _, rfl, rfl⟩

theorem witness_MisalignedFetchRepeats :
    AboutToFetch (wContinue 0x1002) ∧ (wContinue 0x1002).core.prefetch = [] ∧
    (0x1002 : Word).toNat % 4 ≠ 0 ∧
    ∃ t, step (wContinue 0x1002) = .next t ∧
      (wContinue 0x1002).handler.next t.core.view wMu [] = (.answer true none, .script []) :=
  ⟨⟨rfl, rfl, rfl⟩, rfl, by decide, _, rfl, rfl⟩

/-- A machine of three cores: core 0 halted, core 1 about to fetch, core 2 at reset. -/
def wCores : State :=
  { wState 0x1000 0 with
    core := { (wTrap .handle).core with halted := true }
    upper := [Core.reset 1 0x1000, Core.reset 2 0x1000] }

/-- An answer of false halts a core that was not halted. -/
theorem witness_HaltedCoreStays :
    ∃ t, (wHandle false none).stageStep = .next t ∧ (wHandle false none).core.halted = false ∧
      t.core.halted = true := ⟨_, rfl, rfl, rfl⟩

theorem witness_SeveralCores :
    (∃ t, step wCores = .next t) ∧
    (∃ c, wCores.cores[0]? = some c ∧ c.halted = true) ∧
    (∃ t, wCores.turn 2 = .next t) ∧ (∃ t, State.turn 0 wCores = .next t) :=
  ⟨⟨_, rfl⟩, ⟨_, rfl, rfl⟩, ⟨_, rfl⟩, ⟨_, rfl⟩⟩

theorem witness_TurnSeesOwnCoreOnly :
    wCores.cores[1]? = some (Core.reset 1 0x1000) ∧
    (State.cores { wCores with core := (wTrap .exit).core })[1]? = some (Core.reset 1 0x1000) ∧
    ∃ t, wCores.turn 1 = .next t := ⟨rfl, rfl, _, rfl⟩

/-- A store and a host's write that change memory. -/
theorem witness_OnlyStoresAndHandlerWriteMemory :
    ((nextOf (wAccess false true 0x3FFC).stageStep).map fun t => decide (t.mu ≠ wMu)) = some true ∧
    ((nextOf (State.stageStep { wTrap .handle with
      handler := .script [.op (.writeSingle 0x3FFC .byte 1)] })).map fun t =>
        decide (t.mu ≠ wMu)) = some true := by
  decide +kernel

/-- A CSR instruction's WRITEBACK changes a CSR, and so does ENTER. -/
theorem witness_WhoWritesCsrs :
    ((nextOf (wAt .writeback { Decoded.reset with
      csrWrite := true, csr := 0x300, csrNew := 3 }).stageStep).map fun t =>
        t.core.csr.read 0x300) = some 3 ∧
    ((nextOf (State.stageStep { wState 0x1000 0 with core := { (wState 0x1000 0).core with
      stage := .trap, trapState := .enter } })).map fun t => t.core.csr.read 0x341) =
        some 0x1000 := by
  decide +kernel

theorem witness_StepNeverStuck :
    DevicesBacked Config.platform ∧ (State.reset.core.halted = false) ∧
    (∀ c ∈ (State.cores { wState 0x1000 0 with
      core := { (wTrap .handle).core with halted := true } }), c.halted = true) := by
  unfold DevicesBacked
  decide

theorem witness_StepIsStageTurns :
    (wState 0x1000 0).schedule = [] ∧ ∃ t, step (wState 0x1000 0) = .next t := ⟨rfl, _, rfl⟩

/-- A state of a run that is not the reset state has the invariant: the core of `wQueued` after its
FETCH, and the memory of `wState`. -/
theorem witness_StepKeepsInv :
    State.Inv { wState 0x1000 0 with core := { (wState 0x1000 0).core with stage := .decode } } ∧
    ∃ t, step { wState 0x1000 0 with core := { (wState 0x1000 0).core with stage := .decode } } =
      .next t := by
  refine ⟨⟨⟨wf_wMu, by decide, by decide⟩, fun k c hc => ?_⟩, _, rfl⟩
  cases k with
  | zero =>
    cases hc
    refine ⟨rfl, by decide, by decide, by decide, ⟨by decide, fun e he => nomatch he⟩, by decide,
      fun h => ?_, fun h => ?_, fun h => ?_⟩
    · rcases h with h | h <;> cases h
    · rcases h with h | h | h <;> cases h
    · rcases h with h | h <;> cases h
  | succ k => cases hc

/-- The canonical form holds right after reset. -/
theorem test_reset_memory_wf : Memory.wf State.reset.mu := wf_init _

end Sys2Proof.Tests
end

section
/-! What a stage step does to the general registers (10_state.md R23), from the case list
`StageMove`. -/

namespace Sys2Proof.Machine

theorem Core.setX_zero (c : Core) (v : Word) : c.setX 0 v = c := if_pos rfl

theorem Core.x_setX_of_ne_zero (c : Core) {i : RegIdx} (hi : i ≠ 0) (r : RegIdx) (v : Word) :
    (c.setX i v).x r = if r = i then v else c.x r := by
  have hiff : (r = i ∧ r ≠ 0) ↔ r = i := and_iff_left_of_imp fun h => h ▸ hi
  rw [Core.x_setX]
  exact if_congr hiff rfl rfl

theorem writebackStage_x (s : State) (r : RegIdx) :
    s.writebackStage.core.x r =
      if s.core.d.writeRd = true ∧ r = s.core.d.rd ∧ r ≠ 0 then s.core.d.aluOut else s.core.x r :=
  (Core.x_congr (c := s.core.commitCsr.commitRd.commitPc) (by simp) r).trans (writeback_x s.core r)

/-- A stage step is a WRITEBACK, or an EXIT, or it keeps the register storage. -/
theorem StageMove.regs_cases {s t : State} (h : StageMove s t) :
    (s.core.stage = .writeback ∧ t = s.writebackStage) ∨
    (s.core.stage = .trap ∧ s.core.trapState = .exit ∧ t = s.exitTrap) ∨
    t.core.regs = s.core.regs := by
  cases h with
  | wroteBack hs => exact .inl ⟨hs, rfl⟩
  | exited hs ht => exact .inr (.inl ⟨hs, ht, rfl⟩)
  | decoded _ => unfold State.decodeStage; split <;> exact .inr (.inr rfl)
  | executed _ => unfold State.executeStage; split <;> exact .inr (.inr rfl)
  | _ => exact .inr (.inr rfl)

/-- Settles O4. Register 0 always reads 0, so it never changes. Another register changes only in a
WRITEBACK or an EXIT (`StageMove.regs_cases`), which write what `writebackStage_x` and `exitTrap_x`
say. -/
theorem onlyWritebackAndExitWriteRegisters :
    Obligations.OnlyWritebackAndExitWriteRegisters := by
  refine ⟨fun c v => ⟨c.setX_zero v, fun i r hi => c.x_setX_of_ne_zero hi r v⟩, ?_⟩
  intro s t r hstep hchanged
  have hr : r ≠ 0 := by
    rintro rfl
    exact hchanged rfl
  refine ⟨hr, ?_⟩
  obtain ⟨hs, rfl⟩ | ⟨hs, ht, rfl⟩ | hregs := (stageMove hstep).regs_cases
  · rw [writebackStage_x] at hchanged ⊢
    obtain ⟨⟨hwrite, hrd, -⟩, -⟩ := ite_ne_right_iff.mp hchanged
    exact .inl ⟨hs, hwrite, hrd, if_pos ⟨hwrite, hrd, hr⟩⟩
  · exact .inr ⟨hs, ht, exitTrap_x s hr⟩
  · exact absurd (Core.x_congr hregs r) hchanged

end Sys2Proof.Machine
end

section
/-! The stages of a core: the stage wrapper (40_pipeline_stages.md R172), MEMORY (R165, R166) and
WRITEBACK (R170), from the case list `StageMove` and the laws of the shared operations. -/

namespace Sys2Proof.Machine

/-! ### The stage wrapper (R172) -/

/-- Settles O42. A stage outside TRAP ends in `State.advance`, which goes to the next stage, or in
`State.raise`, which goes to ENTER; both count one cycle. -/
theorem stageWrapper : Obligations.StageWrapper := by
  intro s t hnt hstep
  cases stageMove hstep with
  | fetchQueued _ _ hs _ => exact ⟨rfl, .inr ⟨rfl, .inl ⟨hs, rfl⟩⟩⟩
  | fetchRefilled _ hs _ _ => exact ⟨rfl, .inr ⟨rfl, .inl ⟨hs, rfl⟩⟩⟩
  | decoded hs =>
    unfold State.decodeStage
    split
    · exact ⟨rfl, .inl ⟨rfl, rfl⟩⟩
    · exact ⟨rfl, .inr ⟨rfl, .inr (.inl ⟨hs, rfl⟩)⟩⟩
  | executed hs =>
    unfold State.executeStage
    split
    · exact ⟨rfl, .inr ⟨rfl, .inr (.inr (.inl ⟨hs, rfl⟩))⟩⟩
    · exact ⟨rfl, .inl ⟨rfl, rfl⟩⟩
  | loaded _ hs _ _ => exact ⟨rfl, .inr ⟨rfl, .inr (.inr (.inr (.inl ⟨hs, rfl⟩)))⟩⟩
  | stored _ hs _ _ _ => exact ⟨rfl, .inr ⟨rfl, .inr (.inr (.inr (.inl ⟨hs, rfl⟩)))⟩⟩
  | noAccess hs _ _ => exact ⟨rfl, .inr ⟨rfl, .inr (.inr (.inr (.inl ⟨hs, rfl⟩)))⟩⟩
  | wroteBack hs =>
    exact ⟨by simp, .inr ⟨by simp, .inr (.inr (.inr (.inr ⟨hs, rfl⟩)))⟩⟩
  | fetchFailed | loadFailed | storeFailed => exact ⟨rfl, .inl ⟨rfl, rfl⟩⟩
  | entered hs | answered _ _ _ hs | hostActed _ _ _ _ hs | exited hs => exact absurd hs hnt

/-! ### MEMORY (R165, R166) -/

theorem csrAccess_asks_nothing {cfg : Config} {c : Core} {a : CsrAddr} {writes : Bool}
    {f : Word → Word} {d : Decoded} (h : csrAccess cfg c a writes f = .done d) :
    d.readMem = false ∧ d.writeMem = false := by
  unfold csrAccess at h
  split at h
  · cases h
    exact ⟨rfl, rfl⟩
  · cases h

/-- The loads ask for a read, the stores for a write, and no other instruction for an access. -/
theorem executeBlock_asks {i : Instr} {cfg : Config} {c : Core} {d : Decoded}
    (h : executeBlock i cfg c = .done d) :
    d.readMem = (loadOf i).isSome ∧ d.writeMem = (storeOf i).isSome := by
  cases i with
  | csrrw | csrrs | csrrc | csrrwi | csrrsi | csrrci =>
    simp only [executeBlock, xCsrrw, xCsrrs, xCsrrc, xCsrrwi, xCsrrsi, xCsrrci] at h
    exact csrAccess_asks_nothing h
  | ecall => cases h
  | _ =>
    cases h
    exact ⟨rfl, rfl⟩

theorem not_loadOf_and_storeOf (i : Instr) : ((loadOf i).isSome && (storeOf i).isSome) = false := by
  cases i <;> rfl

theorem loadCause_eq (st : BusStatus) :
    loadCause st = if st = .readMisaligned then .loadAddrMisaligned else .loadAccessFault := by
  cases st <;> rfl

theorem storeCause_eq (st : BusStatus) :
    storeCause st = if st = .writeMisaligned then .storeAddrMisaligned else .storeAccessFault := by
  cases st <;> rfl

theorem extendLoaded_eq (signed : Bool) (w : Width) (v : Word) :
    extendLoaded signed w v =
      if signed then (v.setWidth (8 * w.bytes)).signExtend 32
      else (v.setWidth (8 * w.bytes)).setWidth 32 := by
  cases w with
  | byte | halfword => rfl
  | word => simp [extendLoaded, Width.bytes]

theorem memoryDone_advance (s : State) (mu : MemoryUnit) (d : Decoded) :
    MemoryDone s ({ s with mu := mu }.advance { s.core with d := d } .writeback) mu d :=
  ⟨⟨rfl, rfl, rfl, rfl, rfl⟩, rfl, rfl⟩

theorem memoryRaised_raise (s : State) (e : Cause) : MemoryRaised s (s.raise e) e where
  others := ⟨rfl, rfl, rfl, rfl, rfl⟩
  mu := rfl
  core := rfl
  mepc := CsrFile.read_write_trap s.core.csr s.core.pc e.code 0x341

section
variable {s : State} (hs : s.core.stage = .memory)
include hs

theorem stageStep_loaded (hr : s.core.d.readMem = true) {v : Word}
    (hv : memRead s.cfg s.mu s.core.d.memOffset s.core.d.memWidth = .ok v) :
    s.stageStep = .next (s.advance { s.core with d := { s.core.d with
      aluOut := extendLoaded s.core.d.memSigned s.core.d.memWidth v } } .writeback) := by
  simp [stageStep_memory hs, State.memoryStage, hr, hv]

theorem stageStep_loadFailed (hr : s.core.d.readMem = true) {st : BusStatus}
    (hv : memRead s.cfg s.mu s.core.d.memOffset s.core.d.memWidth = .fail st) :
    s.stageStep = .next (s.raise (loadCause st)) := by
  simp [stageStep_memory hs, State.memoryStage, hr, hv]

theorem stageStep_stored (hr : s.core.d.readMem = false) (hw : s.core.d.writeMem = true)
    {mu : MemoryUnit}
    (hv : memWrite s.cfg s.mu s.core.d.memOffset s.core.d.memWidth s.core.d.aluOut = .ok mu) :
    s.stageStep = .next ({ s with mu := mu }.advance s.core .writeback) := by
  simp [stageStep_memory hs, State.memoryStage, hr, hw, hv]

theorem stageStep_storeFailed (hr : s.core.d.readMem = false) (hw : s.core.d.writeMem = true)
    {st : BusStatus}
    (hv : memWrite s.cfg s.mu s.core.d.memOffset s.core.d.memWidth s.core.d.aluOut = .fail st) :
    s.stageStep = .next (s.raise (storeCause st)) := by
  simp [stageStep_memory hs, State.memoryStage, hr, hw, hv]

theorem stageStep_noAccess (hr : s.core.d.readMem = false) (hw : s.core.d.writeMem = false) :
    s.stageStep = .next (s.advance s.core .writeback) := by
  simp [stageStep_memory hs, State.memoryStage, hr, hw]

end

/-- Settles O44. An instruction is a load, a store or neither (`executeBlock_asks`); a MEMORY stage ends
as the answer of its one access says. -/
theorem memoryStage : Obligations.MemoryStage := by
  refine ⟨fun i cfg c d h => ?_, fun s hs => ⟨fun hr => ⟨fun v hv => ?_, fun st hv => ?_⟩,
    fun hr hw => ⟨fun mu hv => ?_, fun st hv => ?_⟩, fun hr hw => ?_⟩⟩
  · obtain ⟨hread, hwrite⟩ := executeBlock_asks h
    rw [hread, hwrite, not_loadOf_and_storeOf]
  · rw [← extendLoaded_eq]
    exact ⟨_, stageStep_loaded hs hr hv, memoryDone_advance s s.mu _⟩
  · rw [← loadCause_eq]
    exact ⟨_, stageStep_loadFailed hs hr hv, memoryRaised_raise s _⟩
  · exact ⟨_, stageStep_stored hs hr hw hv, memoryDone_advance s mu s.core.d⟩
  · rw [← storeCause_eq]
    exact ⟨_, stageStep_storeFailed hs hr hw hv, memoryRaised_raise s _⟩
  · exact ⟨_, stageStep_noAccess hs hr hw, memoryDone_advance s s.mu s.core.d⟩

/-! ### WRITEBACK (R170) -/

theorem writebackStage_csr_read (s : State) (hwf : Cells.wf 0 s.core.csr.extra) (a : CsrAddr) :
    s.writebackStage.core.csr.read a =
      if s.core.d.csrWrite = true ∧ a = s.core.d.csr then s.core.d.csrNew
      else s.core.csr.read a := by
  have hcsr : s.writebackStage.core.csr =
      if s.core.d.csrWrite then s.core.csr.write s.core.d.csr s.core.d.csrNew else s.core.csr :=
    writeback_csr s.core
  rw [hcsr]
  by_cases hw : s.core.d.csrWrite = true
  · simp only [hw, if_true, true_and]
    exact CsrFile.read_write hwf _ _ _
  · simp [hw]

/-- Settles O45. What WRITEBACK writes is said by one law for each of the four, and the fields it keeps
by those of the three commits. -/
theorem writebackStage : Obligations.WritebackStage := by
  intro s hwf hs
  exact ⟨_, stageStep_writeback hs, rfl, rfl, ⟨rfl, rfl, rfl, rfl, rfl⟩,
    writebackStage_csr_read s hwf, writebackStage_x s, writeback_pc s.core,
    writeback_prefetch s.core, by simp, by simp, by simp, by simp, by simp⟩

end Sys2Proof.Machine
end

section
/-! What a step never touches beside the current core, and which core a step can change: a halted one
never (40_pipeline_stages.md R174, R175). -/

namespace Sys2Proof.Machine

/-! ### What a step of the current core keeps -/

/-- The parameters, the other cores, the schedule and the number of the current core are as before. -/
structure BesidesKept (s t : State) : Prop where
  cfg : t.cfg = s.cfg
  lower : t.lower = s.lower
  upper : t.upper = s.upper
  schedule : t.schedule = s.schedule
  id : t.core.id = s.core.id

theorem BesidesKept.trans {s t u : State} (hst : BesidesKept s t) (htu : BesidesKept t u) :
    BesidesKept s u :=
  ⟨htu.cfg.trans hst.cfg, htu.lower.trans hst.lower, htu.upper.trans hst.upper,
    htu.schedule.trans hst.schedule, htu.id.trans hst.id⟩

theorem besidesKept_stageStep {s t : State} (h : s.stageStep = .next t) : BesidesKept s t := by
  obtain ⟨hcfg, hlower, hupper, hschedule, hid⟩ := (stageMove h).kept
  exact ⟨hcfg, hlower, hupper, hschedule, hid⟩

theorem besidesKept_enterTrap (s : State) : BesidesKept s s.enterTrap := ⟨rfl, rfl, rfl, rfl, rfl⟩

theorem besidesKept_decodeStage (s : State) : BesidesKept s s.decodeStage := by
  unfold State.decodeStage
  split <;> exact ⟨rfl, rfl, rfl, rfl, rfl⟩

theorem besidesKept_executeStage (s : State) (r : Executed) : BesidesKept s (s.executeStage r) := by
  cases r <;> exact ⟨rfl, rfl, rfl, rfl, rfl⟩

theorem besidesKept_memoryStage {s t : State} (h : s.memoryStage = .next t) : BesidesKept s t := by
  unfold State.memoryStage at h
  split at h
  · split at h <;> cases h <;> exact ⟨rfl, rfl, rfl, rfl, rfl⟩
  · split at h
    · split at h <;> cases h <;> exact ⟨rfl, rfl, rfl, rfl, rfl⟩
    · cases h
      exact ⟨rfl, rfl, rfl, rfl, rfl⟩

theorem besidesKept_writebackStage (s : State) : BesidesKept s s.writebackStage :=
  ⟨rfl, rfl, rfl, rfl, by simp⟩

/-- A sequence of stages keeps what its parts keep. -/
theorem besidesKept_andThen {s t : State} {r : Result} {k : State → Result}
    (hr : ∀ u, r = .next u → BesidesKept s u) (hk : ∀ u, k u = .next t → BesidesKept u t)
    (h : andThen r k = .next t) : BesidesKept s t := by
  obtain ⟨u, hu, ⟨_, rfl⟩ | ⟨_, ht⟩⟩ := andThen_eq_next h
  · exact (hr u hu).trans (besidesKept_enterTrap u)
  · exact (hr u hu).trans (hk u ht)

theorem besidesKept_of_next {s t u : State} (hst : BesidesKept s t)
    (h : (.next t : Result) = .next u) : BesidesKept s u := by
  cases h
  exact hst

theorem besidesKept_afterExecute {s t : State} (h : s.afterExecute = .next t) : BesidesKept s t :=
  besidesKept_andThen (fun _ => besidesKept_memoryStage)
    (fun u => besidesKept_of_next (besidesKept_writebackStage u)) h

theorem besidesKept_runInstr {i : Instr} {block : Config → Core → Executed} {s t : State}
    (h : runInstr i block s = .next t) : BesidesKept s t := by
  have hdecoded : BesidesKept s (s.decoded i) := ⟨rfl, rfl, rfl, rfl, rfl⟩
  have hexecuted : ∀ r, BesidesKept s ((s.decoded i).executeStage r) :=
    fun r => hdecoded.trans (besidesKept_executeStage _ r)
  rw [runInstr_eq] at h
  split at h
  · exact (hexecuted _).trans (besidesKept_afterExecute h)
  · exact besidesKept_of_next ((hexecuted _).trans (besidesKept_enterTrap _)) h

theorem besidesKept_runIllegal {s t : State} (h : s.runIllegal = .next t) : BesidesKept s t :=
  besidesKept_andThen (fun _ => besidesKept_of_next (besidesKept_decodeStage s))
    (fun u => besidesKept_andThen (fun _ => besidesKept_of_next (besidesKept_executeStage u _))
      (fun _ => besidesKept_of_next ⟨rfl, rfl, rfl, rfl, rfl⟩)) h

theorem besidesKept_afterFetch {s t : State} (h : s.afterFetch = .next t) : BesidesKept s t := by
  unfold State.afterFetch at h
  split at h
  · rw [exec_eq_runInstr] at h
    exact besidesKept_runInstr h
  · exact besidesKept_runIllegal h

theorem besidesKept_runCore {s t : State} (h : s.runCore = .next t) : BesidesKept s t := by
  unfold State.runCore at h
  split at h
  · next hs =>
    exact besidesKept_andThen (fun _ hu => besidesKept_stageStep ((stageStep_fetch hs).trans hu))
      (fun _ => besidesKept_afterFetch) h
  · exact besidesKept_afterFetch h
  · exact besidesKept_andThen (fun _ => besidesKept_of_next (besidesKept_executeStage s _))
      (fun _ => besidesKept_afterExecute) h
  · exact besidesKept_afterExecute h
  · exact besidesKept_of_next (besidesKept_writebackStage s) h
  · next hs => exact besidesKept_stageStep ((stageStep_trap hs).trans h)

/-! ### Which core a step changes -/

/-- A step passes, or is a stage step or a whole-instruction step of one core, which is not halted. -/
theorem step_cases {s t : State} (h : step s = .next t) :
    (∃ ks, t = { s with schedule := ks }) ∨
    ∃ ks k s', State.focus k { s with schedule := ks } = some s' ∧ s'.core.halted = false ∧
      (s'.stageStep = .next t ∨ s'.runCore = .next t) := by
  unfold step State.machineStep at h
  split at h
  · obtain ⟨k, s', hf, hrunning, hrun⟩ := runOn_cases h
    exact .inr ⟨s.schedule, k, s', hf, hrunning, .inr hrun⟩
  · next ks _ =>
    obtain rfl | ⟨s', hf, hrunning, hstage⟩ := turn_cases h
    · exact .inl ⟨ks, rfl⟩
    · exact .inr ⟨ks, _, s', hf, hrunning, .inl hstage⟩

/-- A step changes no core but one that was not halted. -/
theorem step_keeps_core {s t : State} (h : step s = .next t) {k : Nat} {c : Core}
    (hc : s.cores[k]? = some c) (hhalted : c.halted = true) : t.cores[k]? = some c := by
  obtain ⟨ks, rfl⟩ | ⟨ks, j, s', hf, hrunning, hmove⟩ := step_cases h
  · exact hc
  · obtain ⟨hcore, hcores, hj, -⟩ := focus_spec hf
    have hcur : s.cores[j]? = some s'.core := hcore
    have hne : k ≠ s'.lower.length := by
      rintro rfl
      rw [hj, hcur] at hc
      cases hc
      exact absurd (hrunning.symm.trans hhalted) (by decide)
    have hkept : BesidesKept s' t := hmove.elim besidesKept_stageStep besidesKept_runCore
    rw [cores_other hkept.lower hkept.upper hne, hcores]
    exact hc

/-- A stage step that changes whether its core is halted is an answer of the handler. -/
theorem StageMove.halted_cases {s t : State} (h : StageMove s t) :
    t.core.halted = s.core.halted ∨
    (s.core.stage = .trap ∧ s.core.trapState = .handle ∧ ∃ continue_ a0 handler,
      s.handler.next s.core.view s.mu s.core.hostResults = (.answer continue_ a0, handler) ∧
      t.core.halted = !continue_) := by
  cases h with
  | answered continue_ a0 handler hs ht hn => exact .inr ⟨hs, ht, continue_, a0, handler, hn, rfl⟩
  | decoded hs => exact .inl ((StageMove.decoded hs).halted (by simp [hs]))
  | executed hs => exact .inl ((StageMove.executed hs).halted (by simp [hs]))
  | wroteBack hs => exact .inl ((StageMove.wroteBack hs).halted (by simp [hs]))
  | _ => exact .inl rfl

/-- Settles O51. A step is a step of one core that is not halted (`step_keeps_core`), and a stage step
sets `halted` only by an answer of the handler (`StageMove.halted_cases`). -/
theorem haltedCoreStays : Obligations.HaltedCoreStays := by
  refine ⟨fun s t k c h hc hhalted => step_keeps_core h hc hhalted, ?_⟩
  intro s t h hrunning hhalted
  obtain hkept | ⟨hs, ht, continue_, a0, handler, hn, hset⟩ := (stageMove h).halted_cases
  · rw [hkept, hrunning] at hhalted
    cases hhalted
  · obtain rfl : continue_ = false := by simpa [hset] using hhalted
    exact ⟨hs, ht, a0, handler, hn⟩

end Sys2Proof.Machine
end

section
/-! The integer computational instructions (41_integer_computational.md): what the operand forms and
the ALU's operations are worth as numbers, and the rules of the upper-immediate instructions, of sums
and differences, of the signed comparisons and of the arithmetic right shifts. Each rule is
`aluRule_of_writeResult` at the value law of its EXECUTE block. -/

namespace Sys2Proof.Machine

/-! ### Codes of an instruction, by its format -/

theorem encoded_of_encI {i : Instr} {imm : BitVec 12} {rs1 rd : RegIdx} {f3 : BitVec 3}
    {op : BitVec 7} (he : encode i = encI imm rs1 f3 rd op) : Encoded i op f3 :=
  ⟨by rw [he, opcodeOf_encI], by rw [he, funct3Of_encI]⟩

theorem encodedR_of_encR {i : Instr} {f7 op : BitVec 7} {rs2 rs1 rd : RegIdx} {f3 : BitVec 3}
    (he : encode i = encR f7 rs2 rs1 f3 rd op) : EncodedR i op f3 f7 :=
  ⟨⟨by rw [he, opcodeOf_encR], by rw [he, funct3Of_encR]⟩, by rw [he, funct7Of_encR]⟩

/-! ### Upper immediates (R200, R201) -/

theorem immUpper_eq (imm : BitVec 20) : immUpper imm = BitVec.ofNat 32 (imm.toNat * 4096) := by
  apply BitVec.eq_of_toNat_eq
  have happend : (immUpper imm).toNat = imm.toNat * 4096 := by
    exact (BitVec.toNat_append imm 0#12).trans (by simp [Nat.shiftLeft_eq])
  have := imm.isLt
  rw [happend, BitVec.toNat_ofNat]
  omega

/-- A word plus a natural number, modulo 2^32. -/
theorem add_ofNat (a : Word) (n : Nat) : a + BitVec.ofNat 32 n = BitVec.ofNat 32 (a.toNat + n) := by
  rw [BitVec.ofNat_add, BitVec.ofNat_toNat, BitVec.setWidth_eq]

/-- Settles O18, by the value of the upper immediate (`immUpper_eq`) and its sum with `pc`. -/
theorem upperImmediate : Obligations.UpperImmediate := by
  intro s rd imm
  refine ⟨opcodeOf_encU .., opcodeOf_encU .., ?lui, ?auipc⟩
  case lui =>
    exact aluRule_of_writeResult (fun _ _ => rfl) (fun _ => immUpper_eq imm) (rdOf_encU ..) rfl
  case auipc =>
    refine aluRule_of_writeResult (fun _ _ => rfl) (fun c => ?_) (rdOf_encU ..) rfl
    rw [immUpper_eq, add_ofNat]

/-! ### Sums and differences (R202, R211, R212) -/

/-- A sum with an immediate is the signed sum, modulo 2^32. -/
theorem add_imm12 (a : Word) (imm : BitVec 12) :
    a + imm12 imm = BitVec.ofInt 32 (a.toInt + immValue imm) := by
  rw [imm12_eq, BitVec.ofInt_add, BitVec.ofInt_toInt]

theorem sub_eq_ofInt (a b : Word) : a - b = BitVec.ofInt 32 (a.toInt - b.toInt) := by
  apply BitVec.eq_of_toInt_eq
  rw [BitVec.toInt_sub, BitVec.toInt_ofInt]

/-- Settles O19. The ALU's sums and differences are those of the values, modulo 2^32. -/
theorem addSub : Obligations.AddSub := by
  intro s rd rs1 rs2 imm
  refine ⟨encoded_of_encI rfl, encodedR_of_encR rfl, encodedR_of_encR rfl, ?addi, ?add, ?sub⟩
  case addi =>
    exact aluRule_of_writeResult (fun _ _ => rfl) (fun c => add_imm12 c.d.rs1v imm)
      (rdOf_encI ..) (by simp [encode])
  case add =>
    exact aluRule_of_writeResult (fun _ _ => rfl) (fun c => BitVec.add_def c.d.rs1v c.d.rs2v)
      (rdOf_encR ..) (by simp [encode])
  case sub =>
    exact aluRule_of_writeResult (fun _ _ => rfl) (fun c => sub_eq_ofInt c.d.rs1v c.d.rs2v)
      (rdOf_encR ..) (by simp [encode])

/-! ### Signed comparisons (R203, R214) -/

theorem toInt_imm12 (imm : BitVec 12) : (imm12 imm).toInt = immValue imm := by
  rw [imm12, BitVec.toInt_signExtend_of_le (by decide), BitVec.toInt_eq_toNat_cond, immValue]
  split <;> split <;> omega

theorem boolWord_lessSigned (a b : Word) :
    boolWord (lessSigned a b) = if a.toInt < b.toInt then 1 else 0 := by
  simp [boolWord, lessSigned, BitVec.slt_iff_toInt_lt]

/-- Settles O20, by the law of the signed comparison (`boolWord_lessSigned`). -/
theorem compareSigned : Obligations.CompareSigned := by
  intro s rd rs1 rs2 imm
  refine ⟨encoded_of_encI rfl, encodedR_of_encR rfl, ?slti, ?slt⟩
  case slti =>
    refine aluRule_of_writeResult (fun _ _ => rfl) (fun c => ?_) (rdOf_encI ..) (by simp [encode])
    rw [boolWord_lessSigned, toInt_imm12]
  case slt =>
    exact aluRule_of_writeResult (fun _ _ => rfl) (fun c => boolWord_lessSigned c.d.rs1v c.d.rs2v)
      (rdOf_encR ..) (by simp [encode])

/-! ### Arithmetic right shifts (R210, R218) -/

/-- A sign-propagating shift divides the signed value by the power of 2, rounding down. -/
theorem sshiftRight_eq_fdiv (a : Word) (n : Nat) :
    a.sshiftRight n = BitVec.ofInt 32 (Int.fdiv a.toInt (2 ^ n)) := by
  have hfloor : (a.sshiftRight n).toInt = Int.fdiv a.toInt (2 ^ n) := by
    rw [BitVec.toInt_sshiftRight, Int.shiftRight_eq_div_pow,
      Int.fdiv_eq_ediv_of_nonneg _ (by positivity)]
    norm_cast
  rw [← hfloor, BitVec.ofInt_toInt]

/-- Settles O24. Both shifts are floors of the signed quotient (`sshiftRight_eq_fdiv`). -/
theorem shiftArithmetic : Obligations.ShiftArithmetic := by
  intro s rd rs1 rs2 shamt
  refine ⟨encodedR_of_encR rfl, encodedR_of_encR rfl, ?srai, ?sra⟩
  case srai =>
    exact aluRule_of_writeResult (fun _ _ => rfl)
      (fun c => sshiftRight_eq_fdiv c.d.rs1v shamt.toNat) (rdOf_encR ..) (by simp [encode])
  case sra =>
    refine aluRule_of_writeResult (fun _ _ => rfl) (fun c => ?_) (rdOf_encR ..) (by simp [encode])
    rw [sshiftRight_eq_fdiv, shiftAmount_eq]

end Sys2Proof.Machine
end

section
/-! The control transfer instructions (42_control_transfer.md): what a linking jump and a branch do as
whole instructions, said once for each of the two shared EXECUTE blocks, and the rules of JAL, BEQ and
BNE. -/

namespace Sys2Proof.Machine

theorem encoded_of_encB {i : Instr} {offset : BitVec 13} {rs2 rs1 : RegIdx} {f3 : BitVec 3}
    {op : BitVec 7} (he : encode i = encB offset rs2 rs1 f3 op) : Encoded i op f3 :=
  ⟨by rw [he, opcodeOf_encB], by rw [he, funct3Of_encB]⟩

/-! ### Jumps that link (R230, R231) -/

theorem add_immJump (a : Word) (offset : BitVec 21) :
    a + immJump offset = BitVec.ofInt 32 (a.toNat + offset.toInt) := by
  rw [immJump_eq, add_ofInt]

/-- A linking jump completes with `pc + 4` in `rd`, the target in `pc` and an empty queue. -/
theorem retires_of_jumpAndLink {i : Instr} {s : State} {rd : RegIdx} {target : Word}
    (hb : executeBlock i s.cfg (s.decoded i).core = jumpAndLink (s.decoded i).core target)
    (hrd : rdOf (encode i) = rd) : Retires i s rd (s.core.pc + 4) target [] := by
  obtain ⟨t, hrun, hret, hcsr, hmu⟩ := runInstr_done (rd := rd) (v := s.core.pc + 4) hb rfl rfl
    (fun r => by simp [State.decoded, hrd]) (fun _ _ => rfl)
  exact ⟨t, (exec_eq_runInstr i s).trans hrun, hret, hcsr, hmu⟩

/-- Settles O25, by the rule of linking jumps (`retires_of_jumpAndLink`) at the target of JAL. -/
theorem jalLinksAndJumps : Obligations.JalLinksAndJumps := by
  intro s rd offset
  have hblock : ∀ cfg c, executeBlock (.jal rd offset) cfg c =
      jumpAndLink c (BitVec.ofInt 32 (c.pc.toNat + offset.toInt)) :=
    fun _ c => congrArg (jumpAndLink c) (add_immJump c.pc offset)
  exact ⟨opcodeOf_encJ .., hblock, retires_of_jumpAndLink (hblock _ _) (rdOf_encJ ..)⟩

/-! ### Branches (R232 to R238) -/

theorem add_immBranch (a : Word) (offset : BitVec 13) :
    a + immBranch offset = BitVec.ofInt 32 (a.toNat + offset.toInt) := by
  rw [immBranch_eq, add_ofInt]

/-- A branch of B-type encoding completes as R238 says: its EXECUTE block tests the values of the two
source registers, and asks for no register write. -/
theorem branchRule_of_branchIf {i : Instr} {rs1 rs2 : RegIdx} {f3 : BitVec 3} {op : BitVec 7}
    {offset : BitVec 13} {s : State} {test : Word → Word → Bool}
    (he : encode i = encB offset rs2 rs1 f3 op)
    (hb : ∀ cfg c, executeBlock i cfg c = branchIf c (test c.d.rs1v c.d.rs2v) offset) :
    BranchRule i (test (s.core.x rs1) (s.core.x rs2)) offset s := by
  have hblock : executeBlock i s.cfg (s.decoded i).core =
      branchIf (s.decoded i).core (test (s.core.x rs1) (s.core.x rs2)) offset := by
    rw [hb]
    simp [State.decoded, he]
  obtain ⟨t, hrun, hret, hcsr, hmu⟩ := runInstr_done (rd := 0) (v := 0) hblock rfl rfl
    (fun r => by simp) (fun _ hr => absurd hr.1 hr.2)
  rw [add_immBranch] at hret
  exact ⟨t, (exec_eq_runInstr i s).trans hrun, hret, hcsr, hmu⟩

/-- Settles O27, by the rule of the branches (`branchRule_of_branchIf`) at the two tests of equality. -/
theorem branchEqual : Obligations.BranchEqual := by
  intro s rs1 rs2 offset
  refine ⟨encoded_of_encB rfl, encoded_of_encB rfl, ?beq, ?bne⟩
  case beq =>
    exact branchRule_of_branchIf (test := fun a b => decide (a = b)) rfl (fun _ _ => rfl)
  case bne =>
    refine branchRule_of_branchIf (test := fun a b => decide (a ≠ b)) rfl (fun _ c => ?_)
    exact congrArg (branchIf c · offset) (by simp [bne, beq_eq_decide])

end Sys2Proof.Machine
end

section
/-! The encoding (30_encoding.md): the decoder and the encoder are inverse to each other, which
gives the opcode table its meaning; and what every immediate is worth. The decoder's ten opcodes
are told apart once, by one equation per opcode. -/

namespace Sys2Proof.Machine

/-! ### The decoder, opcode by opcode (R123, R130 to R137) -/

section
variable {w : Word}

theorem decodeWord_lui (h : opcodeOf w = 0x37) : decodeWord w = .ok (.lui (rdOf w) (immUOf w)) := by
  simp [decodeWord, h]

theorem decodeWord_auipc (h : opcodeOf w = 0x17) :
    decodeWord w = .ok (.auipc (rdOf w) (immUOf w)) := by
  simp [decodeWord, h]

theorem decodeWord_jal (h : opcodeOf w = 0x6F) : decodeWord w = .ok (.jal (rdOf w) (immJOf w)) := by
  simp [decodeWord, h]

theorem decodeWord_jalr (h : opcodeOf w = 0x67) : decodeWord w = decodeJalr w := by
  simp [decodeWord, h]

theorem decodeWord_branch (h : opcodeOf w = 0x63) : decodeWord w = decodeBranch w := by
  simp [decodeWord, h]

theorem decodeWord_load (h : opcodeOf w = 0x03) : decodeWord w = decodeLoad w := by
  simp [decodeWord, h]

theorem decodeWord_store (h : opcodeOf w = 0x23) : decodeWord w = decodeStore w := by
  simp [decodeWord, h]

theorem decodeWord_opImm (h : opcodeOf w = 0x13) : decodeWord w = decodeOpImm w := by
  simp [decodeWord, h]

theorem decodeWord_op (h : opcodeOf w = 0x33) : decodeWord w = decodeOp w := by
  simp [decodeWord, h]

theorem decodeWord_system (h : opcodeOf w = 0x73) : decodeWord w = decodeSystem w := by
  simp [decodeWord, h]

/-- A SYSTEM word whose funct3 is not 0 is not the word of ECALL. -/
theorem ne_ecall_of_funct3 (h : funct3Of w ≠ 0) : w ≠ 0x00000073 := by
  rintro rfl
  exact h (by decide)

end

/-! ### Decoding what was encoded -/

/-- A well-formed instruction's word decodes to it: every field of every format comes back. -/
theorem decodeWord_encode (i : Instr) (h : i.wf = true) : decodeWord (encode i) = .ok i := by
  cases i with
  | lui => refine (decodeWord_lui (opcodeOf_encU ..)).trans ?_; simp
  | auipc => refine (decodeWord_auipc (opcodeOf_encU ..)).trans ?_; simp
  | jal rd offset => refine (decodeWord_jal (opcodeOf_encJ ..)).trans ?_; simp [immJOf_encJ _ _ _ h]
  | jalr => refine (decodeWord_jalr (opcodeOf_encI ..)).trans ?_; simp [decodeJalr]
  | beq | bne | blt | bge | bltu | bgeu =>
    refine (decodeWord_branch (opcodeOf_encB ..)).trans ?_
    simp [decodeBranch, immBOf_encB _ _ _ _ _ h]
  | lb | lh | lw | lbu | lhu =>
    refine (decodeWord_load (opcodeOf_encI ..)).trans ?_; simp [decodeLoad]
  | sb | sh | sw => refine (decodeWord_store (opcodeOf_encS ..)).trans ?_; simp [decodeStore]
  | addi | slti | sltiu | xori | ori | andi =>
    refine (decodeWord_opImm (opcodeOf_encI ..)).trans ?_; simp [decodeOpImm]
  | slli | srli | srai => refine (decodeWord_opImm (opcodeOf_encR ..)).trans ?_; simp [decodeOpImm]
  | add | sub | sll | slt | sltu | xor | srl | sra | or | and =>
    refine (decodeWord_op (opcodeOf_encR ..)).trans ?_; simp [decodeOp]
  | ecall => rfl
  | csrrw | csrrs | csrrc | csrrwi | csrrsi | csrrci =>
    refine (decodeWord_system (opcodeOf_encI ..)).trans ?_
    rw [decodeSystem, if_neg (ne_ecall_of_funct3 (by simp))]
    simp

/-- The four bytes of a word are read back as that word, whatever follows them. -/
theorem decodeBytes_bytesOfWord {w : Word} {i : Instr} (h : decodeWord w = .ok i)
    (rest : List Byte) : decodeBytes (bytesOfWord 4 w ++ rest) = .ok (i, rest) := by
  have hw : wordOfBytes (bytesOfWord 4 w) = w := wordOfBytes_bytesOfWord .word w
  simp only [bytesOfWord] at hw
  simp only [bytesOfWord, List.cons_append, List.nil_append, decodeBytes, hw, h]

/-- Settles O14. The bytes of an instruction are those of its word (`decodeBytes_bytesOfWord`),
which decodes to it (`decodeWord_encode`). -/
theorem decodeEncode : Obligations.DecodeEncode :=
  fun i rest hwf => decodeBytes_bytesOfWord (decodeWord_encode i hwf) rest

/-! ### Encoding what was decoded -/

section
variable {w : Word} {op : BitVec 7} {f3 : BitVec 3} {f7 : BitVec 7}

theorem encR_of_fields (ho : opcodeOf w = op) (h3 : funct3Of w = f3) (h7 : funct7Of w = f7) :
    encR f7 (rs2Of w) (rs1Of w) f3 (rdOf w) op = w := by
  rw [← ho, ← h3, ← h7, encR_fields]

theorem encI_of_fields (ho : opcodeOf w = op) (h3 : funct3Of w = f3) :
    encI (immIOf w) (rs1Of w) f3 (rdOf w) op = w := by
  rw [← ho, ← h3, encI_fields]

theorem encS_of_fields (ho : opcodeOf w = op) (h3 : funct3Of w = f3) :
    encS (immSOf w) (rs2Of w) (rs1Of w) f3 op = w := by
  rw [← ho, ← h3, encS_fields]

theorem encB_of_fields (ho : opcodeOf w = op) (h3 : funct3Of w = f3) :
    encB (immBOf w) (rs2Of w) (rs1Of w) f3 op = w := by
  rw [← ho, ← h3, encB_fields]

theorem encU_of_fields (ho : opcodeOf w = op) : encU (immUOf w) (rdOf w) op = w := by
  rw [← ho, encU_fields]

theorem encJ_of_fields (ho : opcodeOf w = op) : encJ (immJOf w) (rdOf w) op = w := by
  rw [← ho, encJ_fields]

end

/-- The instruction is well formed and its word is `w`. -/
def Encodes (i : Instr) (w : Word) : Prop := i.wf = true ∧ encode i = w

section
variable {w : Word} {i : Instr}

theorem encodes_of_decodeJalr (ho : opcodeOf w = 0x67) (h : decodeJalr w = .ok i) :
    Encodes i w := by
  unfold decodeJalr at h
  split at h
  · next h3 => cases h; exact ⟨rfl, encI_of_fields ho h3⟩
  · cases h

theorem encodes_of_decodeBranch (ho : opcodeOf w = 0x63) (h : decodeBranch w = .ok i) :
    Encodes i w := by
  simp only [decodeBranch] at h
  split_ifs at h with h3 h3 h3 h3 h3 h3 <;> cases h <;>
    exact ⟨branchOffsetOk_immBOf w, encB_of_fields ho h3⟩

theorem encodes_of_decodeLoad (ho : opcodeOf w = 0x03) (h : decodeLoad w = .ok i) :
    Encodes i w := by
  simp only [decodeLoad] at h
  split_ifs at h with h3 h3 h3 h3 h3 <;> cases h <;> exact ⟨rfl, encI_of_fields ho h3⟩

theorem encodes_of_decodeStore (ho : opcodeOf w = 0x23) (h : decodeStore w = .ok i) :
    Encodes i w := by
  simp only [decodeStore] at h
  split_ifs at h with h3 h3 h3 <;> cases h <;> exact ⟨rfl, encS_of_fields ho h3⟩

theorem encodes_of_decodeOpImm (ho : opcodeOf w = 0x13) (h : decodeOpImm w = .ok i) :
    Encodes i w := by
  simp only [decodeOpImm] at h
  split_ifs at h with h3 h3 h3 h3 h3 h3 h37 h37 h37 <;> cases h
  iterate 6 exact ⟨rfl, encI_of_fields ho h3⟩
  all_goals exact ⟨rfl, encR_of_fields ho h37.1 h37.2⟩

theorem encodes_of_decodeOp (ho : opcodeOf w = 0x33) (h : decodeOp w = .ok i) : Encodes i w := by
  simp only [decodeOp] at h
  split_ifs at h with h73 h73 h73 h73 h73 h73 h73 h73 h73 h73 <;> cases h <;>
    exact ⟨rfl, encR_of_fields ho h73.2 h73.1⟩

theorem encodes_of_decodeSystem (ho : opcodeOf w = 0x73) (h : decodeSystem w = .ok i) :
    Encodes i w := by
  simp only [decodeSystem] at h
  split_ifs at h with hw h3 h3 h3 h3 h3 h3 <;> cases h
  · exact ⟨rfl, hw.symm⟩
  all_goals exact ⟨rfl, encI_of_fields ho h3⟩

theorem encodes_of_decodeWord (h : decodeWord w = .ok i) : Encodes i w := by
  simp only [decodeWord] at h
  split_ifs at h with ho ho ho ho ho ho ho ho ho ho
  · cases h; exact ⟨rfl, encU_of_fields ho⟩
  · cases h; exact ⟨rfl, encU_of_fields ho⟩
  · cases h; exact ⟨jumpOffsetOk_immJOf w, encJ_of_fields ho⟩
  · exact encodes_of_decodeJalr ho h
  · exact encodes_of_decodeBranch ho h
  · exact encodes_of_decodeLoad ho h
  · exact encodes_of_decodeStore ho h
  · exact encodes_of_decodeOpImm ho h
  · exact encodes_of_decodeOp ho h
  · exact encodes_of_decodeSystem ho h

end

/-- Settles O15, by the inversion of each opcode's decoder. -/
theorem encodeDecode : Obligations.EncodeDecode := fun _ _ h => encodes_of_decodeWord h

/-! ### The opcode table (30_encoding.md section 3) -/

/-- A word of the row of `j` decodes to an instruction of that row: its opcode and function codes
are those of the row's pattern. -/
theorem decodes_of_row {w : Word} (j : Instr) (h : w &&& j.row.mask = j.row.pattern) :
    ∃ i, decodeWord w = .ok i ∧ i.row = j.row := by
  cases j with
  | lui => exact ⟨_, decodeWord_lui ((mask_opcode w 0x37 (by decide)).1 h), rfl⟩
  | auipc => exact ⟨_, decodeWord_auipc ((mask_opcode w 0x17 (by decide)).1 h), rfl⟩
  | jal => exact ⟨_, decodeWord_jal ((mask_opcode w 0x6F (by decide)).1 h), rfl⟩
  | jalr =>
    simp only [Instr.row] at h
    obtain ⟨ho, h3⟩ := (mask_funct3 w _ (by decide)).1 h
    rw [decodeWord_jalr (ho.trans (by decide))]
    simp +decide [decodeJalr, h3, Instr.row]
  | beq | bne | blt | bge | bltu | bgeu =>
    simp only [Instr.row] at h
    obtain ⟨ho, h3⟩ := (mask_funct3 w _ (by decide)).1 h
    rw [decodeWord_branch (ho.trans (by decide))]
    simp +decide [decodeBranch, h3, Instr.row]
  | lb | lh | lw | lbu | lhu =>
    simp only [Instr.row] at h
    obtain ⟨ho, h3⟩ := (mask_funct3 w _ (by decide)).1 h
    rw [decodeWord_load (ho.trans (by decide))]
    simp +decide [decodeLoad, h3, Instr.row]
  | sb | sh | sw =>
    simp only [Instr.row] at h
    obtain ⟨ho, h3⟩ := (mask_funct3 w _ (by decide)).1 h
    rw [decodeWord_store (ho.trans (by decide))]
    simp +decide [decodeStore, h3, Instr.row]
  | addi | slti | sltiu | xori | ori | andi =>
    simp only [Instr.row] at h
    obtain ⟨ho, h3⟩ := (mask_funct3 w _ (by decide)).1 h
    rw [decodeWord_opImm (ho.trans (by decide))]
    simp +decide [decodeOpImm, h3, Instr.row]
  | slli | srli | srai =>
    simp only [Instr.row] at h
    obtain ⟨ho, h3, h7⟩ := (mask_funct7 w _ (by decide)).1 h
    rw [decodeWord_opImm (ho.trans (by decide))]
    simp +decide [decodeOpImm, h3, h7, Instr.row]
  | add | sub | sll | slt | sltu | xor | srl | sra | or | and =>
    simp only [Instr.row] at h
    obtain ⟨ho, h3, h7⟩ := (mask_funct7 w _ (by decide)).1 h
    rw [decodeWord_op (ho.trans (by decide))]
    simp +decide [decodeOp, h3, h7, Instr.row]
  | ecall =>
    obtain rfl : w = 0x00000073 := (BitVec.and_allOnes (x := w)).symm.trans h
    exact ⟨.ecall, by decide, rfl⟩
  | csrrw | csrrs | csrrc | csrrwi | csrrsi | csrrci =>
    simp only [Instr.row] at h
    obtain ⟨ho, h3⟩ := (mask_funct3 w _ (by decide)).1 h
    rw [decodeWord_system (ho.trans (by decide)), decodeSystem,
      if_neg (ne_ecall_of_funct3 (by rw [h3]; decide))]
    simp +decide [h3, Instr.row]

/-- Every instruction's word is of its own row. -/
theorem encode_row : ∀ i : Instr, encode i &&& i.row.mask = i.row.pattern
  | .lui .. => Laws.OpcodeRow.lui ..
  | .auipc .. => Laws.OpcodeRow.auipc ..
  | .addi .. => Laws.OpcodeRow.addi ..
  | .slti .. => Laws.OpcodeRow.slti ..
  | .sltiu .. => Laws.OpcodeRow.sltiu ..
  | .xori .. => Laws.OpcodeRow.xori ..
  | .ori .. => Laws.OpcodeRow.ori ..
  | .andi .. => Laws.OpcodeRow.andi ..
  | .slli .. => Laws.OpcodeRow.slli ..
  | .srli .. => Laws.OpcodeRow.srli ..
  | .srai .. => Laws.OpcodeRow.srai ..
  | .add .. => Laws.OpcodeRow.add ..
  | .sub .. => Laws.OpcodeRow.sub ..
  | .sll .. => Laws.OpcodeRow.sll ..
  | .slt .. => Laws.OpcodeRow.slt ..
  | .sltu .. => Laws.OpcodeRow.sltu ..
  | .xor .. => Laws.OpcodeRow.xor ..
  | .srl .. => Laws.OpcodeRow.srl ..
  | .sra .. => Laws.OpcodeRow.sra ..
  | .or .. => Laws.OpcodeRow.or ..
  | .and .. => Laws.OpcodeRow.and ..
  | .jal .. => Laws.OpcodeRow.jal ..
  | .jalr .. => Laws.OpcodeRow.jalr ..
  | .beq .. => Laws.OpcodeRow.beq ..
  | .bne .. => Laws.OpcodeRow.bne ..
  | .blt .. => Laws.OpcodeRow.blt ..
  | .bge .. => Laws.OpcodeRow.bge ..
  | .bltu .. => Laws.OpcodeRow.bltu ..
  | .bgeu .. => Laws.OpcodeRow.bgeu ..
  | .lb .. => Laws.OpcodeRow.lb ..
  | .lh .. => Laws.OpcodeRow.lh ..
  | .lw .. => Laws.OpcodeRow.lw ..
  | .lbu .. => Laws.OpcodeRow.lbu ..
  | .lhu .. => Laws.OpcodeRow.lhu ..
  | .sb .. => Laws.OpcodeRow.sb ..
  | .sh .. => Laws.OpcodeRow.sh ..
  | .sw .. => Laws.OpcodeRow.sw ..
  | .ecall => Laws.OpcodeRow.ecall
  | .csrrw .. => Laws.OpcodeRow.csrrw ..
  | .csrrs .. => Laws.OpcodeRow.csrrs ..
  | .csrrc .. => Laws.OpcodeRow.csrrc ..
  | .csrrwi .. => Laws.OpcodeRow.csrrwi ..
  | .csrrsi .. => Laws.OpcodeRow.csrrsi ..
  | .csrrci .. => Laws.OpcodeRow.csrrci ..

/-- Settles O16. A word of a row decodes to an instruction of it (`decodes_of_row`), and a word that
decodes is that of its instruction, which is of its own row (`encode_row`). -/
theorem tableSelects : Obligations.TableSelects := by
  refine fun w j => ⟨decodes_of_row j, ?_⟩
  rintro ⟨i, hdecode, hrow⟩
  rw [← hrow, ← (encodes_of_decodeWord hdecode).2]
  exact encode_row i

/-- Settles O13, by running the decoder. -/
theorem decodesWords : Obligations.DecodesWords := by
  unfold Obligations.DecodesWords
  decide

/-! ### What the immediates are worth (R124 to R129, R260) -/

theorem toNat_extract (w : Word) (lo n : Nat) :
    (w.extractLsb' lo n).toNat = w.toNat / 2 ^ lo % 2 ^ n := by
  rw [BitVec.extractLsb'_toNat, Nat.shiftRight_eq_div_pow]

/-- The value of two fields side by side. -/
theorem toNat_append_add {m n : Nat} (x : BitVec m) (y : BitVec n) :
    (x ++ y).toNat = x.toNat * 2 ^ n + y.toNat := by
  rw [BitVec.toNat_append, ← Nat.shiftLeft_add_eq_or_of_lt y.isLt, Nat.shiftLeft_eq]

/-- A sign-extended immediate of `n` bits, as an integer. -/
theorem toInt_signExtend32 {n : Nat} (x : BitVec n) (h : n ≤ 32) :
    (x.signExtend 32).toInt =
      if 2 * x.toNat < 2 ^ n then (x.toNat : Int) else (x.toNat : Int) - 2 ^ n := by
  rw [BitVec.toInt_signExtend_of_le h, BitVec.toInt_eq_toNat_cond]
  norm_cast

/-- Base plus displacement, as integers modulo 2^32 (R260). -/
theorem effectiveAddr_eq (base : Word) (imm : BitVec 12) :
    effectiveAddr base imm = BitVec.ofInt 32 (base.toNat + immValue imm) := by
  rw [effectiveAddr, imm12_eq, add_ofInt]

/-- Settles O17. Each immediate is a sum of its bit fields (`toNat_extract`, `toNat_append_add`),
less 2^n where its sign bit is set (`toInt_signExtend32`). -/
theorem immediateValues : Obligations.ImmediateValues := by
  refine ⟨effectiveAddr_eq, fun w => ?_⟩
  have hw := w.isLt
  dsimp only
  refine ⟨?I, ?S, ?B, ?U, ?J, congrArg Nat.cast (toNat_extract w 20 12), ?uimm,
    congrArg Nat.cast (toNat_extract w 20 5)⟩
  case I =>
    rw [imm12, toInt_signExtend32 _ (by decide), immIOf, toNat_extract]
    omega
  case S =>
    have hsign : w.toNat / 2 ^ 25 % 2 ^ 7 =
        w.toNat / 2 ^ 25 % 2 ^ 6 + 64 * (w.toNat / 2 ^ 31 % 2 ^ 1) := by omega
    rw [imm12, toInt_signExtend32 _ (by decide), immSOf]
    simp only [toNat_append_add, toNat_extract]
    split <;> omega
  case B =>
    rw [immBranch, toInt_signExtend32 _ (by decide), immBOf]
    simp only [toNat_append_add, toNat_extract, BitVec.toNat_ofNat]
    split <;> omega
  case U =>
    rw [immUpper, immUOf]
    simp only [toNat_append_add, toNat_extract, BitVec.toNat_ofNat]
    omega
  case J =>
    rw [immJump, toInt_signExtend32 _ (by decide), immJOf]
    simp only [toNat_append_add, toNat_extract, BitVec.toNat_ofNat]
    split <;> omega
  case uimm =>
    rw [uimm5, rs1Of, BitVec.toNat_setWidth, toNat_extract]
    omega

end Sys2Proof.Machine
end

section
/-! Whole instructions as sequences of stage steps (40_pipeline_stages.md R150, R173; log 3): a
whole-instruction step of a core is one to five stage steps of that core. -/

namespace Sys2Proof.Machine

/-- `n` stage steps of the current core, which is not halted at any of them. -/
inductive StageRun : Nat → State → State → Prop
  | done (s : State) : StageRun 0 s s
  | more {n : Nat} {s u t : State} (hh : s.core.halted = false) (hs : s.stageStep = .next u)
      (hr : StageRun n u t) : StageRun (n + 1) s t

/-- At least one and at most `m` stage steps. -/
def RunsIn (m : Nat) (s t : State) : Prop := ∃ n, 1 ≤ n ∧ n ≤ m ∧ StageRun n s t

section
variable {m : Nat} {s t u : State}

theorem RunsIn.mono {m' : Nat} (h : RunsIn m s t) (hm : m ≤ m') : RunsIn m' s t := by
  obtain ⟨n, h1, hn, hr⟩ := h
  exact ⟨n, h1, hn.trans hm, hr⟩

theorem runsIn_one (hh : s.core.halted = false) (hs : s.stageStep = .next t) : RunsIn 1 s t :=
  ⟨1, le_rfl, le_rfl, .more hh hs (.done t)⟩

theorem runsIn_more (hh : s.core.halted = false) (hs : s.stageStep = .next u) (h : RunsIn m u t) :
    RunsIn (m + 1) s t := by
  obtain ⟨n, -, hn, hr⟩ := h
  exact ⟨n + 1, Nat.le_add_left 1 n, Nat.succ_le_succ hn, .more hh hs hr⟩

/-! ### The stages of an instruction -/

/-- A stage outside TRAP that leads to TRAP has raised. -/
theorem enter_of_raised (hs : s.core.stage ≠ .trap) (h : s.stageStep = .next u)
    (hu : u.core.stage = .trap) : u.core.trapState = .enter := by
  obtain ⟨-, ⟨-, hts⟩ | ⟨-, hnext⟩⟩ := stageWrapper s u hs h
  · exact hts
  · simp [hu] at hnext

/-- The stage after one that did not raise. -/
theorem stage_of_not_raised (hs : s.core.stage ≠ .trap) (h : s.stageStep = .next u)
    (hu : u.core.stage ≠ .trap) :
    (s.core.stage = .fetch ∧ u.core.stage = .decode) ∨
    (s.core.stage = .decode ∧ u.core.stage = .execute) ∨
    (s.core.stage = .execute ∧ u.core.stage = .memory) ∨
    (s.core.stage = .memory ∧ u.core.stage = .writeback) ∨
    (s.core.stage = .writeback ∧ u.core.stage = .fetch) := by
  obtain ⟨-, ⟨htrap, -⟩ | ⟨-, hnext⟩⟩ := stageWrapper s u hs h
  · exact absurd htrap hu
  · exact hnext

theorem stageStep_enter (hs : s.core.stage = .trap) (ht : s.core.trapState = .enter) :
    s.stageStep = .next s.enterTrap := by
  rw [stageStep_trap hs, State.trapStep, ht]

/-- A stage and what follows it: the stage step, and then ENTER or the rest of the instruction. -/
theorem runsIn_andThen {r : Result} {k : State → Result} (hh : s.core.halted = false)
    (hs : s.core.stage ≠ .trap) (hr : s.stageStep = r) (h : andThen r k = .next t)
    (hk : ∀ u, s.stageStep = .next u → u.core.halted = false → u.core.stage ≠ .trap →
      k u = .next t → RunsIn (m + 1) u t) : RunsIn (m + 2) s t := by
  obtain ⟨u, hu, hrest⟩ := andThen_eq_next h
  have hstep : s.stageStep = .next u := hr.trans hu
  have hh' : u.core.halted = false := ((stageMove hstep).halted hs).trans hh
  refine runsIn_more hh hstep ?_
  obtain ⟨htrap, rfl⟩ | ⟨hnext, hku⟩ := hrest
  · exact (runsIn_one hh' (stageStep_enter htrap (enter_of_raised hs hstep htrap))).mono (by omega)
  · exact hk u hstep hh' hnext hku

theorem runsIn_afterExecute (hh : s.core.halted = false) (hs : s.core.stage = .memory)
    (h : s.afterExecute = .next t) : RunsIn 2 s t := by
  have hnt : s.core.stage ≠ .trap := by simp [hs]
  refine runsIn_andThen hh hnt (stageStep_memory hs) h fun u hu hh' hu' hk => ?_
  have hwb : u.core.stage = .writeback := by simpa [hs] using stage_of_not_raised hnt hu hu'
  exact runsIn_one hh' ((stageStep_writeback hwb).trans hk)

theorem runsIn_execute (hh : s.core.halted = false) (hs : s.core.stage = .execute)
    (h : andThen (.next (s.executeStage (executeWord s.cfg s.core))) State.afterExecute = .next t) :
    RunsIn 3 s t := by
  have hnt : s.core.stage ≠ .trap := by simp [hs]
  refine runsIn_andThen hh hnt (stageStep_execute hs) h fun u hu hh' hu' hk => ?_
  have hmem : u.core.stage = .memory := by simpa [hs] using stage_of_not_raised hnt hu hu'
  exact runsIn_afterExecute hh' hmem hk

/-- DECODE keeps the word. -/
theorem ir_of_decode (hs : s.core.stage = .decode) (h : s.stageStep = .next u) :
    u.core.d.ir = s.core.d.ir := by
  cases (stageStep_decode hs).symm.trans h
  unfold State.decodeStage
  split <;> rfl

theorem executeWord_ok {cfg : Config} {c : Core} {i : Instr} (h : decodeWord c.d.ir = .ok i) :
    executeWord cfg c = executeBlock i cfg c := by
  rw [executeWord, h]

theorem executeWord_error {cfg : Config} {c : Core} {e : DecodeReject}
    (h : decodeWord c.d.ir = .error e) : executeWord cfg c = .raised .illegalInstruction := by
  rw [executeWord, h]

/-- A whole instruction is its DECODE, then EXECUTE by its block, then what follows, where the
record holds its word already. -/
theorem exec_eq_andThen {i : Instr} (h : encode i = s.core.d.ir) :
    exec i s = andThen (.next s.decodeStage) fun u =>
      andThen (.next (u.executeStage (executeBlock i u.cfg u.core))) State.afterExecute := by
  rw [exec_eq_runInstr, runInstr, h]

theorem runsIn_afterFetch (hh : s.core.halted = false) (hs : s.core.stage = .decode)
    (h : s.afterFetch = .next t) : RunsIn 4 s t := by
  have hnt : s.core.stage ≠ .trap := by simp [hs]
  have hdecode : s.stageStep = .next s.decodeStage := stageStep_decode hs
  unfold State.afterFetch at h
  split at h
  · next i hi =>
    rw [exec_eq_andThen (encodes_of_decodeWord hi).2] at h
    refine runsIn_andThen hh hnt hdecode h fun u hu hh' hu' hk => ?_
    have hexecute : u.core.stage = .execute := by simpa [hs] using stage_of_not_raised hnt hu hu'
    refine runsIn_execute hh' hexecute ?_
    rw [executeWord_ok ((ir_of_decode hs hu).symm ▸ hi)]
    exact hk
  · next e he =>
    refine runsIn_andThen (m := 2) hh hnt hdecode h fun u hu hh' hu' hk => ?_
    have hexecute : u.core.stage = .execute := by simpa [hs] using stage_of_not_raised hnt hu hu'
    have hraised : u.stageStep = .next (u.executeStage (.raised .illegalInstruction)) := by
      rw [stageStep_execute hexecute, executeWord_error ((ir_of_decode hs hu).symm ▸ he)]
    refine runsIn_andThen (m := 1) hh' (by simp [hexecute]) hraised hk fun v hv _ hv' _ => ?_
    cases hraised.symm.trans hv
    exact absurd rfl hv'

/-- A whole-instruction step of a core that is not halted is at most five of its stage steps. -/
theorem runsIn_runCore (hh : s.core.halted = false) (h : s.runCore = .next t) : RunsIn 5 s t := by
  unfold State.runCore at h
  split at h
  · next hs =>
    have hnt : s.core.stage ≠ .trap := by simp [hs]
    refine runsIn_andThen hh hnt (stageStep_fetch hs) h fun u hu hh' hu' hk => ?_
    have hdec : u.core.stage = .decode := by simpa [hs] using stage_of_not_raised hnt hu hu'
    exact runsIn_afterFetch hh' hdec hk
  · next hs => exact (runsIn_afterFetch hh hs h).mono (by decide)
  · next hs => exact (runsIn_execute hh hs h).mono (by decide)
  · next hs => exact (runsIn_afterExecute hh hs h).mono (by decide)
  · next hs => exact (runsIn_one hh ((stageStep_writeback hs).trans h)).mono (by decide)
  · next hs => exact (runsIn_one hh ((stageStep_trap hs).trans h)).mono (by decide)

end

/-! ### Stage turns -/

/-- The first turn of a core, and its turn as the current core, are one. -/
theorem turns_succ {k n : Nat} {s s' u : State} (hf : s.focus k = some s')
    (hh : s'.core.halted = false) (hs : s'.stageStep = .next u) :
    State.turns k (n + 1) s = State.turns k n u := by
  rw [State.turns, turn_eq hf hh, hs]

theorem turns_of_stageRun {n : Nat} {s t : State} (h : StageRun n s t) :
    State.turns s.lower.length n s = .next t := by
  induction h with
  | done s => rfl
  | more hh hs hr ih =>
    rw [turns_succ (focus_current _) hh hs, ← (besidesKept_stageStep hs).lower]
    exact ih

/-- Settles O57. The core whose turn it is runs at most five stages (`runsIn_runCore`), and each is
a turn of that core. -/
theorem stepIsStageTurns : Obligations.StepIsStageTurns := by
  intro s t hsched hstep
  obtain ⟨k, s', hf, hh, hrun⟩ := runOn_cases ((step_runOn hsched t).1 hstep)
  obtain ⟨n, h1, h5, hr⟩ := runsIn_runCore hh hrun
  refine ⟨k, n, h1, h5, ?_⟩
  cases hr with
  | done => omega
  | more hh hs hr =>
    obtain ⟨-, -, rfl, -⟩ := focus_spec hf
    rw [turns_succ hf hh hs, ← (besidesKept_stageStep hs).lower]
    exact turns_of_stageRun hr

end Sys2Proof.Machine
end

section
/-! The invariant of every run, `State.Inv`: a stage step keeps it, one case of `StageMove` at a
time, and a step of the machine is a sequence of stage steps of one core (`runsIn_runCore`). -/

namespace Sys2Proof.Machine

/-! ### The MemoryUnit (10_state.md R52, R54) -/

section
variable {cfg : Config} {mu : MemoryUnit}

/-- A page of the arena starts inside it. -/
theorem pageOf_inside {a : Nat} (hb : mu.base ≤ a) (hs : a < mu.base + mu.size) :
    mu.pageOf cfg a * cfg.pageSize < mu.size := by
  have := Nat.div_mul_le_self (a - mu.base) cfg.pageSize
  unfold MemoryUnit.pageOf
  omega

theorem MemoryUnit.Ok.storeByte (h : mu.Ok cfg) {a : Nat} (b : Byte) (hb : mu.base ≤ a)
    (hs : a < mu.base + mu.size) : (mu.storeByte cfg a b).Ok cfg where
  wf := wf_storeByte h.wf cfg a b
  data e he := by
    obtain ⟨rfl, -⟩ | he := Cells.mem_set unlistedByte a b mu.data e he
    · exact ⟨hb, hs⟩
    · exact h.data e he
  dirty p hp := by
    obtain rfl | hp := (Pages.mem_insert ..).1 hp
    · exact pageOf_inside hb hs
    · exact h.dirty p hp

theorem MemoryUnit.Ok.storeBytes (h : mu.Ok cfg) {a : Nat} {bs : List Byte} (hb : mu.base ≤ a)
    (hs : a + bs.length ≤ mu.base + mu.size) : (mu.storeBytes cfg a bs).Ok cfg := by
  induction bs generalizing mu a with
  | nil => exact h
  | cons b bs ih =>
    rw [List.length_cons] at hs
    exact ih (h.storeByte b hb (by omega)) (Nat.le_succ_of_le hb)
      (by rw [storeByte_base, storeByte_size]; omega)

/-- A change of permissions alone. -/
theorem MemoryUnit.Ok.of_data {mu' : MemoryUnit} (h : mu.Ok cfg) (hwf : Memory.wf mu')
    (hdata : mu'.data = mu.data) (hdirty : mu'.dirty = mu.dirty) (hbase : mu'.base = mu.base)
    (hsize : mu'.size = mu.size) : mu'.Ok cfg where
  wf := hwf
  data := by rw [hdata, hbase, hsize]; exact h.data
  dirty := by rw [hdirty, hsize]; exact h.dirty

theorem MemoryUnit.Ok.fillPerm (h : mu.Ok cfg) (p : Perm) (a len : Nat) :
    (mu.fillPerm p a len).Ok cfg := by
  obtain ⟨hbase, hsize, hdata, hdirty, -⟩ := fillPerm_rest mu p a len
  exact h.of_data (wf_fillPerm h.wf p a len) hdata hdirty hbase hsize

theorem MemoryUnit.Ok.grow (h : mu.Ok cfg) (n : Nat) : (mu.grow n).Ok cfg := by
  induction n generalizing mu with
  | zero => exact h
  | succ n ih =>
    refine ih ⟨wf_setPermAt (wf_setByte h.wf _ _) _ _, fun e he => ?_, fun p hp => ?_⟩
    · obtain ⟨rfl, -⟩ | he := Cells.mem_set unlistedByte _ _ mu.data e he
      · exact ⟨Nat.le_add_right .., Nat.lt_succ_self _⟩
      · exact ⟨(h.data e he).1, Nat.lt_succ_of_lt (h.data e he).2⟩
    · exact Nat.lt_succ_of_lt (h.dirty p hp)

theorem MemoryUnit.Ok.busWrite {mu' : MemoryUnit} (h : mu.Ok cfg) {t : Transfer} {addr : Word}
    {w : Width} {bs : List Byte} (hw : busWrite cfg mu t addr w bs = .ok mu') : mu'.Ok cfg := by
  obtain ⟨dev, -, -, -, -, -, hbounds, -, rfl⟩ := busWrite_ok hw
  obtain ⟨hbase, hend, -⟩ := (inBounds_iff ..).1 hbounds
  exact h.storeBytes hbase hend

theorem MemoryUnit.Ok.addMemory (h : mu.Ok cfg) (addr size : Nat) (p : Perm) :
    (mu.addMemory cfg addr size p).2.Ok cfg := by
  unfold MemoryUnit.addMemory
  split
  · exact h
  · split
    · exact h
    · exact (h.grow _).fillPerm p addr size

theorem MemoryUnit.Ok.allocate (h : mu.Ok cfg) (size : Nat) (p : Perm) :
    (mu.allocate size p).2.Ok cfg := by
  have hf := h.fillPerm p mu.currVaddr size
  unfold MemoryUnit.allocate
  split
  · exact h
  · exact ⟨hf.wf, hf.data, hf.dirty⟩

theorem MemoryUnit.Ok.setPerm (h : mu.Ok cfg) (addr len : Nat) (p : Perm) :
    (mu.setPerm addr len p).2.Ok cfg := by
  unfold MemoryUnit.setPerm
  split
  · exact h.fillPerm p addr len
  · exact h

theorem MemoryUnit.Ok.writeAnswer {x : MemoryUnit × HostResult} {t : Transfer} {addr : Word}
    {w : Width} {bs : List Byte} (h : mu.Ok cfg)
    (hx : writeAnswer mu (Machine.busWrite cfg mu t addr w bs) = .ok x) : x.1.Ok cfg := by
  obtain hsame | hwrote := writeAnswer_mu hx
  · rw [hsame]; exact h
  · exact h.busWrite hwrote

theorem MemoryUnit.Ok.hostOp {x : MemoryUnit × HostResult} {o : HostOp} (h : mu.Ok cfg)
    (hx : hostOp cfg mu o = .ok x) : x.1.Ok cfg := by
  cases o with
  | readSingle | readMultiple => rw [readAnswer_mu hx]; exact h
  | writeSingle | writeMultiple => exact h.writeAnswer hx
  | allocate size p => cases hx; exact h.allocate size p
  | addMemory addr size p => cases hx; exact h.addMemory addr size p
  | setPerm addr len p => cases hx; exact h.setPerm addr len p

end

/-! ### The record (40_pipeline_stages.md R155, R160) -/

/-- The record `d` with the outputs of EXECUTE taken from `o`. -/
def Decoded.withOutputs (d o : Decoded) : Decoded :=
  { d with
    aluOut := o.aluOut
    memOffset := o.memOffset
    memWidth := o.memWidth
    memSigned := o.memSigned
    jumpTarget := o.jumpTarget
    isJump := o.isJump
    writeRd := o.writeRd
    readMem := o.readMem
    writeMem := o.writeMem
    csrWrite := o.csrWrite
    csrNew := o.csrNew }

theorem Decoded.fill_withOutputs (d o : Decoded) (x : RegIdx → Word) :
    (d.withOutputs o).fill x = (d.fill x).withOutputs o := rfl

theorem csrAccess_done {cfg : Config} {c : Core} {a : CsrAddr} {writes : Bool} {f : Word → Word}
    {d : Decoded} (h : csrAccess cfg c a writes f = .done d) :
    implementsCsr cfg a = true ∧ d = c.d.withOutputs d := by
  unfold csrAccess at h
  split at h
  · next ha => cases h; exact ⟨ha, rfl⟩
  · cases h

/-- An EXECUTE block writes the output fields of the record only. -/
theorem executeBlock_outputs {i : Instr} {cfg : Config} {c : Core} {d : Decoded}
    (h : executeBlock i cfg c = .done d) : d = c.d.withOutputs d := by
  cases i with
  | csrrw | csrrs | csrrc | csrrwi | csrrsi | csrrci =>
    simp only [executeBlock, xCsrrw, xCsrrs, xCsrrc, xCsrrwi, xCsrrsi, xCsrrci] at h
    exact (csrAccess_done h).2
  | ecall => cases h
  | _ => cases h; rfl

/-- An instruction that asks for a CSR write has that CSR's address in its word, and it is
implemented. -/
theorem executeBlock_csrWrite {i : Instr} {cfg : Config} {c : Core} {d : Decoded}
    (h : executeBlock i cfg c = .done d) (hw : d.csrWrite = true) :
    implementsCsr cfg (csrOf (encode i)) = true := by
  cases i with
  | csrrw | csrrs | csrrc | csrrwi | csrrsi | csrrci =>
    simp only [executeBlock, xCsrrw, xCsrrs, xCsrrc, xCsrrwi, xCsrrsi, xCsrrci] at h
    rw [encode, csrOf_encI]
    exact (csrAccess_done h).1
  | ecall => cases h
  | _ => cases h; cases hw

/-! ### The CSR file (10_state.md R40) -/

/-- The file holds values for addresses of `CSR_SET` only, in canonical form. -/
def CsrFile.Canonical (cfg : Config) (f : CsrFile) : Prop :=
  Cells.wf 0 f.extra ∧
    ∀ e ∈ f.extra, ∃ a : CsrAddr, e.1 = a.toNat ∧ cfg.csrSet.contains a = true

theorem CsrFile.Canonical.of_extra {cfg : Config} {f f' : CsrFile} (h : f.Canonical cfg)
    (he : f'.extra = f.extra) : f'.Canonical cfg := by
  rw [CsrFile.Canonical, he]
  exact h

theorem CsrFile.Canonical.write {cfg : Config} {f : CsrFile} (h : f.Canonical cfg) {a : CsrAddr}
    (ha : implementsCsr cfg a = true) (v : Word) : (f.write a v).Canonical cfg := by
  unfold CsrFile.write
  split_ifs with h300 h304 h341 h342 h344
  case neg =>
    refine ⟨Cells.wf_set 0 a.toNat v f.extra h.1, fun e he => ?_⟩
    obtain ⟨rfl, -⟩ | he := Cells.mem_set 0 a.toNat v f.extra e he
    · exact ⟨a, rfl, by simpa [implementsCsr, show a ≠ 833#12 from h341, show a ≠ 834#12 from h342]
        using ha⟩
    · exact h.2 e he
  all_goals exact h.of_extra rfl

/-! ### A core (10_state.md R28 to R32, 60_exceptions.md R301 to R314) -/

/-- The record is that of its word and of the registers, after a DECODE that did not raise. -/
def Core.RecordFilled (c : Core) : Prop := c.d.fill c.x = c.d ∧ c.d.opType ≠ .Unknown

/-- The record is one that EXECUTE has left. -/
def Core.RecordExecuted (cfg : Config) (c : Core) : Prop :=
  (∃ i, decodeWord c.d.ir = .ok i) ∧ (c.d.readMem && c.d.writeMem) = false ∧
    (c.d.csrWrite = true → implementsCsr cfg c.d.csr = true)

section
variable {cfg : Config} {c c' : Core}

/-- A core that raises. -/
theorem Core.Ok.raised (h : c.Ok cfg) (e : Cause) (hq : c'.prefetch = c.prefetch)
    (hcsr : c'.csr = c.csr) (hh : c'.halted = false) : ((c'.raise e).tick cfg).Ok cfg where
  trapState := by simp
  queue := by simpa [hq] using h.queue
  cycle := Nat.mod_lt _ (Nat.two_pow_pos _)
  csrExtra := by simpa [hcsr] using h.csrExtra
  halted := by simp [hh]
  inTrap := by simp
  record := by simp
  executed := by simp

/-- A core that goes on to a stage outside TRAP. -/
theorem Core.Ok.advanced {next : Stage} (hnext : next ≠ .trap) (hts : c'.trapState = .none)
    (hq : c'.prefetch.length ≤ cfg.prefetchDepth) (hcsr : c'.csr.Canonical cfg)
    (hh : c'.halted = false)
    (hrecord : next = .execute ∨ next = .memory ∨ next = .writeback → c'.RecordFilled)
    (hexecuted : next = .memory ∨ next = .writeback → c'.RecordExecuted cfg) :
    Core.Ok cfg { c'.tick cfg with stage := next } where
  trapState := by simp [hts, hnext]
  queue := hq
  cycle := Nat.mod_lt _ (Nat.two_pow_pos _)
  csrExtra := hcsr
  halted := by simp [hh]
  inTrap := by simp [hts]
  record := hrecord
  executed := hexecuted

theorem Core.Ok.enterTrap (h : c.Ok cfg) (hh : c.halted = false) : (c.enterTrap cfg).Ok cfg where
  trapState := by simp
  queue := by simp
  cycle := Nat.mod_lt _ (Nat.two_pow_pos _)
  csrExtra := CsrFile.Canonical.of_extra h.csrExtra (CsrFile.extra_write_trap ..)
  halted := by simp [hh]
  inTrap _ := ⟨rfl, rfl, rfl, rfl, fun r _ => snapshot_set c.regs r⟩
  record := by simp
  executed := by simp

/-- The answer writes slot 10 of the snapshot, if it has a value for it (60_exceptions.md R312). -/
theorem answerTrap_snapshot (cfg : Config) (continue_ : Bool) (a0 : Option Word) (c : Core)
    (r : RegIdx) : (c.answerTrap cfg continue_ a0).trap.snapshot[r.toNat] =
      if r = 10 then a0.getD c.trap.snapshot[10] else c.trap.snapshot[r.toNat] := by
  have hslot : 10 = r.toNat ↔ r = 10 :=
    ⟨fun h => BitVec.eq_of_toNat_eq h.symm, fun h => by rw [h]; rfl⟩
  cases a0 with
  | none =>
    split
    · next hr => subst hr; rfl
    · rfl
  | some v =>
    show (c.trap.snapshot.set 10 v)[r.toNat] = _
    rw [Vector.getElem_set]
    simp only [hslot, Option.getD_some]

theorem Core.Ok.answerTrap (h : c.Ok cfg) (hs : c.stage = .trap) (ht : c.trapState = .handle)
    (continue_ : Bool) (a0 : Option Word) : (c.answerTrap cfg continue_ a0).Ok cfg where
  trapState := by cases continue_ <;> simp [hs]
  queue := h.queue
  cycle := Nat.mod_lt _ (Nat.two_pow_pos _)
  csrExtra := h.csrExtra
  halted := by cases continue_ <;> simp [hs]
  inTrap _ := by
    obtain ⟨hpc, hq, hmepc, hmcause, hsnap⟩ := h.inTrap (.inl ht)
    refine ⟨hpc, hq, hmepc, hmcause, fun r hr => ?_⟩
    rw [answerTrap_snapshot, if_neg hr]
    exact hsnap r hr
  record := by simp [hs]
  executed := by simp [hs]

theorem Core.Ok.exitTrap (h : c.Ok cfg) (hh : c.halted = false) : (c.exitTrap cfg).Ok cfg where
  trapState := by simp
  queue := by simp
  cycle := Nat.mod_lt _ (Nat.two_pow_pos _)
  csrExtra := h.csrExtra
  halted := by simp [hh]
  inTrap := by simp
  record := by simp
  executed := by simp

/-- What the host's operations returned is no part of the invariant. -/
theorem Core.Ok.hostResults (h : c.Ok cfg) (rs : List HostResult) :
    Core.Ok cfg { c with hostResults := rs } :=
  ⟨h.trapState, h.queue, h.cycle, h.csrExtra, h.halted, h.inTrap, h.record, h.executed⟩

theorem Core.RecordFilled.fill (hu : typeTable (opcodeOf c.d.ir) ≠ .Unknown) :
    Core.RecordFilled { c with d := c.d.fill c.x } := ⟨rfl, hu⟩

theorem Core.RecordFilled.withOutputs (h : c.RecordFilled) (o : Decoded) :
    Core.RecordFilled { c with d := c.d.withOutputs o } :=
  ⟨(c.d.fill_withOutputs o c.x).trans (congrArg (·.withOutputs o) h.1), h.2⟩

/-- EXECUTE of a filled record leaves a filled record of an instruction. -/
theorem recordExecuted_of_executeWord (h : c.RecordFilled) {d : Decoded}
    (hd : executeWord cfg c = .done d) :
    Core.RecordFilled { c with d := d } ∧ Core.RecordExecuted cfg { c with d := d } := by
  cases hi : decodeWord c.d.ir with
  | error e =>
    rw [executeWord_error hi] at hd
    cases hd
  | ok i =>
    rw [executeWord_ok hi] at hd
    have hout := executeBlock_outputs hd
    obtain ⟨hread, hwrite⟩ := executeBlock_asks hd
    have hcsr : d.csr = csrOf (encode i) := by
      rw [hout, (encodes_of_decodeWord hi).2]
      exact (congrArg Decoded.csr h.1).symm
    refine ⟨?_, ⟨i, ?_⟩, ?_, fun hw => ?_⟩
    · rw [hout]
      exact h.withOutputs d
    · rw [hout]
      exact hi
    · show (d.readMem && d.writeMem) = false
      rw [hread, hwrite, not_loadOf_and_storeOf]
    · show implementsCsr cfg d.csr = true
      rw [hcsr]
      exact executeBlock_csrWrite hd hw

end

/-! ### The machine -/

/-- A stage step of a core that is not halted keeps what holds of the MemoryUnit and of the core. -/
theorem StageMove.keeps_ok {s t : State} (h : StageMove s t) (hh : s.core.halted = false)
    (hmu : s.mu.Ok s.cfg) (hc : s.core.Ok s.cfg) : t.mu.Ok s.cfg ∧ t.core.Ok s.cfg := by
  have hnone : s.core.stage ≠ .trap → s.core.trapState = .none := hc.trapState.2
  cases h with
  | fetchQueued w rest hs hq =>
    have hlen := hc.queue
    rw [hq, List.length_cons] at hlen
    exact ⟨hmu, .advanced (by decide) (hnone (by simp [hs])) (Nat.le_of_succ_le hlen) hc.csrExtra hh
      (by simp) (by simp)⟩
  | fetchRefilled ws hs hq hr =>
    have hlen : ws.tail.length ≤ s.cfg.prefetchDepth := by
      rw [List.length_tail, fetchRefill_length hr]
      exact Nat.sub_le ..
    exact ⟨hmu, .advanced (by decide) (hnone (by simp [hs])) hlen hc.csrExtra hh (by simp)
      (by simp)⟩
  | fetchFailed | loadFailed | storeFailed => exact ⟨hmu, hc.raised _ rfl rfl hh⟩
  | decoded hs =>
    unfold State.decodeStage
    split
    · exact ⟨hmu, hc.raised _ rfl rfl hh⟩
    · next hu =>
      exact ⟨hmu, .advanced (by decide) (hnone (by simp [hs])) hc.queue hc.csrExtra hh
        (fun _ => .fill hu) (by simp)⟩
  | executed hs =>
    cases hd : executeWord s.cfg s.core with
    | raised e => exact ⟨hmu, hc.raised _ rfl rfl hh⟩
    | done d =>
      obtain ⟨hfilled, hexecuted⟩ := recordExecuted_of_executeWord (hc.record (.inl hs)) hd
      exact ⟨hmu, .advanced (by decide) (hnone (by simp [hs])) hc.queue hc.csrExtra hh
        (fun _ => hfilled) (fun _ => hexecuted)⟩
  | loaded v hs =>
    have hfilled : s.core.RecordFilled := hc.record (.inr (.inl hs))
    exact ⟨hmu, .advanced (by decide) (hnone (by simp [hs])) hc.queue hc.csrExtra hh
      (fun _ => hfilled.withOutputs { s.core.d with
        aluOut := extendLoaded s.core.d.memSigned s.core.d.memWidth v })
      (fun _ => hc.executed (.inl hs))⟩
  | stored mu hs _ _ hm =>
    exact ⟨hmu.busWrite hm, .advanced (by decide) (hnone (by simp [hs])) hc.queue hc.csrExtra hh
      (fun _ => hc.record (.inr (.inl hs))) (fun _ => hc.executed (.inl hs))⟩
  | noAccess hs =>
    exact ⟨hmu, .advanced (by decide) (hnone (by simp [hs])) hc.queue hc.csrExtra hh
      (fun _ => hc.record (.inr (.inl hs))) (fun _ => hc.executed (.inl hs))⟩
  | wroteBack hs =>
    obtain ⟨-, -, himplemented⟩ := hc.executed (.inr hs)
    refine ⟨hmu, .advanced (by decide) (by simpa using hnone (by simp [hs])) ?_ ?_
      (by simpa using hh) (by simp) (by simp)⟩
    · rw [writeback_prefetch]
      split
      · exact Nat.zero_le _
      · exact hc.queue
    · rw [writeback_csr]
      split
      · next hw => exact CsrFile.Canonical.write hc.csrExtra (himplemented hw) _
      · exact hc.csrExtra
  | entered => exact ⟨hmu, hc.enterTrap hh⟩
  | answered continue_ a0 _ hs ht => exact ⟨hmu, hc.answerTrap hs ht continue_ a0⟩
  | hostActed _ _ _ _ _ _ _ ho => exact ⟨hmu.hostOp ho, hc.hostResults _⟩
  | exited => exact ⟨hmu, hc.exitTrap hh⟩

theorem inv_of_focus {k : Nat} {s s' : State} (h : s.Inv) (hf : s.focus k = some s') : s'.Inv := by
  obtain ⟨-, hcores, -, hmu, hcfg, -⟩ := focus_spec hf
  refine ⟨?_, ?_⟩
  · rw [hmu, hcfg]
    exact h.mu
  · rw [hcores, hcfg]
    exact h.cores

/-- A stage step of a core that is not halted keeps the invariant. -/
theorem inv_stageStep {s t : State} (h : s.Inv) (hh : s.core.halted = false)
    (hstep : s.stageStep = .next t) : t.Inv := by
  obtain ⟨hid, hok⟩ := h.cores _ _ (cores_current s)
  obtain ⟨hmu, hcore⟩ := (stageMove hstep).keeps_ok hh h.mu hok
  have hkept := besidesKept_stageStep hstep
  refine ⟨?_, fun k c hc => ?_⟩
  · rw [hkept.cfg]
    exact hmu
  · rw [hkept.cfg]
    by_cases hk : k = s.lower.length
    · subst hk
      rw [← hkept.lower, cores_current] at hc
      cases hc
      exact ⟨hkept.id.trans hid, hcore⟩
    · rw [cores_other hkept.lower hkept.upper hk] at hc
      exact h.cores k c hc

theorem inv_stageRun {n : Nat} {s t : State} (hr : StageRun n s t) (h : s.Inv) : t.Inv := by
  induction hr with
  | done => exact h
  | more hh hs _ ih => exact ih (inv_stageStep h hh hs)

/-- Settles O58. A step passes, or is a stage step or at most five stage steps of a core that is not
halted, and each keeps the invariant (`inv_stageStep`). -/
theorem stepKeepsInv : Obligations.StepKeepsInv := by
  intro s t h hstep
  obtain ⟨ks, rfl⟩ | ⟨ks, k, s', hf, hh, hmove⟩ := step_cases hstep
  · exact ⟨h.mu, h.cores⟩
  · have hs' : s'.Inv := inv_of_focus (s := { s with schedule := ks }) ⟨h.mu, h.cores⟩ hf
    obtain hstage | hrun := hmove
    · exact inv_stageStep hs' hh hstage
    · obtain ⟨n, -, -, hr⟩ := runsIn_runCore hh hrun
      exact inv_stageRun hr hs'

/-! ### Reset (10_state.md R56) -/

/-- Each core of a booted machine is at reset, numbered by its place. -/
theorem coresFrom_getElem {id k : Nat} {entries : List Word} {c : Core}
    (h : (coresFrom id entries)[k]? = some c) :
    ∃ entry, entries[k]? = some entry ∧ c = Core.reset (id + k) entry := by
  induction entries generalizing id k with
  | nil => cases h
  | cons entry entries ih =>
    cases k with
    | zero => cases h; exact ⟨entry, rfl, rfl⟩
    | succ k =>
      obtain ⟨e, he, rfl⟩ := ih h
      exact ⟨e, he, by rw [Nat.add_right_comm, Nat.add_assoc]⟩

theorem cores_boot (cfg : Config) :
    (State.boot cfg).cores = coresFrom 0 (cfg.entryPc :: cfg.entryPcMore) := rfl

theorem Core.Ok.reset (cfg : Config) (id : Nat) (entry : Word) : (Core.reset id entry).Ok cfg where
  trapState := by simp [Core.reset]
  queue := Nat.zero_le _
  cycle := Nat.two_pow_pos _
  csrExtra := by simp [Core.reset, CsrFile.reset, Cells.wf]
  halted := by simp [Core.reset]
  inTrap := by simp [Core.reset]
  record := by simp [Core.reset]
  executed := by simp [Core.reset]

/-- Settles O59. Every core is at reset (`coresFrom_getElem`), and the MemoryUnit as `init` leaves
it. -/
theorem resetInv : Obligations.ResetInv := by
  refine fun cfg => ⟨⟨wf_init cfg, ?_, ?_⟩, fun k c hc => ?_⟩
  · simp [State.boot, MemoryUnit.init]
  · simp [State.boot, MemoryUnit.init]
  · rw [cores_boot] at hc
    obtain ⟨entry, -, rfl⟩ := coresFrom_getElem hc
    exact ⟨Nat.zero_add k, .reset cfg _ entry⟩

end Sys2Proof.Machine
end

section
/-! Reset and registers (10_state.md R22, R23, R56), the MemoryUnit's operations (20_memory.md R61
to R70) and the bus transactions (R81 to R93), condition by condition. -/

namespace Sys2Proof.Machine

/-! ### Reset and registers -/

theorem length_coresFrom (id : Nat) (entries : List Word) :
    (coresFrom id entries).length = entries.length := by
  induction entries generalizing id with
  | nil => rfl
  | cons entry entries ih => rw [coresFrom, List.length_cons, ih, List.length_cons]

theorem Core.x_reset (id : Nat) (entry : Word) (r : RegIdx) : (Core.reset id entry).x r = 0 := by
  simp [Core.x, Core.reset]

theorem CsrFile.read_reset (a : CsrAddr) : CsrFile.reset.read a = 0 := by
  simp [CsrFile.read, CsrFile.reset, Cells.get]

/-- Settles O1. Every core is at reset, numbered by its place (`coresFrom_getElem`). -/
theorem resetCores : Obligations.ResetCores := by
  refine fun cfg => ⟨?_, fun k c hc => ?_⟩
  · rw [cores_boot, length_coresFrom, List.length_cons, Config.nCores, Nat.add_comm]
  · rw [cores_boot] at hc
    obtain ⟨entry, hentry, rfl⟩ := coresFrom_getElem hc
    exact ⟨Nat.zero_add k, hentry, Core.x_reset _ _, rfl, rfl, rfl, rfl, rfl,
      fun r => Vector.getElem_replicate .., rfl, rfl, CsrFile.read_reset, _, _, rfl⟩

/-- Settles O2, by the definition of `init`. -/
theorem resetMemory : Obligations.ResetMemory :=
  ⟨rfl, fun _ _ _ => ⟨rfl, rfl, rfl, rfl, rfl, rfl⟩⟩

/-- Settles O3, by the law of a read after a write (`Core.x_setX`). -/
theorem registerZero : Obligations.RegisterZero := by
  refine fun c i r v => ⟨rfl, c.setX_zero v, fun hi => ?_, fun hr => ?_⟩
  · rw [Core.x_setX, if_pos ⟨rfl, hi⟩]
  · rw [Core.x_setX, if_neg fun h => hr h.1]

/-! ### Reads of the MemoryUnit (R61, R67, R70) -/

section
variable {cfg : Config} {mu mu' : MemoryUnit} {need : List Access} {a len : Nat} {bs : List Byte}

theorem inBounds_false (h : ¬InBounds mu a len) : mu.inBounds a len = false :=
  Bool.eq_false_iff.2 fun hb => h ((inBounds_iff ..).1 hb)

theorem allow_false {acc : Access} (h : ¬Permitted mu acc a len) : mu.allow [acc] a len = false :=
  Bool.eq_false_iff.2 fun hp => h ((allow_iff_permitted ..).1 hp)

theorem read_outside (h : ¬InBounds mu a len) : mu.read need a len = .pageFault := by
  simp [MemoryUnit.read, inBounds_false h]

theorem read_denied (hb : InBounds mu a len) (hp : ¬Permitted mu .read a len) :
    mu.read [.read] a len = .denied := by
  simp [MemoryUnit.read, (inBounds_iff ..).2 hb, allow_false hp]

theorem read_permitted (hb : InBounds mu a len) (hp : Permitted mu .read a len) :
    mu.read [.read] a len = .ok (mu.bytesAt a len) := by
  simp [MemoryUnit.read, (inBounds_iff ..).2 hb, (allow_iff_permitted ..).2 hp]

/-- A range with a byte that has no READ cannot be read. -/
theorem read_ne_ok {b n c : Nat} (hb : b ≤ c) (hc : c < b + n) (hp : (mu.permAt c).read = false)
    (r : List Byte) : mu.read [.read] b n ≠ .ok r := by
  have hnot : ¬Permitted mu .read b n := fun h => by
    have := h (c - b) (by omega)
    rw [Nat.add_sub_cancel' hb, permOk, hp] at this
    cases this
  by_cases hbounds : InBounds mu b n
  · rw [read_denied hbounds hnot]; simp
  · rw [read_outside hbounds]; simp

/-! ### Writes of the MemoryUnit (R66, R68, R70) -/

theorem write_outside (h : ¬InBounds mu a bs.length) : mu.write cfg a bs = .pageFault := by
  simp [MemoryUnit.write, inBounds_false h]

theorem write_denied (hb : InBounds mu a bs.length) (hp : ¬Permitted mu .write a bs.length) :
    mu.write cfg a bs = .denied := by
  simp [MemoryUnit.write, (inBounds_iff ..).2 hb, allow_false hp]

theorem write_permitted (hb : InBounds mu a bs.length) (hp : Permitted mu .write a bs.length) :
    mu.write cfg a bs = .ok (mu.storeBytes cfg a bs) := by
  simp [MemoryUnit.write, (inBounds_iff ..).2 hb, (allow_iff_permitted ..).2 hp]

theorem write_ok (h : mu.write cfg a bs = .ok mu') :
    InBounds mu a bs.length ∧ mu' = mu.storeBytes cfg a bs := by
  obtain ⟨-, hw⟩ | ⟨-, -, hw⟩ | ⟨hb, -, hw⟩ := write_cases cfg mu a bs
  · rw [hw] at h; cases h
  · rw [hw] at h; cases h
  · rw [hw] at h; cases h
    exact ⟨(inBounds_iff ..).1 hb, rfl⟩

/-- A store of any bytes is what `StoredBytes` says. -/
theorem storedBytes_storeBytes (hm : Memory.wf mu) {n : Nat} {byte : Nat → Byte}
    (hn : bs.length = n) (hbyte : ∀ k, k < n → bs.getD k 0 = byte k) :
    StoredBytes cfg mu (mu.storeBytes cfg a bs) a n byte := by
  subst hn
  obtain ⟨hbytes, hpromoted, hotherBytes, hotherPerms, hdirty⟩ := storeBytes_spec cfg hm a bs
  obtain ⟨hbase, hsize, hcurr, hfresh⟩ := storeBytes_bounds cfg mu a bs
  exact ⟨fun k hk => (hbytes k hk).trans (hbyte k hk), hpromoted, hotherBytes, hotherPerms, hdirty,
    hbase, hsize, hcurr, hfresh⟩

/-- A byte that was readable or RAW is readable once it has been stored. -/
theorem StoredBytes.readable {byte : Nat → Byte} (h : StoredBytes cfg mu mu' a len byte) {k : Nat}
    (hk : k < len) (hp : (mu.permAt (a + k)).read = true ∨ (mu.permAt (a + k)).raw = true) :
    permOk (mu'.permAt (a + k)) .read = true := by
  rw [h.promoted k hk]
  cases hraw : (mu.permAt (a + k)).raw with
  | true => rfl
  | false => simpa [hraw, permOk] using hp

theorem StoredBytes.inBounds {byte : Nat → Byte} (h : StoredBytes cfg mu mu' a len byte) {b n : Nat}
    (hb : InBounds mu b n) : InBounds mu' b n := by
  rw [InBounds, h.base, h.size]
  exact hb

end

/-- Settles O5, by the three answers of a read. -/
theorem memoryRead : Obligations.MemoryRead := by
  refine ⟨fun p => ⟨Iff.rfl, Bool.or_eq_true_iff, Iff.rfl⟩, fun mu a len =>
    ⟨read_outside, fun hb => ⟨read_denied hb, fun hp => ?_⟩⟩⟩
  rw [read_permitted hb hp, bytesAt_eq_map]

/-- Settles O6, by the three answers of a write and what a store leaves (`storedBytes_storeBytes`).
-/
theorem memoryWrite : Obligations.MemoryWrite := by
  refine fun cfg mu a bs hm => ⟨write_outside, fun hb => ⟨write_denied hb, fun hp => ?_⟩⟩
  have hs : StoredBytes cfg mu (mu.storeBytes cfg a bs) a bs.length fun k => bs.getD k 0 :=
    storedBytes_storeBytes hm rfl fun _ _ => rfl
  exact ⟨_, write_permitted hb hp, hs.bytes, hs.otherBytes, hs.promoted, hs.otherPerms, hs.dirty,
    hs.base, hs.size, hs.currVaddr⟩

/-- Settles O7. Every byte of a store is readable after it if it was readable or RAW
(`StoredBytes.readable`), and a byte outside keeps its permission. -/
theorem rawPromotion : Obligations.RawPromotion := by
  intro cfg mu mu' a bs hm hw
  obtain ⟨hb, rfl⟩ := write_ok hw
  have hs : StoredBytes cfg mu (mu.storeBytes cfg a bs) a bs.length fun k => bs.getD k 0 :=
    storedBytes_storeBytes hm rfl fun _ _ => rfl
  refine ⟨fun hp => ?_, fun b n c hbc hcn hread => ⟨read_ne_ok hbc hcn hread, fun hout => ?_⟩⟩
  · rw [read_permitted (hs.inBounds hb) fun k hk => hs.readable hk (hp k hk), bytesAt_eq_map]
    congr 1
    refine List.ext_getElem (by simp) fun k hk hk' => ?_
    rw [List.getElem_map, List.getElem_range, hs.bytes k hk', List.getD_eq_getElem _ _ hk']
  · exact read_ne_ok hbc hcn (by rw [hs.otherPerms c hout]; exact hread)

/-! ### The operations of the host (R63, R64, R65) -/

/-- Settles O8. The arena grows to the range's end (`grow_spec`), and then the range gets its
permission (`fillPerm_permAt`). -/
theorem addMemory : Obligations.AddMemory := by
  refine fun cfg mu addr size p hm => ⟨fun hfail => ?fails, fun hbase hlimit hspace => ?grows⟩
  case fails =>
    unfold MemoryUnit.addMemory
    split
    · rfl
    · next hbase => rw [if_pos (hfail.resolve_left hbase)]
  case grows =>
    have hl : mu.limit = mu.base + mu.size := rfl
    obtain ⟨gbase, gsize, gcurr, gdirty, gbytes, gperms⟩ := grow_spec hm (addr + size - mu.limit)
    obtain ⟨fbase, fsize, fdata, fdirty, fcurr, -⟩ :=
      fillPerm_rest (mu.grow (addr + size - mu.limit)) p addr size
    refine ⟨(mu.grow (addr + size - mu.limit)).fillPerm p addr size, ?_, fbase.trans gbase,
      ?_, fcurr.trans gcurr, fdirty.trans gdirty, fun a ha => ?_, fun a => ?_⟩
    · rw [MemoryUnit.addMemory, if_neg (by omega), if_neg (by omega)]
    · rw [fsize, gsize]; omega
    · rw [MemoryUnit.byteAt, fdata]
      exact gbytes a (by omega)
    · rw [fillPerm_permAt (wf_grow hm _), gperms]
      split
      · rfl
      · exact if_congr (by omega) rfl rfl

theorem alignUp16_eq {size n : Nat} (hmod : n % 16 = 0) (hle : size ≤ n) (hlt : n < size + 16) :
    alignUp16 size = n := by
  unfold alignUp16
  omega

/-- Settles O9, by what `fillPerm` does to the permissions (`fillPerm_permAt`) and keeps
(`fillPerm_rest`). -/
theorem allocateAndSetPerm : Obligations.AllocateAndSetPerm := by
  refine fun mu size n p hm => ⟨fun hmod hle hlt => ⟨fun hfail => ?_, fun hend hspace => ?_⟩,
    fun addr len => ⟨fun hb => ?_, fun hb => ?_⟩⟩
  · rw [MemoryUnit.allocate, alignUp16_eq hmod hle hlt]
    exact if_pos hfail
  · obtain ⟨hbase, hsize, hdata, hdirty, -⟩ := fillPerm_rest mu p mu.currVaddr size
    have hl : mu.limit = mu.base + mu.size := rfl
    rw [MemoryUnit.allocate, alignUp16_eq hmod hle hlt, if_neg (by omega)]
    exact ⟨_, rfl, rfl, hdata, hdirty, hbase, hsize, fillPerm_permAt hm p mu.currVaddr size⟩
  · simp [MemoryUnit.setPerm, inBounds_false hb]
  · obtain ⟨hbase, hsize, hdata, hdirty, hcurr, -⟩ := fillPerm_rest mu p addr len
    refine ⟨mu.fillPerm p addr len, ?_, hdata, hdirty, hbase, hsize, hcurr,
      fillPerm_permAt hm p addr len⟩
    simp [MemoryUnit.setPerm, (inBounds_iff ..).2 hb]

/-! ### The bus (R81, R86, R87, R92, R93) -/

theorem covers_iff (dev : Device) (a : Nat) :
    covers dev a = true ↔ dev.base ≤ a ∧ a < dev.base + dev.size := by
  simp [covers]

/-- Settles O10. `find_device` is the list search for the first device that covers the address. -/
theorem firstDeviceWins : Obligations.FirstDeviceWins := by
  refine fun cfg addr => ⟨fun dev => ?_, ?_⟩
  · rw [findDevice, List.find?_eq_some_iff_append, covers_iff]
    simp only [Bool.not_eq_true', Bool.eq_false_iff, ne_eq, covers_iff]
    constructor
    · rintro ⟨⟨hlo, hhi⟩, before, after, hmap, hfirst⟩
      exact ⟨before, after, hmap, hlo, hhi, hfirst⟩
    · rintro ⟨before, after, hmap, hlo, hhi, hfirst⟩
      exact ⟨⟨hlo, hhi⟩, before, after, hmap, hfirst⟩
  · rw [findDevice, List.find?_eq_none]
    simp only [covers_iff]

/-- The answers of a data read, in the order of R87, whatever is made of its bytes. -/
theorem busRead_order {α : Type} (cfg : Config) (mu : MemoryUnit) (t : Transfer) (addr : Word)
    (w : Width) (len : Nat) (f : List Byte → α) {r : BusResult α}
    (hr : r = (busRead cfg mu t [.read] addr w len).map f) :
    (addr.toNat % w.bytes ≠ 0 → r = .fail .readMisaligned) ∧
    (addr.toNat % w.bytes = 0 →
      (findDevice cfg addr = none → r = .fail .addressNotFound) ∧
      ∀ dev, findDevice cfg addr = some dev →
        (dev.kind.memoryBacked = false → r = .noRule dev.kind) ∧
        (dev.kind.memoryBacked = true →
          (¬(t.inDevice mu dev addr len = true ∧ InBounds mu (deviceAddr mu dev addr) len) →
            r = .fail .deviceFailure) ∧
          (t.inDevice mu dev addr len = true → InBounds mu (deviceAddr mu dev addr) len →
            (¬Permitted mu .read (deviceAddr mu dev addr) len → r = .fail .accessDenied) ∧
            (Permitted mu .read (deviceAddr mu dev addr) len →
              r = .ok (f (mu.bytesAt (deviceAddr mu dev addr) len)))))) := by
  subst hr
  refine ⟨fun ha => ?_, fun ha => ⟨fun hd => ?_, fun dev hd => ⟨fun hb => ?_, fun hb =>
    ⟨fun hout => ?_, fun ht hin => ⟨fun hp => ?_, fun hp => ?_⟩⟩⟩⟩⟩
  · rw [busRead_misaligned ha, BusResult.map]
  · rw [busRead_notFound ha hd, BusResult.map]
  · rw [busRead_noRule ha hd hb, BusResult.map]
  · cases ht : t.inDevice mu dev addr len with
    | false => rw [busRead_beyond ha hd hb ht, BusResult.map]
    | true =>
      rw [busRead_device ha hd hb ht, read_outside fun hin => hout ⟨ht, hin⟩, BusResult.ofMu,
        BusResult.map]
  · rw [busRead_device ha hd hb ht, read_denied hin hp, BusResult.ofMu, BusResult.map]
  · rw [busRead_device ha hd hb ht, read_permitted hin hp, BusResult.ofMu, BusResult.map]

/-- The answers of a write, in the order of R86 and R87. -/
theorem busWrite_order (cfg : Config) (mu : MemoryUnit) (t : Transfer) (addr : Word) (w : Width)
    (bs : List Byte) {n : Nat} (hn : bs.length = n) {r : BusResult MemoryUnit}
    (hr : r = busWrite cfg mu t addr w bs) :
    (addr.toNat % w.bytes ≠ 0 → r = .fail .writeMisaligned) ∧
    (addr.toNat % w.bytes = 0 →
      (findDevice cfg addr = none → r = .fail .addressNotFound) ∧
      ∀ dev, findDevice cfg addr = some dev →
        (dev.writeFlag = false → r = .fail .accessDenied) ∧
        (dev.writeFlag = true → dev.kind.memoryBacked = false → r = .noRule dev.kind) ∧
        (dev.writeFlag = true → dev.kind.memoryBacked = true →
          (¬(t.inDevice mu dev addr n = true ∧ InBounds mu (deviceAddr mu dev addr) n) →
            r = .fail .deviceFailure) ∧
          (t.inDevice mu dev addr n = true → InBounds mu (deviceAddr mu dev addr) n →
            (¬Permitted mu .write (deviceAddr mu dev addr) n → r = .fail .accessDenied) ∧
            (Permitted mu .write (deviceAddr mu dev addr) n →
              r = .ok (mu.storeBytes cfg (deviceAddr mu dev addr) bs))))) := by
  subst hr hn
  refine ⟨busWrite_misaligned, fun ha => ⟨busWrite_notFound ha, fun dev hd =>
    ⟨busWrite_readOnly ha hd, busWrite_noRule ha hd, fun hf hb =>
    ⟨fun hout => ?_, fun ht hin => ⟨fun hp => ?_, fun hp => ?_⟩⟩⟩⟩⟩
  · cases ht : t.inDevice mu dev addr bs.length with
    | false => exact busWrite_beyond ha hd hf hb ht
    | true =>
      rw [busWrite_device ha hd hf hb ht, write_outside fun hin => hout ⟨ht, hin⟩, BusResult.ofMu]
  · rw [busWrite_device ha hd hf hb ht, write_denied hin hp, BusResult.ofMu]
  · rw [busWrite_device ha hd hf hb ht, write_permitted hin hp, BusResult.ofMu]

theorem getD_unitsOfBytes_bytesAt (mu : MemoryUnit) (a n : Nat) {count j : Nat} (hj : j < count) :
    (unitsOfBytes n count (mu.bytesAt a (count * n))).getD j 0 =
      wordOfBytes (mu.bytesAt (a + j * n) n) := by
  rw [unitsOfBytes_bytesAt, List.getD_eq_getElem _ _ (by simpa using hj), List.getElem_map,
    List.getElem_range]

theorem length_flatMap_bytesOfWord (n : Nat) (vs : List Word) :
    (vs.flatMap (bytesOfWord n)).length = vs.length * n := by
  simp [List.length_flatMap]

/-- Settles O11. Both transactions answer in one order (`busRead_order`); the values are those of
the range's bytes (`wordOfBytes_bytesAt`). -/
theorem busReadOrder : Obligations.BusReadOrder := by
  refine ⟨fun cfg mu addr w => ?single, fun cfg mu addr count w => ?multi⟩
  case single =>
    obtain ⟨hmis, hord⟩ := busRead_order cfg mu .single addr w w.bytes wordOfBytes rfl
    refine ⟨hmis, fun ha => ⟨(hord ha).1, fun dev hd => ?_⟩⟩
    obtain ⟨hrule, hbacked⟩ := (hord ha).2 dev hd
    refine ⟨hrule, fun hb => ?_⟩
    obtain ⟨hout, hin⟩ := hbacked hb
    refine ⟨fun h => hout fun h' => h h'.2, fun h => ⟨(hin rfl h).1, fun hp => ?_⟩⟩
    exact ⟨_, (hin rfl h).2 hp, wordOfBytes_bytesAt mu _ w⟩
  case multi =>
    obtain ⟨hmis, hord⟩ := busRead_order cfg mu .multi addr w (count * w.bytes)
      (unitsOfBytes w.bytes count) rfl
    refine ⟨hmis, fun ha => ⟨(hord ha).1, fun dev hd => ?_⟩⟩
    obtain ⟨hrule, hbacked⟩ := (hord ha).2 dev hd
    refine ⟨hrule, fun hb => ?_⟩
    obtain ⟨hout, hin⟩ := hbacked hb
    refine ⟨fun h => hout fun h' => h (and_assoc.1 ⟨(inDevice_multi_iff ..).1 h'.1, h'.2⟩),
      fun hdev hspace h => ?_⟩
    have ht := (inDevice_multi_iff mu dev addr _).2 ⟨hdev, hspace⟩
    refine ⟨(hin ht h).1, fun hp => ?_⟩
    refine ⟨_, (hin ht h).2 hp, length_unitsOfBytes .., fun j hj => ?_⟩
    rw [getD_unitsOfBytes_bytesAt _ _ _ hj]
    exact wordOfBytes_bytesAt mu _ w

/-- Settles O12. Both transactions answer in one order (`busWrite_order`), and what a write stores
is said once (`storedBytes_storeBytes`). -/
theorem busWriteOrder : Obligations.BusWriteOrder := by
  refine ⟨fun cfg mu addr w v hm => ?single, fun cfg mu addr w vs hm => ?multi⟩
  case single =>
    obtain ⟨hmis, hord⟩ := busWrite_order cfg mu .single addr w (bytesOfWord w.bytes v)
      (length_bytesOfWord ..) rfl
    refine ⟨hmis, fun ha => ⟨(hord ha).1, fun dev hd => ?_⟩⟩
    obtain ⟨hflag, hrule, hbacked⟩ := (hord ha).2 dev hd
    refine ⟨hflag, hrule, fun hf hb => ?_⟩
    obtain ⟨hout, hin⟩ := hbacked hf hb
    refine ⟨fun h => hout fun h' => h h'.2, fun h => ⟨(hin rfl h).1, fun hp => ?_⟩⟩
    exact ⟨_, (hin rfl h).2 hp, stored_storeBytes cfg hm _ _ v⟩
  case multi =>
    obtain ⟨hmis, hord⟩ := busWrite_order cfg mu .multi addr w (vs.flatMap (bytesOfWord w.bytes))
      (length_flatMap_bytesOfWord ..) rfl
    refine ⟨hmis, fun ha => ⟨(hord ha).1, fun dev hd => ?_⟩⟩
    obtain ⟨hflag, hrule, hbacked⟩ := (hord ha).2 dev hd
    refine ⟨hflag, hrule, fun hf hb => ?_⟩
    obtain ⟨hout, hin⟩ := hbacked hf hb
    refine ⟨fun h => hout fun h' => h (and_assoc.1 ⟨(inDevice_multi_iff ..).1 h'.1, h'.2⟩),
      fun hdev hspace h => ?_⟩
    have ht := (inDevice_multi_iff mu dev addr _).2 ⟨hdev, hspace⟩
    refine ⟨(hin ht h).1, fun hp => ?_⟩
    exact ⟨_, (hin ht h).2 hp, storedBytes_storeBytes hm (length_flatMap_bytesOfWord ..)
      (getD_flatMap_bytesOfWord w vs)⟩

end Sys2Proof.Machine
end

section
/-! The instructions whose rules the earlier parts leave: the unsigned comparisons, the bitwise
operations and the zero-filling shifts (41_integer_computational.md), JALR and the comparing
branches (42_control_transfer.md), the loads and the stores (43_load_store.md), and the system
instructions (44_system.md). Each family's shared EXECUTE block is put through the stages once. -/

namespace Sys2Proof.Machine

/-! ### Integer computational instructions -/

theorem boolWord_lessUnsigned (a b : Word) :
    boolWord (lessUnsigned a b) = if a.toNat < b.toNat then 1 else 0 := by
  simp [boolWord, lessUnsigned, BitVec.ult]

/-- Settles O21, by the law of the unsigned comparison (`boolWord_lessUnsigned`). -/
theorem compareUnsigned : Obligations.CompareUnsigned := by
  intro s rd rs1 rs2 imm
  refine ⟨?sltiu, ?sltu⟩
  case sltiu =>
    refine aluRule_of_writeResult (fun _ _ => rfl) (fun c => ?_) (rdOf_encI ..) (by simp [encode])
    rw [boolWord_lessUnsigned, imm12_eq]
  case sltu =>
    exact aluRule_of_writeResult (fun _ _ => rfl) (fun c => boolWord_lessUnsigned c.d.rs1v c.d.rs2v)
      (rdOf_encR ..) (by simp [encode])

/-- An immediate instruction whose block combines its register with the sign-extended immediate. -/
theorem aluRule_immediate {i : Instr} {rd rs1 : RegIdx} {imm : BitVec 12} {f3 : BitVec 3}
    {op : BitVec 7} {f : Word → Word → Word} {s : State} (he : encode i = encI imm rs1 f3 rd op)
    (hb : ∀ cfg c, executeBlock i cfg c = writeResult c (f c.d.rs1v (imm12 imm))) :
    AluRule i rd rs1 0 (fun _ a _ => f a (BitVec.ofInt 32 (immValue imm))) s :=
  aluRule_of_writeResult hb (fun c => by rw [imm12_eq]) (by rw [he, rdOf_encI])
    (by rw [he, rs1Of_encI])

/-- A register instruction whose block combines its two registers. -/
theorem aluRule_register {i : Instr} {rd rs1 rs2 : RegIdx} {f7 : BitVec 7} {f3 : BitVec 3}
    {op : BitVec 7} {f : Word → Word → Word} {s : State} (he : encode i = encR f7 rs2 rs1 f3 rd op)
    (hb : ∀ cfg c, executeBlock i cfg c = writeResult c (f c.d.rs1v c.d.rs2v)) :
    AluRule i rd rs1 rs2 (fun _ a b => f a b) s :=
  aluRule_of_writeResult hb (fun _ => rfl) (by rw [he, rdOf_encR])
    (by rw [he, rs1Of_encR, rs2Of_encR])

/-- Settles O22. Each of the six is a bitwise operation of the register with the immediate
(`aluRule_immediate`) or of two registers (`aluRule_register`). -/
theorem bitwise : Obligations.Bitwise := by
  intro s rd rs1 rs2 imm
  refine ⟨?xori, ?ori, ?andi, ?xor, ?or, ?and⟩
  case xori => exact aluRule_immediate (f := fun a b => a ^^^ b) rfl fun _ _ => rfl
  case ori => exact aluRule_immediate (f := fun a b => a ||| b) rfl fun _ _ => rfl
  case andi => exact aluRule_immediate (f := fun a b => a &&& b) rfl fun _ _ => rfl
  case xor => exact aluRule_register rfl fun _ _ => rfl
  case or => exact aluRule_register rfl fun _ _ => rfl
  case and => exact aluRule_register rfl fun _ _ => rfl

theorem shiftLeft_eq_mul (a : Word) (n : Nat) : a <<< n = BitVec.ofNat 32 (a.toNat * 2 ^ n) := by
  apply BitVec.eq_of_toNat_eq
  rw [BitVec.toNat_shiftLeft, BitVec.toNat_ofNat, Nat.shiftLeft_eq]

theorem ushiftRight_eq_div (a : Word) (n : Nat) : a >>> n = BitVec.ofNat 32 (a.toNat / 2 ^ n) := by
  apply BitVec.eq_of_toNat_eq
  rw [BitVec.toNat_ushiftRight, BitVec.toNat_ofNat, Nat.shiftRight_eq_div_pow,
    Nat.mod_eq_of_lt ((Nat.div_le_self ..).trans_lt a.isLt)]

/-- Settles O23. A left shift multiplies and a right shift divides by the power of 2; a register's
amount is taken modulo 32 (`shiftAmount_eq`). -/
theorem shiftLogical : Obligations.ShiftLogical := by
  intro s rd rs1 rs2 shamt
  refine ⟨?slli, ?srli, ?sll, ?srl⟩
  case slli =>
    exact aluRule_of_writeResult (fun _ _ => rfl) (fun c => shiftLeft_eq_mul c.d.rs1v _)
      (rdOf_encR ..) (by simp [encode])
  case srli =>
    exact aluRule_of_writeResult (fun _ _ => rfl) (fun c => ushiftRight_eq_div c.d.rs1v _)
      (rdOf_encR ..) (by simp [encode])
  case sll =>
    refine aluRule_of_writeResult (fun _ _ => rfl) (fun c => ?_) (rdOf_encR ..) (by simp [encode])
    rw [shiftLeft_eq_mul, shiftAmount_eq]
  case srl =>
    refine aluRule_of_writeResult (fun _ _ => rfl) (fun c => ?_) (rdOf_encR ..) (by simp [encode])
    rw [ushiftRight_eq_div, shiftAmount_eq]

/-! ### Control transfer -/

/-- Settles O26, by the rule of linking jumps (`retires_of_jumpAndLink`) at the target of JALR,
which DECODE's reading of the register gives. -/
theorem jalrLinksAndJumps : Obligations.JalrLinksAndJumps := by
  intro s rd rs1 imm
  refine retires_of_jumpAndLink ?_ (rdOf_encI ..)
  have hrs1 : (s.decoded (.jalr rd rs1 imm)).core.d.rs1v = s.core.x rs1 := by
    simp [State.decoded, encode]
  rw [← effectiveAddr_eq, ← hrs1]
  rfl

theorem not_lessSigned (a b : Word) : (!lessSigned a b) = decide (a.toInt ≥ b.toInt) := by
  rw [lessSigned, BitVec.slt, ← decide_not]
  exact decide_eq_decide.2 not_lt

theorem not_lessUnsigned (a b : Word) : (!lessUnsigned a b) = decide (a.toNat ≥ b.toNat) := by
  rw [lessUnsigned, BitVec.ult, ← decide_not]
  exact decide_eq_decide.2 not_lt

/-- Settles O28, by the rule of the branches (`branchRule_of_branchIf`) at the four comparisons. -/
theorem branchCompare : Obligations.BranchCompare := by
  intro s rs1 rs2 offset
  refine ⟨?blt, ?bge, ?bltu, ?bgeu⟩
  case blt =>
    exact branchRule_of_branchIf (test := fun a b => decide (a.toInt < b.toInt)) rfl
      fun _ _ => rfl
  case bge =>
    refine branchRule_of_branchIf (test := fun a b => decide (a.toInt ≥ b.toInt)) rfl fun _ c => ?_
    exact congrArg (branchIf c · offset) (not_lessSigned c.d.rs1v c.d.rs2v)
  case bltu =>
    exact branchRule_of_branchIf (test := fun a b => decide (a.toNat < b.toNat)) rfl
      fun _ _ => rfl
  case bgeu =>
    refine branchRule_of_branchIf (test := fun a b => decide (a.toNat ≥ b.toNat)) rfl fun _ c => ?_
    exact congrArg (branchIf c · offset) (not_lessUnsigned c.d.rs1v c.d.rs2v)

/-! ### Loads (43_load_store.md R250 to R255) -/

theorem executeBlock_of_loadOf {i : Instr} {rs1 : RegIdx} {imm : BitVec 12} {w : Width}
    (h : loadOf i = some (rs1, imm, w)) :
    rs1Of (encode i) = rs1 ∧ ∃ signed, ∀ cfg c, executeBlock i cfg c = loadFrom c imm w signed := by
  cases i with
  | lb | lh | lw | lbu | lhu => cases h; exact ⟨rs1Of_encI .., _, fun _ _ => rfl⟩
  | _ => cases h

section
variable {i : Instr} {rs1 : RegIdx} {imm : BitVec 12} {w : Width} (s : State)

/-- A load as a whole instruction, by the answer of its one bus transaction. -/
theorem load_answers {signed : Bool} (hrs1 : rs1Of (encode i) = rs1)
    (hb : ∀ cfg c, executeBlock i cfg c = loadFrom c imm w signed) :
    (∀ v, memRead s.cfg s.mu (effectiveAddr (s.core.x rs1) imm) w = .ok v →
      Retires i s (rdOf (encode i)) (extendLoaded signed w v) (s.core.pc + 4) s.core.prefetch) ∧
    (∀ st, memRead s.cfg s.mu (effectiveAddr (s.core.x rs1) imm) w = .fail st →
      Traps i s (loadCause st) 4) ∧
    (∀ k, memRead s.cfg s.mu (effectiveAddr (s.core.x rs1) imm) w = .noRule k →
      exec i s = .refused (.deviceWithoutRule k)) := by
  subst hrs1
  obtain ⟨hok, hfail, hrule⟩ := runInstr_load (s := s) (hb s.cfg (s.decoded i).core) rfl rfl rfl
    (rd := rdOf (encode i)) (fun r => by simp [State.decoded])
  rw [← exec_eq_runInstr] at hok hfail hrule
  exact ⟨hok, hfail, hrule⟩

/-- A load that reaches readable bytes. -/
theorem retires_load {signed : Bool} {rd : RegIdx} {v : Word} {dev : Device}
    (hrd : rdOf (encode i) = rd) (hrs1 : rs1Of (encode i) = rs1)
    (hb : ∀ cfg c, executeBlock i cfg c = loadFrom c imm w signed)
    (hr : Reaches s (effectiveAddr (s.core.x rs1) imm) w dev)
    (hp : Permitted s.mu .read (deviceAddr s.mu dev (effectiveAddr (s.core.x rs1) imm)) w.bytes)
    (hv : extendLoaded signed w (wordOfBytes (s.mu.bytesAt
      (deviceAddr s.mu dev (effectiveAddr (s.core.x rs1) imm)) w.bytes)) = v) :
    Retires i s rd v (s.core.pc + 4) s.core.prefetch := by
  rw [← hrd, ← hv]
  exact (load_answers s hrs1 hb).1 _ (memRead_reaches hr hp)

end

theorem extendLoaded_byteAt (mu : MemoryUnit) (a : Nat) (signed : Bool) :
    extendLoaded signed .byte (wordOfBytes (mu.bytesAt a 1)) =
      if signed then (mu.byteAt a).signExtend 32 else (mu.byteAt a).setWidth 32 := by
  simp [extendLoaded, MemoryUnit.bytesAt, wordOfBytes_one]

theorem extendLoaded_halfAt (mu : MemoryUnit) (a : Nat) (signed : Bool) :
    extendLoaded signed .halfword (wordOfBytes (mu.bytesAt a 2)) =
      if signed then (mu.halfAt a).signExtend 32 else (mu.halfAt a).setWidth 32 := by
  have hlow : (wordOfBytes (mu.bytesAt a 2)).setWidth 16 = mu.halfAt a := by
    simp only [MemoryUnit.bytesAt, wordOfBytes_two, MemoryUnit.halfAt]
    exact BitVec.setWidth_setWidth_of_le _ (by decide) |>.trans (BitVec.setWidth_eq _)
  rw [extendLoaded, hlow]

theorem extendLoaded_wordAt (mu : MemoryUnit) (a : Nat) (signed : Bool) :
    extendLoaded signed .word (wordOfBytes (mu.bytesAt a 4)) = mu.wordAt a := by
  simp only [extendLoaded, MemoryUnit.bytesAt, wordOfBytes_four, MemoryUnit.wordAt]

/-- Settles O29. A load that reaches readable bytes completes (`retires_load`), and the value is the
extension of its bytes. -/
theorem loadsComplete : Obligations.LoadsComplete := by
  intro s rd rs1 imm dev
  refine ⟨fun hr hp => ⟨?lb, ?lbu⟩, fun hr hp => ⟨?lh, ?lhu⟩, fun hr hp => ?lw⟩
  case lb =>
    exact retires_load s (rdOf_encI ..) (rs1Of_encI ..) (fun _ _ => rfl) hr hp
      (extendLoaded_byteAt s.mu _ true)
  case lbu =>
    exact retires_load s (rdOf_encI ..) (rs1Of_encI ..) (fun _ _ => rfl) hr hp
      (extendLoaded_byteAt s.mu _ false)
  case lh =>
    exact retires_load s (rdOf_encI ..) (rs1Of_encI ..) (fun _ _ => rfl) hr hp
      (extendLoaded_halfAt s.mu _ true)
  case lhu =>
    exact retires_load s (rdOf_encI ..) (rs1Of_encI ..) (fun _ _ => rfl) hr hp
      (extendLoaded_halfAt s.mu _ false)
  case lw =>
    exact retires_load s (rdOf_encI ..) (rs1Of_encI ..) (fun _ _ => rfl) hr hp
      (extendLoaded_wordAt s.mu _ false)

/-- Settles O30. The bus answers in the order of R87 (`busRead_order`), and a load traps with the
cause of that answer (`load_answers`). -/
theorem loadsTrap : Obligations.LoadsTrap := by
  intro s i rs1 imm w hload
  obtain ⟨hrs1, signed, hb⟩ := executeBlock_of_loadOf hload
  obtain ⟨-, hfail, hrule⟩ := load_answers s hrs1 hb
  obtain ⟨hmis, hord⟩ := busRead_order s.cfg s.mu .single (effectiveAddr (s.core.x rs1) imm) w
    w.bytes wordOfBytes rfl
  refine ⟨fun ha => hfail _ (hmis ha), fun ha => ⟨fun hd => hfail _ ((hord ha).1 hd),
    fun dev hd => ⟨fun hk => hrule _ (((hord ha).2 dev hd).1 hk), fun hk hnot => ?_⟩⟩⟩
  obtain ⟨hout, hin⟩ := ((hord ha).2 dev hd).2 hk
  by_cases hbounds : InBounds s.mu (deviceAddr s.mu dev (effectiveAddr (s.core.x rs1) imm)) w.bytes
  · exact hfail _ ((hin rfl hbounds).1 fun hp => hnot ⟨⟨ha, hd, hk, hbounds⟩, hp⟩)
  · exact hfail _ (hout fun h => hbounds h.2)

/-! ### Stores (43_load_store.md R256 to R259) -/

theorem executeBlock_of_storeOf {i : Instr} {rs1 : RegIdx} {imm : BitVec 12} {w : Width}
    (h : storeOf i = some (rs1, imm, w)) :
    rs1Of (encode i) = rs1 ∧ ∀ cfg c, executeBlock i cfg c = storeTo c imm w := by
  cases i with
  | sb | sh | sw => cases h; exact ⟨rs1Of_encS .., fun _ _ => rfl⟩
  | _ => cases h

section
variable {i : Instr} {rs1 : RegIdx} {imm : BitVec 12} {w : Width} (s : State)
  (h : storeOf i = some (rs1, imm, w))
include h

/-- A store as a whole instruction, by the answer of its one bus transaction. -/
theorem store_answers :
    (∀ mu, memWrite s.cfg s.mu (effectiveAddr (s.core.x rs1) imm) w
        (maskToWidth w (s.core.x (rs2Of (encode i)))) = .ok mu →
      ∃ t, exec i s = .next t ∧ Retired s t 0 0 (s.core.pc + 4) s.core.prefetch ∧
        t.core.csr = s.core.csr ∧ t.mu = mu) ∧
    (∀ st, memWrite s.cfg s.mu (effectiveAddr (s.core.x rs1) imm) w
        (maskToWidth w (s.core.x (rs2Of (encode i)))) = .fail st → Traps i s (storeCause st) 4) ∧
    (∀ k, memWrite s.cfg s.mu (effectiveAddr (s.core.x rs1) imm) w
        (maskToWidth w (s.core.x (rs2Of (encode i)))) = .noRule k →
      exec i s = .refused (.deviceWithoutRule k)) := by
  obtain ⟨rfl, hb⟩ := executeBlock_of_storeOf h
  obtain ⟨hok, hfail, hrule⟩ := runInstr_store (s := s) (hb s.cfg (s.decoded i).core)
    rfl rfl rfl rfl rfl
  rw [← exec_eq_runInstr] at hok hfail hrule
  exact ⟨hok, hfail, hrule⟩

/-- A store that reaches writable bytes. -/
theorem storeRule_of_reaches {rs2 : RegIdx} {dev : Device} (hrs2 : rs2Of (encode i) = rs2)
    (hm : Memory.wf s.mu) (hf : dev.writeFlag = true)
    (hr : Reaches s (effectiveAddr (s.core.x rs1) imm) w dev)
    (hp : Permitted s.mu .write (deviceAddr s.mu dev (effectiveAddr (s.core.x rs1) imm)) w.bytes) :
    StoreRule i (effectiveAddr (s.core.x rs1) imm) dev w (s.core.x rs2) s := by
  subst hrs2
  obtain ⟨t, hexec, hret, hcsr, hmu⟩ := (store_answers s h).1 _ (memWrite_reaches hr hf hp)
  rw [bytesOfWord_mask] at hmu
  exact ⟨t, hexec, hret, hcsr, by rw [hmu]; exact stored_storeBytes s.cfg hm _ _ _⟩

end

/-- Settles O31, by the rule of a store that reaches its bytes (`storeRule_of_reaches`). -/
theorem storesComplete : Obligations.StoresComplete := by
  intro s rs2 rs1 imm dev hm hf
  exact ⟨storeRule_of_reaches s rfl (rs2Of_encS ..) hm hf,
    storeRule_of_reaches s rfl (rs2Of_encS ..) hm hf,
    storeRule_of_reaches s rfl (rs2Of_encS ..) hm hf⟩

/-- Settles O32. The bus answers in the order of R86 and R87 (`busWrite_order`), and a store traps
with the cause of that answer (`store_answers`). -/
theorem storesTrap : Obligations.StoresTrap := by
  intro s i rs1 imm w hstore
  obtain ⟨-, hfail, hrule⟩ := store_answers s hstore
  obtain ⟨hmis, hord⟩ := busWrite_order s.cfg s.mu .single (effectiveAddr (s.core.x rs1) imm) w
    (bytesOfWord w.bytes (maskToWidth w (s.core.x (rs2Of (encode i))))) (length_bytesOfWord ..) rfl
  refine ⟨fun ha => hfail _ (hmis ha), fun ha => ⟨fun hd => hfail _ ((hord ha).1 hd),
    fun dev hd => ?_⟩⟩
  obtain ⟨hflag, hk, hbacked⟩ := (hord ha).2 dev hd
  refine ⟨fun hf => hfail _ (hflag hf), fun hf hb => hrule _ (hk hf hb), fun hf hb hnot => ?_⟩
  obtain ⟨hout, hin⟩ := hbacked hf hb
  by_cases hbounds : InBounds s.mu (deviceAddr s.mu dev (effectiveAddr (s.core.x rs1) imm)) w.bytes
  · exact hfail _ ((hin rfl hbounds).1 fun hp => hnot ⟨⟨ha, hd, hb, hbounds⟩, hp⟩)
  · exact hfail _ (hout fun h => hbounds h.2)

/-! ### A store and then a load (43_load_store.md R253) -/

/-- The word at an address where all four bytes of `v` have been stored. -/
theorem wordAt_of_stored {cfg : Config} {mu mu' : MemoryUnit} {a : Nat} {v : Word}
    (h : Stored cfg mu mu' a 4 v) : mu'.wordAt a = v := by
  have h0 := h.bytes 0 (by decide)
  rw [Nat.add_zero] at h0
  rw [MemoryUnit.wordAt, h0, h.bytes 1 (by decide), h.bytes 2 (by decide), h.bytes 3 (by decide)]
  apply BitVec.eq_of_toNat_eq
  simp only [toNat_append_add, toNat_extract]
  omega

theorem Retired.x_of_zero {s t : State} {v pc : Word} {q : List Word} (h : Retired s t 0 v pc q)
    (r : RegIdx) : t.core.x r = s.core.x r := by
  rw [h.regs, if_neg fun hr => hr.2 hr.1]

/-- Settles O33. The store leaves the word at its address (`wordAt_of_stored`) with every byte
readable (`StoredBytes.readable`), and no register changed, so the load has the same address. -/
theorem storeThenLoad : Obligations.StoreThenLoad := by
  intro s t rd rs2 rs1 imm dev hm hf ea a hr hp hreadable hexec
  obtain ⟨t', hexec', hret, -, hstored⟩ := (storesComplete s rs2 rs1 imm dev hm hf).2.2 hr hp
  cases hexec.symm.trans hexec'
  have hea : effectiveAddr (t.core.x rs1) imm = ea := by rw [hret.x_of_zero]
  have ha : deviceAddr t.mu dev ea = a := by rw [deviceAddr, hstored.base]; rfl
  have hr' : Reaches t ea .word dev :=
    ⟨hr.aligned, by rw [hret.others.cfg]; exact hr.routed, hr.backed,
      by rw [ha]; exact hstored.inBounds hr.inBounds⟩
  have hp' : Permitted t.mu .read a 4 := fun k hk => hstored.readable hk (hreadable k hk)
  have hload := (loadsComplete t rd rs1 imm dev).2.2
  rw [hea, ha] at hload
  have h := hload hr' hp'
  rw [wordAt_of_stored hstored, hret.pc, hret.prefetch, BitVec.add_assoc] at h
  exact h

/-! ### System instructions (44_system.md R270 to R277) -/

theorem traps_of_raised {i : Instr} {s : State} {e : Cause}
    (h : executeBlock i s.cfg (s.decoded i).core = .raised e) : Traps i s e 3 := by
  obtain ⟨t, hrun, htrap⟩ := runInstr_raised h
  exact ⟨t, (exec_eq_runInstr i s).trans hrun, htrap⟩

/-- Settles O34. EXECUTE of ECALL raises, whatever the state. -/
theorem ecallTraps : Obligations.EcallTraps := ⟨rfl, by decide, fun _ => traps_of_raised rfl⟩

/-- A CSR instruction on an implemented CSR: its block's function of the value of its first source
and of the old value of the CSR is the new value. -/
theorem csrRule_of_csrAccess {i : Instr} {s : State} {rd r1 : RegIdx} {csr : CsrAddr}
    {f3 : BitVec 3} {op : BitVec 7} {writes : Bool} (f : Word → Word → Word)
    (he : encode i = encI csr r1 f3 rd op)
    (hwf : Cells.wf 0 s.core.csr.extra) (himp : implementsCsr s.cfg csr = true)
    (hb : ∀ cfg c, executeBlock i cfg c = csrAccess cfg c csr writes (f c.d.rs1v)) :
    CsrRule i rd csr writes (f (s.core.x r1) (s.core.csr.read csr)) s := by
  have hfile : (s.decoded i).core.csr = s.core.csr := rfl
  have hcsr : (s.decoded i).core.d.csr = csr := by simp [State.decoded, he]
  have hblock : executeBlock i s.cfg (s.decoded i).core =
      csrAccess s.cfg (s.decoded i).core csr writes (f (s.core.x r1)) := by
    rw [hb]
    simp [State.decoded, he]
  rw [csrAccess, if_pos himp] at hblock
  obtain ⟨t, hrun, hret, hwritten, hmu⟩ := runInstr_done hblock rfl rfl (rd := rd)
    (fun r => by simp [State.decoded, he]) (fun _ _ => rfl)
  refine ⟨t, (exec_eq_runInstr i s).trans hrun, hret, hmu, fun a => ?_⟩
  rw [hwritten]
  cases writes with
  | false => simp
  | true => simpa [hcsr, hfile] using CsrFile.read_write hwf csr a _

theorem uimm5_eq (uimm : BitVec 5) : uimm5 uimm = BitVec.ofNat 32 uimm.toNat := by
  rw [uimm5, BitVec.ofNat_toNat]

/-- Settles O35. The register forms are CSR accesses (`csrRule_of_csrAccess`) with the value of
`rs1`. -/
theorem csrRegisterForms : Obligations.CsrRegisterForms := by
  intro s rd rs1 csr hwf himp
  refine ⟨?csrrw, ?csrrs, ?csrrc⟩
  case csrrw => exact csrRule_of_csrAccess (fun v _ => v) rfl hwf himp fun _ _ => rfl
  case csrrs => exact csrRule_of_csrAccess (fun v old => old ||| v) rfl hwf himp fun _ _ => rfl
  case csrrc => exact csrRule_of_csrAccess (fun v old => old &&& ~~~v) rfl hwf himp fun _ _ => rfl

/-- Settles O36. The immediate forms are CSR accesses (`csrRule_of_csrAccess`) with the
zero-extended immediate. -/
theorem csrImmediateForms : Obligations.CsrImmediateForms := by
  intro s rd csr uimm hwf himp
  rw [← uimm5_eq]
  refine ⟨?csrrwi, ?csrrsi, ?csrrci⟩
  case csrrwi => exact csrRule_of_csrAccess (fun _ _ => uimm5 uimm) rfl hwf himp fun _ _ => rfl
  case csrrsi =>
    exact csrRule_of_csrAccess (fun _ old => old ||| uimm5 uimm) rfl hwf himp fun _ _ => rfl
  case csrrci =>
    exact csrRule_of_csrAccess (fun _ old => old &&& ~~~uimm5 uimm) rfl hwf himp fun _ _ => rfl

theorem executeBlock_of_csrAddrOf {i : Instr} {csr : CsrAddr} (h : csrAddrOf i = some csr)
    (cfg : Config) (c : Core) :
    ∃ writes f, executeBlock i cfg c = csrAccess cfg c csr writes f := by
  cases i with
  | csrrw | csrrs | csrrc | csrrwi | csrrsi | csrrci =>
    cases h
    simp only [executeBlock, xCsrrw, xCsrrs, xCsrrc, xCsrrwi, xCsrrsi, xCsrrci]
    exact ⟨_, _, rfl⟩
  | _ => cases h

/-- Settles O37. Every CSR instruction's block raises where its CSR is not implemented. -/
theorem csrUnimplemented : Obligations.CsrUnimplemented := by
  intro s i csr hi hset hmepc hmcause
  obtain ⟨writes, f, hb⟩ := executeBlock_of_csrAddrOf hi s.cfg (s.decoded i).core
  have himp : implementsCsr s.cfg csr = false := by
    simp [implementsCsr, hset, show csr ≠ 833#12 from hmepc, show csr ≠ 834#12 from hmcause]
  refine traps_of_raised ?_
  rw [hb, csrAccess, himp]
  rfl

end Sys2Proof.Machine
end

section
/-! Fetch and whole steps (40_pipeline_stages.md R151 to R156, R173), and the trap from its ENTER to
the return from its EXIT (60_exceptions.md R311 to R313, R315). -/

namespace Sys2Proof.Machine

/-! ### FETCH (R151, R152) -/

section
variable {s t : State} {w : Word} {rest : List Word}

theorem step_of_aboutToFetch (h : AboutToFetch s) :
    step s = andThen s.fetchStage State.afterFetch := by
  simp [step, State.machineStep, h.noTurn, State.runOn, h.running, State.runCore, h.stage]

theorem afterFetch_ok {i : Instr} (h : decodeWord s.core.d.ir = .ok i) :
    s.afterFetch = exec i s := by
  rw [State.afterFetch, h]

theorem afterFetch_error {e : DecodeReject} (h : decodeWord s.core.d.ir = .error e) :
    s.afterFetch = s.runIllegal := by
  rw [State.afterFetch, h]

theorem step_of_fetched (h : AboutToFetch s) (hf : s.fetchStage = .next (s.fetched w rest)) :
    step s = (s.fetched w rest).afterFetch := by
  rw [step_of_aboutToFetch h, hf, andThen_next (by simp [State.fetched])]

theorem fetchStage_queued (hq : s.core.prefetch = w :: rest) :
    s.fetchStage = .next (s.fetched w rest) := by
  rw [State.fetchStage, hq]
  rfl

theorem fetchStage_refilled (hq : s.core.prefetch = [])
    (hr : fetchRefill s.cfg s.mu s.core.pc = .ok (w :: rest)) :
    s.fetchStage = .next (s.fetched w rest) := by
  rw [State.fetchStage, hq]
  simp only [hr]
  rfl

/-- Settles O38. FETCH takes the queued word (`fetchStage_queued`), and the step goes on with it. -/
theorem stepRunsQueued : Obligations.StepRunsQueued := by
  intro s w rest i h hq hi
  rw [step_of_fetched h (fetchStage_queued hq)]
  exact afterFetch_ok hi

/-- Settles O39. The refill brings the words of the window (`fetchRefill_reaches`), the first of
them the one that the four bytes at `pc` make. -/
theorem stepRunsFetched : Obligations.StepRunsFetched := by
  intro s dev i h hq hr hw a hbytes
  have hi : decodeWord (s.mu.wordAt a) = .ok i := by
    rw [decodeBytes, wordOfBytes_four] at hbytes
    split at hbytes
    · next hj => cases hbytes; exact hj
    · cases hbytes
  have hrefill := fetchRefill_reaches hr hw
  rw [Config.prefetchDepth, List.range_succ_eq_map, List.map_cons, List.map_map] at hrefill
  rw [step_of_fetched h (fetchStage_refilled hq hrefill)]
  exact afterFetch_ok hi

/-! ### A FETCH that fails (R152) -/

theorem step_of_fetchFailed (h : AboutToFetch s) (hq : s.core.prefetch = []) {st : BusStatus}
    (hr : fetchRefill s.cfg s.mu s.core.pc = .fail st) :
    ∃ t, step s = .next t ∧ TrapEntered s t (fetchCause st) 2 := by
  have hf : s.fetchStage = .next (s.raise (fetchCause st)) := by
    rw [State.fetchStage, hq]
    simp only [hr]
  refine ⟨_, ?_, trapEntered_of_raised (u := s) (n := 0) ⟨rfl, rfl, rfl, rfl, rfl⟩ rfl rfl rfl
    rfl rfl rfl rfl⟩
  rw [step_of_aboutToFetch h, hf, andThen_raised (by simp)]

theorem step_of_fetchNoRule (h : AboutToFetch s) (hq : s.core.prefetch = []) {k : DeviceKind}
    (hr : fetchRefill s.cfg s.mu s.core.pc = .noRule k) :
    step s = .refused (.deviceWithoutRule k) := by
  have hf : s.fetchStage = .refused (.deviceWithoutRule k) := by
    rw [State.fetchStage, hq]
    simp only [hr]
  rw [step_of_aboutToFetch h, hf, andThen]

theorem fetchRefill_of_fail {st : BusStatus}
    (h : busRead s.cfg s.mu .fetch (fetchNeeds s.cfg) s.core.pc .word
      (s.cfg.prefetchDepth * Width.word.bytes) = .fail st) :
    fetchRefill s.cfg s.mu s.core.pc = .fail st := by
  rw [fetchRefill, readUnits, h, BusResult.map]

theorem fetchRefill_of_noRule {k : DeviceKind}
    (h : busRead s.cfg s.mu .fetch (fetchNeeds s.cfg) s.core.pc .word
      (s.cfg.prefetchDepth * Width.word.bytes) = .noRule k) :
    fetchRefill s.cfg s.mu s.core.pc = .noRule k := by
  rw [fetchRefill, readUnits, h, BusResult.map]

/-- A window that passes the tests of the device, the arena and the permissions can be fetched. -/
theorem fetchWindow_of_tests {dev : Device}
    (ht : Transfer.fetch.inDevice s.mu dev s.core.pc (4 * s.cfg.prefetchDepth) = true)
    (hb : s.mu.inBounds (deviceAddr s.mu dev s.core.pc) (4 * s.cfg.prefetchDepth) = true)
    (hp : s.mu.allow (fetchNeeds s.cfg) (deviceAddr s.mu dev s.core.pc)
      (4 * s.cfg.prefetchDepth) = true) : FetchWindow s dev := by
  obtain ⟨⟨hdev, hspace⟩, hbase⟩ := (inDevice_fetch_iff ..).1 ht
  obtain ⟨-, harena, -⟩ := (inBounds_iff ..).1 hb
  obtain ⟨hread, hexec⟩ := (allow_fetchNeeds ..).1 hp
  exact ⟨hbase, hdev, hspace, harena, hread, hexec⟩

/-- An aligned refill whose window cannot be fetched fails, and not for its alignment. -/
theorem fetchRefill_fails {dev : Device} (ha : s.core.pc.toNat % 4 = 0)
    (hd : findDevice s.cfg s.core.pc = some dev) (hk : dev.kind.memoryBacked = true)
    (hw : ¬FetchWindow s dev) :
    ∃ st, fetchRefill s.cfg s.mu s.core.pc = .fail st ∧
      fetchCause st = .instructionAccessFault := by
  have hn : s.cfg.prefetchDepth * Width.word.bytes = 4 * s.cfg.prefetchDepth := Nat.mul_comm _ _
  cases ht : Transfer.fetch.inDevice s.mu dev s.core.pc (4 * s.cfg.prefetchDepth) with
  | false => exact ⟨_, fetchRefill_of_fail (busRead_beyond ha hd hk (hn ▸ ht)), rfl⟩
  | true =>
    have hread := busRead_device (need := fetchNeeds s.cfg) (w := .word) ha hd hk ht
    obtain ⟨-, hr⟩ | ⟨-, -, hr⟩ | ⟨hb, hp, -⟩ := read_cases s.mu (fetchNeeds s.cfg)
      (deviceAddr s.mu dev s.core.pc) (4 * s.cfg.prefetchDepth)
    · rw [hr] at hread
      exact ⟨_, fetchRefill_of_fail (hn ▸ hread), rfl⟩
    · rw [hr] at hread
      exact ⟨_, fetchRefill_of_fail (hn ▸ hread), rfl⟩
    · exact absurd (fetchWindow_of_tests ht hb hp) hw

/-- Settles O40. A refill that fails traps with the cause of its status (`step_of_fetchFailed`),
and an aligned one fails where its window cannot be fetched (`fetchRefill_fails`). -/
theorem fetchTraps : Obligations.FetchTraps := by
  refine fun s h hq => ⟨fun ha => ?_, fun ha => ⟨fun hd => ?_, fun dev hd => ⟨fun hk => ?_,
    fun hk hw => ?_⟩⟩⟩
  · exact step_of_fetchFailed h hq (fetchRefill_of_fail (busRead_misaligned ha))
  · exact step_of_fetchFailed h hq (fetchRefill_of_fail (busRead_notFound ha hd))
  · exact step_of_fetchNoRule h hq (fetchRefill_of_noRule (busRead_noRule ha hd hk))
  · obtain ⟨st, hr, hcause⟩ := fetchRefill_fails ha hd hk hw
    rw [← hcause]
    exact step_of_fetchFailed h hq hr

/-! ### DECODE, and words that are no instruction (R141, R142, R155, R156) -/

theorem decodeStage_unknown (h : typeTable (opcodeOf s.core.d.ir) = .Unknown) :
    s.decodeStage = State.raise { s with core := { s.core with
      d := { s.core.d with opcode := opcodeOf s.core.d.ir, opType := .Unknown } } }
      .illegalInstruction := if_pos h

theorem decodeStage_known (h : typeTable (opcodeOf s.core.d.ir) ≠ .Unknown) :
    s.decodeStage = s.advance { s.core with d := s.core.d.fill s.core.x } .execute := if_neg h

/-- Settles O43, by the two answers of DECODE. -/
theorem decodeStage : Obligations.DecodeStage := by
  refine fun s hs => ⟨s.decodeStage, stageStep_decode hs, ?_, ?_, fun hu => ?_, fun hu => ?_⟩
  · unfold State.decodeStage
    split <;> exact ⟨rfl, rfl, rfl, rfl, rfl⟩
  · unfold State.decodeStage
    split <;> rfl
  · rw [decodeStage_unknown hu]
    rfl
  · rw [decodeStage_known hu]
    rfl

/-- The rest of a word that is no instruction: the trap at DECODE, or one stage later at EXECUTE. -/
theorem runIllegal_traps (s : State) :
    ∃ t, s.runIllegal = .next t ∧ TrapEntered s t .illegalInstruction
      (if typeTable (opcodeOf s.core.d.ir) = .Unknown then 2 else 3) := by
  by_cases hu : typeTable (opcodeOf s.core.d.ir) = .Unknown
  · rw [if_pos hu, State.runIllegal, decodeStage_unknown hu, andThen_raised (by simp)]
    exact ⟨_, rfl, trapEntered_of_raised (n := 0) ⟨rfl, rfl, rfl, rfl, rfl⟩ rfl rfl rfl rfl rfl rfl
      rfl⟩
  · rw [if_neg hu, State.runIllegal, decodeStage_known hu, andThen_next (by simp),
      andThen_raised (by simp [State.executeStage])]
    exact ⟨_, rfl, trapEntered_of_raised (n := 1) ⟨rfl, rfl, rfl, rfl, rfl⟩ rfl rfl rfl rfl rfl rfl
      (Nat.mod_mod ..)⟩

/-- FETCH keeps all that a trap keeps, and counts one cycle. -/
theorem TrapEntered.of_fetched {e : Cause} {n : Nat} (h : TrapEntered (s.fetched w rest) t e n) :
    TrapEntered s t e (n + 1) where
  others := ⟨h.others.cfg, h.others.lower, h.others.upper, h.others.handler, h.others.schedule⟩
  mu := h.mu
  regs := h.regs
  pc := h.pc
  prefetch := h.prefetch
  stage := h.stage
  trapState := h.trapState
  snapshot := h.snapshot
  savedPc := h.savedPc
  cause := h.cause
  csr := h.csr
  cycle := by
    rw [h.cycle]
    show ((s.core.cycle + 1) % 2 ^ s.cfg.cycleWidth + n) % 2 ^ s.cfg.cycleWidth = _
    rw [Nat.mod_add_mod, Nat.add_assoc, Nat.add_comm 1]
  id := h.id
  halted := h.halted
  hostResults := h.hostResults

/-- Settles O41. A word that decodes is the encoding of its instruction (`encodes_of_decodeWord`),
which is of its own row (`encode_row`); a word of any row decodes (`decodes_of_row`), and one that
does not decode traps (`runIllegal_traps`). -/
theorem everyWordRunsOrTraps : Obligations.EveryWordRunsOrTraps := by
  intro s w rest h hq
  cases hw : decodeWord w with
  | ok i =>
    obtain ⟨-, rfl⟩ := encodes_of_decodeWord hw
    exact .inl ⟨i, encode_row i, rfl, rfl, stepRunsQueued s _ rest i h hq hw⟩
  | error e =>
    refine .inr ⟨fun i hi => ?_, ?_⟩
    · obtain ⟨j, hj, -⟩ := decodes_of_row i hi
      cases hw.symm.trans hj
    · obtain ⟨t, hrun, htrap⟩ := runIllegal_traps (s.fetched w rest)
      have hcount : (if typeTable (opcodeOf w) = .Unknown then 2 else 3) + 1 =
          if typeTable (opcodeOf w) = .Unknown then 3 else 4 := by split <;> rfl
      refine ⟨t, ?_, hcount ▸ htrap.of_fetched⟩
      rw [step_of_fetched h (fetchStage_queued hq), afterFetch_error hw, hrun]

/-! ### ENTER, the handler's answer and EXIT (60_exceptions.md R311 to R313) -/

/-- Settles O46. The codes are those of the table, and ENTER does what `trapEntered_enterTrap`
says. -/
theorem enterTrap : Obligations.EnterTrap :=
  ⟨by decide, fun s hs ht => ⟨_, stageStep_enter hs ht, trapEntered_enterTrap s⟩⟩

theorem stageStep_answer {continue_ : Bool} {a0 : Option Word} {h : Handler}
    (hs : s.core.stage = .trap) (ht : s.core.trapState = .handle)
    (hn : s.handler.next s.core.view s.mu s.core.hostResults = (.answer continue_ a0, h)) :
    s.stageStep =
      .next { s with core := s.core.answerTrap s.cfg continue_ a0, handler := h } := by
  simp only [stageStep_trap hs, State.trapStep, ht, State.handleTrap, hn]

theorem stageStep_exit (hs : s.core.stage = .trap) (ht : s.core.trapState = .exit) :
    s.stageStep = .next s.exitTrap := by
  rw [stageStep_trap hs, State.trapStep, ht]

/-- Settles O47. An answer writes slot 10 of the snapshot (`answerTrap_snapshot`), the sub-state
and the halt. -/
theorem handleAnswer : Obligations.HandleAnswer := by
  intro s continue_ a0 h hs ht hn
  exact ⟨_, stageStep_answer hs ht hn, rfl, rfl, rfl, rfl, rfl, rfl, rfl, rfl, rfl, rfl, hs, rfl,
    rfl, rfl, rfl, answerTrap_snapshot s.cfg continue_ a0 s.core, rfl⟩

/-- Settles O48. EXIT restores the registers (`exitTrap_x`). -/
theorem exitTrap : Obligations.ExitTrap := fun s hs ht =>
  ⟨_, stageStep_exit hs ht, ⟨rfl, rfl, rfl, rfl, rfl⟩, rfl, fun _ hr => exitTrap_x s hr, rfl, rfl,
    rfl, rfl, rfl, rfl, rfl, rfl, rfl⟩

/-! ### From a trap back to FETCH (R313, R315) -/

/-- Between instructions, a step of a core in TRAP is its stage step. -/
theorem step_in_trap (hsched : s.schedule = []) (hh : s.core.halted = false)
    (hs : s.core.stage = .trap) : step s = s.stageStep := by
  simp [step, State.machineStep, hsched, State.runOn, hh, State.runCore, hs, stageStep_trap hs]

theorem step_answer {continue_ : Bool} {a0 : Option Word} {h : Handler} (hsched : s.schedule = [])
    (hh : s.core.halted = false) (hs : s.core.stage = .trap) (ht : s.core.trapState = .handle)
    (hn : s.handler.next s.core.view s.mu s.core.hostResults = (.answer continue_ a0, h)) :
    step s = .next { s with core := s.core.answerTrap s.cfg continue_ a0, handler := h } :=
  (step_in_trap hsched hh hs).trans (stageStep_answer hs ht hn)

theorem step_exit (hsched : s.schedule = []) (hh : s.core.halted = false)
    (hs : s.core.stage = .trap) (ht : s.core.trapState = .exit) : step s = .next s.exitTrap :=
  (step_in_trap hsched hh hs).trans (stageStep_exit hs ht)

/-- The machine is back from a trap that was entered from `s`, with the answer `a0` of a handler
that is now `h`: about to fetch 4 bytes further, `n` steps after `s`. -/
structure TrapReturned (s v : State) (e : Cause) (a0 : Option Word) (h : Handler) (n : Nat) :
    Prop where
  pc : v.core.pc = s.core.pc + 4
  regs : ∀ r, v.core.x r = if r = 10 then a0.getD (s.core.x 10) else s.core.x r
  mu : v.mu = s.mu
  stage : v.core.stage = .fetch
  trapState : v.core.trapState = .none
  prefetch : v.core.prefetch = []
  halted : v.core.halted = false
  mepc : v.core.csr.read 0x341 = s.core.pc
  mcause : v.core.csr.read 0x342 = e.code
  cycle : v.core.cycle = (s.core.cycle + n) % 2 ^ s.cfg.cycleWidth
  cfg : v.cfg = s.cfg
  lower : v.lower = s.lower
  upper : v.upper = s.upper
  handler : v.handler = h
  schedule : v.schedule = []

/-- A trap whose handler continues at once returns two steps later. -/
theorem trapReturned_of_continues {e : Cause} {n : Nat} {a0 : Option Word} {h : Handler}
    (htrap : TrapEntered s t e n) (hsched : s.schedule = []) (hh : s.core.halted = false)
    (hn : s.handler.next t.core.view s.mu [] = (.answer true a0, h)) :
    ∃ u v, step t = .next u ∧ step u = .next v ∧ TrapReturned s v e a0 h (n + 2) := by
  have hsched' : t.schedule = [] := htrap.others.schedule.trans hsched
  have hh' : t.core.halted = false := htrap.halted.trans hh
  rw [← htrap.others.handler, ← htrap.mu, ← htrap.hostResults] at hn
  refine ⟨_, _, step_answer hsched' hh' htrap.stage htrap.trapState hn,
    step_exit hsched' rfl htrap.stage rfl, ?_⟩
  have hsnap : ∀ r : RegIdx, (t.core.answerTrap t.cfg true a0).trap.snapshot[r.toNat] =
      if r = 10 then a0.getD (s.core.x 10) else s.core.x r := fun r => by
    rw [answerTrap_snapshot, htrap.snapshot r]
    exact congrArg (fun x => if r = 10 then a0.getD x else s.core.x r) (htrap.snapshot 10)
  have hmepc : t.core.csr.read 0x341 = s.core.pc := htrap.csr 0x341
  constructor
  case pc => exact congrArg nextPc hmepc
  case regs =>
    intro r
    by_cases hr : r = 0
    · subst hr
      rfl
    · rw [exitTrap_x _ hr]
      exact hsnap r
  case mcause => exact htrap.csr 0x342
  case cycle =>
    show ((t.core.cycle + 1) % 2 ^ t.cfg.cycleWidth + 1) % 2 ^ t.cfg.cycleWidth = _
    rw [htrap.others.cfg, htrap.cycle]
    simp only [Nat.mod_add_mod, Nat.add_assoc]
  case mu => exact htrap.mu
  case mepc => exact hmepc
  case cfg => exact htrap.others.cfg
  case lower => exact htrap.others.lower
  case upper => exact htrap.others.upper
  case schedule => exact hsched'
  all_goals rfl

end

/-- Settles O49. ECALL enters its trap (`ecallTraps`), which returns two steps later
(`trapReturned_of_continues`). -/
theorem ecallRoundTrip : Obligations.EcallRoundTrip := by
  intro s t a0 h hsched hh hexec hn
  obtain ⟨t', hexec', htrap⟩ := ecallTraps.2.2 s
  cases hexec.symm.trans hexec'
  obtain ⟨u, v, hu, hv, hret⟩ := trapReturned_of_continues htrap hsched hh hn
  exact ⟨u, v, hu, hv, hret.pc, hret.regs, hret.mu, hret.stage, hret.trapState, hret.prefetch,
    hret.halted, hret.mepc, hret.mcause, hret.cycle, hret.lower, hret.upper, hret.handler⟩

/-- Settles O50. The trap returns 4 bytes further (`trapReturned_of_continues`), to a `pc` that is
misaligned again (`fetchTraps`). -/
theorem misalignedFetchRepeats : Obligations.MisalignedFetchRepeats := by
  intro s t a0 h hs hq ha hstep hn
  obtain ⟨t', hstep', htrap⟩ := (fetchTraps s hs hq).1 ha
  cases hstep.symm.trans hstep'
  obtain ⟨u, v, hu, hv, hret⟩ := trapReturned_of_continues htrap hs.noTurn hs.running hn
  have ha' : v.core.pc.toNat % 4 ≠ 0 := by
    rw [hret.pc, BitVec.toNat_add, show (4 : Word).toNat = 4 from rfl]
    omega
  obtain ⟨w, hw, htrap'⟩ :=
    (fetchTraps v ⟨hret.schedule, hret.halted, hret.stage⟩ hret.prefetch).1 ha'
  exact ⟨u, v, w, hu, hv, hw, htrap'.trapState, htrap'.cause, (htrap'.csr 0x341).trans hret.pc,
    hret.cycle⟩

end Sys2Proof.Machine
end

section
/-! The whole machine: what a step of one core can touch and see (60_exceptions.md R333), who writes
memory and the CSRs (20_memory.md R110, 10_state.md R40), that no program stops the machine
(60_exceptions.md R326), and the operations of the host's handler (R322, R324). -/

namespace Sys2Proof.Machine

/-! ### One core per step -/

/-- Settles O52. A step passes, or keeps all beside one core (`BesidesKept`). -/
theorem oneCorePerStep : Obligations.OneCorePerStep := by
  intro s t hstep
  obtain ⟨ks, rfl⟩ | ⟨ks, k, s', hf, -, hmove⟩ := step_cases hstep
  · exact ⟨rfl, rfl, 0, fun _ _ => rfl⟩
  · obtain ⟨-, hcores, -, -, hcfg, -⟩ := focus_spec hf
    have hkept : BesidesKept s' t := hmove.elim besidesKept_stageStep besidesKept_runCore
    refine ⟨hkept.cfg.trans hcfg, ?_, s'.lower.length, fun j hj => ?_⟩
    · rw [show s.cores = s'.cores from hcores.symm, State.cores, State.cores, hkept.lower,
        hkept.upper]
      simp
    · rw [cores_other hkept.lower hkept.upper hj, hcores]
      rfl

/-! ### A turn sees its own core only (R333) -/

/-- The machine with other cores around the current one, and another schedule. -/
def State.placed (lower upper : List Core) (schedule : List Nat) (s : State) : State :=
  { s with lower := lower, upper := upper, schedule := schedule }

/-- Every move of the list is a stage step, and so the list is exact. -/
theorem StageMove.stageStep {s t : State} (h : StageMove s t) : s.stageStep = .next t := by
  cases h with
  | fetchQueued w rest hs hq => exact (stageStep_fetch hs).trans (fetchStage_queued hq)
  | fetchRefilled ws hs hq hr => simp [stageStep_fetch hs, State.fetchStage, hq, hr]
  | fetchFailed st hs hq hr => simp [stageStep_fetch hs, State.fetchStage, hq, hr]
  | decoded hs => exact stageStep_decode hs
  | executed hs => exact stageStep_execute hs
  | loaded v hs hr hm => exact stageStep_loaded hs hr hm
  | loadFailed st hs hr hm => exact stageStep_loadFailed hs hr hm
  | stored mu hs hr hw hm => exact stageStep_stored hs hr hw hm
  | storeFailed st hs hr hw hm => exact stageStep_storeFailed hs hr hw hm
  | noAccess hs hr hw => exact stageStep_noAccess hs hr hw
  | wroteBack hs => exact stageStep_writeback hs
  | entered hs ht => rcases ht with ht | ht <;> simp [stageStep_trap hs, State.trapStep, ht]
  | answered continue_ a0 h hs ht hn => exact stageStep_answer hs ht hn
  | hostActed o h mu r hs ht hn ho =>
    simp [stageStep_trap hs, State.trapStep, ht, State.handleTrap, hn, ho]
  | exited hs ht => exact stageStep_exit hs ht

section
variable (lower upper : List Core) (schedule : List Nat)

theorem decodeStage_placed (s : State) :
    (s.placed lower upper schedule).decodeStage = s.decodeStage.placed lower upper schedule := by
  by_cases hu : typeTable (opcodeOf s.core.d.ir) = .Unknown
  · rw [decodeStage_unknown hu, decodeStage_unknown (s := s.placed lower upper schedule) hu]
    rfl
  · rw [decodeStage_known hu, decodeStage_known (s := s.placed lower upper schedule) hu]
    rfl

theorem executeStage_placed (s : State) (r : Executed) :
    (s.placed lower upper schedule).executeStage r =
      (s.executeStage r).placed lower upper schedule := by
  cases r <;> rfl

/-- A stage step is the same whatever stands around its core. -/
theorem StageMove.placed {s t : State} (h : StageMove s t) :
    StageMove (s.placed lower upper schedule) (t.placed lower upper schedule) := by
  cases h with
  | fetchQueued w rest hs hq => exact .fetchQueued w rest hs hq
  | fetchRefilled ws hs hq hr => exact .fetchRefilled ws hs hq hr
  | fetchFailed st hs hq hr => exact .fetchFailed st hs hq hr
  | decoded hs => rw [← decodeStage_placed]; exact .decoded hs
  | executed hs => rw [← executeStage_placed]; exact .executed hs
  | loaded v hs hr hm => exact .loaded v hs hr hm
  | loadFailed st hs hr hm => exact .loadFailed st hs hr hm
  | stored mu hs hr hw hm => exact .stored mu hs hr hw hm
  | storeFailed st hs hr hw hm => exact .storeFailed st hs hr hw hm
  | noAccess hs hr hw => exact .noAccess hs hr hw
  | wroteBack hs => exact .wroteBack hs
  | entered hs ht => exact .entered hs ht
  | answered continue_ a0 h hs ht hn => exact .answered continue_ a0 h hs ht hn
  | hostActed o h mu r hs ht hn ho => exact .hostActed o h mu r hs ht hn ho
  | exited hs ht => exact .exited hs ht

theorem stageStep_placed {s t : State} (h : s.stageStep = .next t) :
    (s.placed lower upper schedule).stageStep = .next (t.placed lower upper schedule) :=
  ((stageMove h).placed lower upper schedule).stageStep

end

theorem turn_halted {k : Nat} {s f : State} (hf : s.focus k = some f) (h : f.core.halted = true) :
    s.turn k = .next s := by
  simp [State.turn, hf, h]

/-- Settles O53. The two states, with the turn given to core `k`, are one but for what stands around
it, and a stage step is the same whatever that is (`stageStep_placed`). -/
theorem turnSeesOwnCoreOnly : Obligations.TurnSeesOwnCoreOnly := by
  intro s s' t k c hc hc' hmu hcfg hhandler hturn
  obtain ⟨f, hf, hcore⟩ := focus_of_getElem hc
  obtain ⟨f', hf', hcore'⟩ := focus_of_getElem hc'
  cases hh : c.halted with
  | true =>
    subst hcore
    cases (turn_halted hf hh).symm.trans hturn
    exact ⟨s', turn_halted hf' (hcore' ▸ hh), hc'.trans hc.symm, hmu, hhandler⟩
  | false =>
    obtain ⟨-, -, hlen, fmu, fcfg, fhandler, -⟩ := focus_spec hf
    obtain ⟨-, -, hlen', fmu', fcfg', fhandler', -⟩ := focus_spec hf'
    have hplaced : f' = f.placed f'.lower f'.upper f'.schedule := by
      have e1 : f'.cfg = f.cfg := fcfg'.trans (hcfg.trans fcfg.symm)
      have e2 : f'.core = f.core := hcore'.trans hcore.symm
      have e3 : f'.mu = f.mu := fmu'.trans (hmu.trans fmu.symm)
      have e4 : f'.handler = f.handler := fhandler'.trans (hhandler.trans fhandler.symm)
      rw [State.placed, ← e1, ← e2, ← e3, ← e4]
    have hstage : f.stageStep = .next t := (turn_eq hf (hcore ▸ hh)).symm.trans hturn
    have hstage' := stageStep_placed f'.lower f'.upper f'.schedule hstage
    rw [← hplaced, ← turn_eq hf' (hcore' ▸ hh)] at hstage'
    refine ⟨_, hstage', ?_, rfl, rfl⟩
    have ht : t.lower.length = k := (congrArg _ (besidesKept_stageStep hstage).lower).trans hlen
    have ht' : t.cores[k]? = some t.core := ht ▸ cores_current t
    rw [ht', ← hlen']
    exact cores_current (t.placed f'.lower f'.upper f'.schedule)

/-! ### Who writes memory, and who writes the CSRs -/

/-- Settles O54, case by case of a stage step. -/
theorem onlyStoresAndHandlerWriteMemory : Obligations.OnlyStoresAndHandlerWriteMemory := by
  intro s t hstep hne
  cases stageMove hstep with
  | stored mu hs hr hw hm => exact .inl ⟨hs, hr, hw, hm⟩
  | hostActed o h mu r hs ht hn ho => exact .inr ⟨hs, ht, o, h, r, hn, ho⟩
  | decoded => exact absurd (by unfold State.decodeStage; split <;> rfl) hne
  | executed => exact absurd (by unfold State.executeStage; split <;> rfl) hne
  | _ => exact absurd rfl hne

/-- Settles O55, case by case of a stage step: WRITEBACK writes as `writebackStage_csr_read` says,
and ENTER as `CsrFile.read_write_trap` says. -/
theorem whoWritesCsrs : Obligations.WhoWritesCsrs := by
  intro s t a hwf hstep hne
  cases stageMove hstep with
  | wroteBack hs =>
    rw [writebackStage_csr_read s hwf] at hne ⊢
    obtain ⟨hcond, -⟩ := ite_ne_right_iff.1 hne
    exact .inl ⟨hs, hcond.1, hcond.2, if_pos hcond⟩
  | entered hs ht =>
    have hread := CsrFile.read_write_trap s.core.csr s.core.pc s.core.trap.cause.code a
    have hhandle : s.core.trapState ≠ .handle := by rcases ht with ht | ht <;> simp [ht]
    have hexit : s.core.trapState ≠ .exit := by rcases ht with ht | ht <;> simp [ht]
    refine .inr ⟨hs, hhandle, hexit, ?_⟩
    by_cases h341 : a = 0x341
    · exact .inl ⟨h341, hread.trans (if_pos h341)⟩
    · rw [if_neg h341] at hread
      by_cases h342 : a = 0x342
      · exact .inr ⟨h342, hread.trans (if_pos h342)⟩
      · exact absurd (hread.trans (if_neg h342)) hne
  | decoded => exact absurd (by unfold State.decodeStage; split <;> rfl) hne
  | executed => exact absurd (by unfold State.executeStage; split <;> rfl) hne
  | _ => exact absurd rfl hne

/-! ### No program stops the machine (R326, R335) -/

theorem findDevice_backed {cfg : Config} (hb : DevicesBacked cfg) {addr : Word} {dev : Device}
    (h : findDevice cfg addr = some dev) : dev.kind.memoryBacked = true :=
  hb dev (List.mem_of_find?_eq_some h)

theorem BusResult.map_eq_noRule {α β : Type} {f : α → β} {r : BusResult α} {k : DeviceKind}
    (h : r.map f = .noRule k) : r = .noRule k := by
  cases r <;> cases h
  rfl

theorem readAnswer_error {mu : MemoryUnit} {b : BusResult (List Word)} {k : DeviceKind}
    (h : readAnswer mu b = .error k) : b = .noRule k := by
  cases b <;> cases h
  rfl

theorem writeAnswer_error {mu : MemoryUnit} {b : BusResult MemoryUnit} {k : DeviceKind}
    (h : writeAnswer mu b = .error k) : b = .noRule k := by
  cases b <;> cases h
  rfl

section
variable {cfg : Config} {mu : MemoryUnit} {t : Transfer} {addr : Word} {w : Width} {k : DeviceKind}
  (hb : DevicesBacked cfg)
include hb

theorem busRead_ne_noRule {need : List Access} {len : Nat} :
    busRead cfg mu t need addr w len ≠ .noRule k := by
  intro h
  obtain ⟨dev, hd, hk, -⟩ := busRead_noRule_inv h
  exact absurd (findDevice_backed hb hd) (by simp [hk])

theorem busWrite_ne_noRule {bs : List Byte} : busWrite cfg mu t addr w bs ≠ .noRule k := by
  intro h
  obtain ⟨dev, hd, hk, -⟩ := busWrite_noRule_inv h
  exact absurd (findDevice_backed hb hd) (by simp [hk])

theorem hostOp_ne_error (o : HostOp) : hostOp cfg mu o ≠ .error k := by
  intro h
  cases o with
  | readSingle =>
    have hread := BusResult.map_eq_noRule (readAnswer_error h)
    exact busRead_ne_noRule hb (BusResult.map_eq_noRule hread)
  | readMultiple => exact busRead_ne_noRule hb (BusResult.map_eq_noRule (readAnswer_error h))
  | writeSingle | writeMultiple => exact busWrite_ne_noRule hb (writeAnswer_error h)
  | allocate | addMemory | setPerm => cases h

end

/-- The stage, or the sequence of stages, answers a next state. -/
def Result.Progresses (r : Result) : Prop := ∃ t, r = .next t

section
variable {s : State} (hb : DevicesBacked s.cfg)
include hb

theorem fetchStage_progresses : Result.Progresses s.fetchStage := by
  unfold State.fetchStage
  split
  · exact ⟨_, rfl⟩
  · split
    · exact ⟨_, rfl⟩
    · exact ⟨_, rfl⟩
    · next k hr => exact (busRead_ne_noRule hb (BusResult.map_eq_noRule hr)).elim

theorem memoryStage_progresses : Result.Progresses s.memoryStage := by
  unfold State.memoryStage
  split
  · split
    · exact ⟨_, rfl⟩
    · exact ⟨_, rfl⟩
    · next k hr => exact (busRead_ne_noRule hb (BusResult.map_eq_noRule hr)).elim
  · split
    · split
      · exact ⟨_, rfl⟩
      · exact ⟨_, rfl⟩
      · next k hr => exact (busWrite_ne_noRule hb hr).elim
    · exact ⟨_, rfl⟩

theorem handleTrap_progresses : Result.Progresses s.handleTrap := by
  unfold State.handleTrap
  split
  · exact ⟨_, rfl⟩
  · split
    · exact ⟨_, rfl⟩
    · next k ho => exact (hostOp_ne_error hb _ ho).elim

theorem trapStep_progresses : Result.Progresses s.trapStep := by
  unfold State.trapStep
  split
  · exact ⟨_, rfl⟩
  · exact ⟨_, rfl⟩
  · exact handleTrap_progresses hb
  · exact ⟨_, rfl⟩

theorem stageStep_progresses : Result.Progresses s.stageStep := by
  unfold State.stageStep
  split
  · exact fetchStage_progresses hb
  · exact ⟨_, rfl⟩
  · exact ⟨_, rfl⟩
  · exact memoryStage_progresses hb
  · exact ⟨_, rfl⟩
  · exact trapStep_progresses hb

omit hb in
theorem andThen_progresses {r : Result} {k : State → Result} (hr : Result.Progresses r)
    (hk : ∀ u, r = .next u → Result.Progresses (k u)) : Result.Progresses (andThen r k) := by
  obtain ⟨u, rfl⟩ := hr
  by_cases hu : u.core.stage = .trap
  · rw [andThen_raised hu]
    exact ⟨_, rfl⟩
  · rw [andThen_next hu]
    exact hk u rfl

theorem afterExecute_progresses : Result.Progresses s.afterExecute :=
  andThen_progresses (memoryStage_progresses hb) fun _ _ => ⟨_, rfl⟩

theorem devicesBacked_executeStage (r : Executed) : DevicesBacked (s.executeStage r).cfg := by
  rw [(besidesKept_executeStage s r).cfg]
  exact hb

theorem runInstr_progresses (i : Instr) (block : Config → Core → Executed) :
    Result.Progresses (runInstr i block s) := by
  rw [runInstr_eq]
  split
  · exact afterExecute_progresses (devicesBacked_executeStage (s := s.decoded i) hb _)
  · exact ⟨_, rfl⟩

theorem afterFetch_progresses : Result.Progresses s.afterFetch := by
  unfold State.afterFetch
  split
  · rw [exec_eq_runInstr]
    exact runInstr_progresses hb ..
  · obtain ⟨t, hrun, -⟩ := runIllegal_traps s
    exact ⟨t, hrun⟩

theorem runCore_progresses : Result.Progresses s.runCore := by
  unfold State.runCore
  split
  · next hs =>
    refine andThen_progresses (fetchStage_progresses hb) fun u hu => afterFetch_progresses ?_
    rw [(besidesKept_stageStep ((stageStep_fetch hs).trans hu)).cfg]
    exact hb
  · exact afterFetch_progresses hb
  · refine andThen_progresses ⟨_, rfl⟩ fun u hu => afterExecute_progresses ?_
    cases hu
    exact devicesBacked_executeStage hb _
  · exact afterExecute_progresses hb
  · exact ⟨_, rfl⟩
  · exact trapStep_progresses hb

theorem turn_progresses (k : Nat) : Result.Progresses (s.turn k) := by
  unfold State.turn
  split
  · exact ⟨_, rfl⟩
  · next f hf =>
    split
    · exact ⟨_, rfl⟩
    · obtain ⟨-, -, -, -, hcfg, -⟩ := focus_spec hf
      exact stageStep_progresses (hcfg ▸ hb)

/-- With a core that is not halted, the machine finds one and runs it. -/
theorem runOn_progresses (h : ∃ c ∈ s.cores, c.halted = false) : Result.Progresses s.runOn := by
  unfold State.runOn
  split
  · obtain ⟨c, hc, hrunning⟩ := h
    cases hk : firstRunning s.cores with
    | none => exact absurd (firstRunning_none.1 hk c hc) (by simp [hrunning])
    | some k =>
      obtain ⟨c', hc', -⟩ := firstRunning_some hk
      obtain ⟨f, hf, -⟩ := focus_of_getElem hc'
      obtain ⟨-, -, -, -, hcfg, -⟩ := focus_spec hf
      simp only [hf]
      exact runCore_progresses (hcfg ▸ hb)
  · exact runCore_progresses hb

end

/-- Settles O56. A scheduled turn progresses (`turn_progresses`), and so does a step with a core
that is not halted (`runOn_progresses`); with none there is no core to run. -/
theorem stepNeverStuck : Obligations.StepNeverStuck := by
  refine fun s hb => ⟨fun h => ?_, fun hsched hall => ?_⟩
  · unfold step State.machineStep
    split
    · next hsched => exact runOn_progresses hb (h.resolve_left (absurd hsched))
    · next k ks _ => exact turn_progresses (s := { s with schedule := ks }) hb k
  · have hcore : s.core.halted = true := hall _ (List.mem_of_getElem? (cores_current s))
    simp [step, State.machineStep, hsched, State.runOn, hcore, firstRunning_none.2 hall]

/-! ### The operations of the handler (R322, R324) -/

theorem BusResult.map_eq_ok {α β : Type} {f : α → β} {r : BusResult α} {b : β}
    (h : r.map f = .ok b) : ∃ a, r = .ok a ∧ f a = b := by
  cases r with
  | ok a => cases h; exact ⟨a, rfl, rfl⟩
  | fail | noRule => cases h

theorem BusResult.map_eq_fail {α β : Type} {f : α → β} {r : BusResult α} {st : BusStatus}
    (h : r.map f = .fail st) : r = .fail st := by
  cases r <;> cases h
  rfl

theorem readAnswer_ok {mu mu' : MemoryUnit} {b : BusResult (List Word)} {r : HostResult}
    (h : readAnswer mu b = .ok (mu', r)) :
    mu' = mu ∧ ((∃ vs, r = .values vs ∧ b = .ok vs) ∨ ∃ st, r = .failed st ∧ b = .fail st) := by
  cases b with
  | ok vs => cases h; exact ⟨rfl, .inl ⟨vs, rfl, rfl⟩⟩
  | fail st => cases h; exact ⟨rfl, .inr ⟨st, rfl, rfl⟩⟩
  | noRule => cases h

theorem writeAnswer_ok {mu mu' : MemoryUnit} {b : BusResult MemoryUnit} {r : HostResult}
    (h : writeAnswer mu b = .ok (mu', r)) :
    (r = .written ∧ b = .ok mu') ∨ ∃ st, r = .failed st ∧ b = .fail st ∧ mu' = mu := by
  cases b with
  | ok => cases h; exact .inl ⟨rfl, rfl⟩
  | fail st => cases h; exact .inr ⟨st, rfl, rfl, rfl⟩
  | noRule => cases h

theorem allocate_fails {mu : MemoryUnit} {size : Nat} {p : Perm}
    (h : (mu.allocate size p).1 = none) :
    (mu.allocate size p).2 = mu := by
  unfold MemoryUnit.allocate at h ⊢
  split
  · rfl
  · next hroom => rw [if_neg hroom] at h; cases h

theorem addMemory_fails {cfg : Config} {mu : MemoryUnit} {addr size : Nat} {p : Perm}
    (h : (mu.addMemory cfg addr size p).1 = false) : (mu.addMemory cfg addr size p).2 = mu := by
  unfold MemoryUnit.addMemory at h ⊢
  split
  · rfl
  · next hbase =>
    rw [if_neg hbase] at h
    split
    · rfl
    · next hroom => rw [if_neg hroom] at h; cases h

theorem setPerm_fails {mu : MemoryUnit} {addr len : Nat} {p : Perm}
    (h : (mu.setPerm addr len p).1 = false) : (mu.setPerm addr len p).2 = mu := by
  unfold MemoryUnit.setPerm at h ⊢
  split
  · next hb => rw [if_pos hb] at h; cases h
  · rfl

/-- Settles O60. The step leaves what the operation answers, and each operation's answer is that of
its transaction (`readAnswer_ok`, `writeAnswer_ok`) or of the MemoryUnit. -/
theorem handleOperation : Obligations.HandleOperation := by
  intro s o h hs ht hn
  refine ⟨fun mu r ho => ⟨(StageMove.hostActed o h mu r hs ht hn ho).stageStep, ?_⟩, fun k ho => ?_⟩
  · cases o with
    | readSingle addr w =>
      obtain ⟨hmu, ⟨vs, hr, hv⟩ | ⟨st, hr, hv⟩⟩ := readAnswer_ok ho
      · obtain ⟨v, hread, rfl⟩ := BusResult.map_eq_ok hv
        exact ⟨hmu, .inl ⟨v, hr, hread⟩⟩
      · exact ⟨hmu, .inr ⟨st, hr, BusResult.map_eq_fail hv⟩⟩
    | readMultiple => exact readAnswer_ok ho
    | writeSingle | writeMultiple => exact writeAnswer_ok ho
    | allocate size p => cases ho; exact ⟨_, rfl, rfl, allocate_fails⟩
    | addMemory addr size p => cases ho; exact ⟨_, rfl, rfl, addMemory_fails⟩
    | setPerm addr len p => cases ho; exact ⟨_, rfl, rfl, setPerm_fails⟩
  · simp only [stageStep_trap hs, State.trapStep, ht, State.handleTrap, hn, ho]

end Sys2Proof.Machine
end
